-- ==== Sys2Proof/Word.lean ====
section
/-! DEFINITION. The word types of the block (00_scope.md R8): every value is unsigned. -/

namespace Sys2Proof

/-- A 32-bit bus word, register or command word (R14, R43, R61). -/
abbrev Word := BitVec 32

/-- A byte value, 0 to 255: one symbol of the alphabet (R7). -/
abbrev Byte := BitVec 8

end Sys2Proof
end

