-- ==== Sys2Proof/Config.lean ====
section
/-! DEFINITION. What an implementation fixes: the parameters of 00_scope.md R6, the constants of R7 and R16, and the
values the spec leaves unconstrained (opaque constants: no proof can see what they are). -/

namespace Sys2Proof

/-- The implementation parameters of R6. LAT is no field: it is the place of the engine's turns in the total order of
events (assumption 1). -/
structure Params where
  /-- `W_CNT`: width in bits of TOTAL, of every FREQ entry and of every node frequency. -/
  wCnt    : Nat
  /-- `MAX_WORD`: capacity of WBUF in bytes. -/
  maxWord : Nat
  /-- `MAX_BITS`: capacity of OBUF and IBUF in bits and of DBUF in bytes. -/
  maxBits : Nat
  deriving DecidableEq, Repr

/-- The default values of R6. -/
def Params.default : Params := { wCnt := 32, maxWord := 256, maxBits := 8192 }

namespace Config

/-- The identification constant of R2 and R16. -/
def idValue : Word := 0x48554631

/-- `NNODE`: the number of node records (R7, R28). -/
def nNode : Nat := 511

/-- FREE VALUE (assumption 4). The value of the n-th read of a result register while STATUS.BUSY = 1 (R137: "a fresh
unconstrained value"). -/
opaque busyRead : Nat → Word

/-- FREE VALUE (assumption 5). Byte `j` of WBUF after the hardware reset numbered `g` (R132: "unspecified"). -/
opaque wbufPowerUp : (g : Nat) → (j : Nat) → Byte

/-- FREE VALUE (assumption 5). Bit `i` of IBUF after the hardware reset numbered `g` (R132: "unspecified"). -/
opaque ibufPowerUp : (g : Nat) → (i : Nat) → Bool

end Config

end Sys2Proof
end

