-- ==== Sys2Proof/Syntax.lean ====
section
/-! DEFINITION. Syntax: the commands of 30_encoding.md R63, the fields of a command word (R61), the registers of
10_state.md R14, the events of 20_memory.md R56 and the statements of host assembly (30_encoding.md R68). -/

namespace Sys2Proof

/-- The commands, one constructor per row of the opcode table (R63). -/
inductive Instr where
  | nop
  | reset
  /-- Count the byte `b` (R70); the only operand of any command (R62). -/
  | collect (b : Byte)
  | build
  | derive
  | encode
  | decode
  | ack
  deriving DecidableEq, Repr

/-- The three fields of a command word (R61). -/
structure CmdFields where
  /-- OP, w[7:0] -/
  op  : BitVec 8
  /-- ARG, w[15:8] -/
  arg : BitVec 8
  /-- RSV, w[31:16] -/
  rsv : BitVec 16
  deriving DecidableEq, Repr

/-- The mapped registers of R14, in the order of their offsets. -/
inductive Reg where
  | id | maxword | maxbits | cntw | cmd | status | errinfo | total | nsym | root
  | wlen | olen | ilen | dlen | msel | maddr | mdata
  deriving DecidableEq, Repr

/-- The events of the block's one total order (R56, R122). -/
inductive Event where
  /-- The engine's turn: it completes the command in flight, if there is one (R135). -/
  | engine
  /-- `MemRead(addr, 4)` (R42). -/
  | read (addr : BitVec 8)
  /-- `MemWrite(addr, 4, v)` (R42). -/
  | write (addr : BitVec 8) (v : Word)
  /-- `rst_n = 0` at a clock edge (R131). -/
  | hardReset
  deriving DecidableEq, Repr

/-- The statements of host assembly (R68). Labels are numbers. -/
inductive Stmt where
  /-- A command mnemonic, with its operand for COLLECT. -/
  | command (i : Instr)
  /-- `wr REG, imm32` -/
  | wr (r : Reg) (v : Word)
  /-- `rd REG` -/
  | rd (r : Reg)
  /-- `L:` -/
  | label (l : Nat)
  /-- `brbit REG, n, L` -/
  | brbit (r : Reg) (n : Nat) (l : Nat)
  deriving DecidableEq, Repr

end Sys2Proof
end

