-- ==== Sys2Proof/WellFormed.lean ====
section
/-! DEFINITION. Well-formedness: of a command word's fields (R61, R62, R65), and of the parameters (R6).
Each check is a Bool; Sys2Proof/Tests/Slice0.lean refutes each on an ill-formed term. -/

namespace Sys2Proof

/-- The fields are those of a defined command: RSV = 0 and OP in 0x00 to 0x07 (R63), and ARG = 0 unless the command is
COLLECT (R62). -/
def CmdFields.wellFormed (f : CmdFields) : Bool :=
  f.rsv == 0 && decide (f.op.toNat ≤ 7) && (f.op == 0x02 || f.arg == 0)

/-- The legal parameter values of R6. -/
def Params.legal (p : Params) : Bool :=
  decide (1 ≤ p.wCnt) && decide (p.wCnt ≤ 32) &&
  decide (1 ≤ p.maxWord) && decide (p.maxWord ≤ 65535) &&
  decide (1 ≤ p.maxBits) && decide (p.maxBits ≤ 65535)

end Sys2Proof
end

