-- ==== Sys2Proof/Decode.lean ====
section
/-! DEFINITION. Decoding of command words (30_encoding.md R64, R65), total on every 32-bit word and rejecting by name,
and the encoder (R63). -/

namespace Sys2Proof

/-- OP of each command (R63). -/
def Instr.opcode : Instr → BitVec 8
  | .nop => 0x00
  | .reset => 0x01
  | .collect _ => 0x02
  | .build => 0x03
  | .derive => 0x04
  | .encode => 0x05
  | .decode => 0x06
  | .ack => 0x07

/-- ARG of each command: the byte of COLLECT, else 0 (R62). -/
def Instr.argument : Instr → BitVec 8
  | .collect b => b
  | .nop => 0
  | .reset => 0
  | .build => 0
  | .derive => 0
  | .encode => 0
  | .decode => 0
  | .ack => 0

/-- The fields of a command's word. -/
def Instr.fields (i : Instr) : CmdFields := { op := i.opcode, arg := i.argument, rsv := 0 }

/-- A command is well-formed when its word's fields are. COLLECT's operand is a byte by its type (R62), so every term of
`Instr` is well-formed. -/
def Instr.wellFormed (i : Instr) : Bool := i.fields.wellFormed

/-- Why a word is ILLEGAL (R64, R65). -/
inductive IllegalWord where
  /-- `w[31:16] ≠ 0` -/
  | reservedField
  /-- ARG ≠ 0 on a word that is not COLLECT -/
  | argumentOnPlainCommand
  /-- OP in 0x08 to 0xFF -/
  | reservedOpcode
  deriving DecidableEq, Repr

/-- The fields of a word (R61). -/
def cmdFields (w : Word) : CmdFields :=
  { op := w.extractLsb' 0 8, arg := w.extractLsb' 8 8, rsv := w.extractLsb' 16 16 }

/-- The command without operand that an opcode selects (R63). -/
def plainCommand (op : BitVec 8) : Option Instr :=
  match op.toNat with
  | 0x00 => some .nop
  | 0x01 => some .reset
  | 0x03 => some .build
  | 0x04 => some .derive
  | 0x05 => some .encode
  | 0x06 => some .decode
  | 0x07 => some .ack
  | _ => none

/-- `Decode(w)` of R64, test by test in its order. -/
def decode (w : Word) : Except IllegalWord Instr :=
  let f := cmdFields w
  if f.rsv ≠ 0 then .error .reservedField
  else if f.op = 0x02 then .ok (.collect f.arg)
  else if f.arg ≠ 0 then .error .argumentOnPlainCommand
  else match plainCommand f.op with
    | some i => .ok i
    | none => .error .reservedOpcode

/-- The word with given fields, `{RSV, ARG, OP}` (R61). -/
def wordOfFields (f : CmdFields) : Word := f.rsv ++ f.arg ++ f.op

/-- The word of a command (R63). -/
def encode (i : Instr) : Word := wordOfFields i.fields

/-- The command read from the bits of an opcode table row, bit 0 the least significant bit of the one word (R61); bits
above `nbits` are 0. A command is one 32-bit word (R66). -/
def decodeTableWord (nbits w : Nat) : Option Instr :=
  match decode (BitVec.ofNat 32 (w % 2 ^ nbits)) with
  | .ok i => some i
  | .error _ => none

end Sys2Proof
end

