-- ==== Sys2Proof/Machine/State.lean ====
section
/-! DEFINITION. The state of the block (10_state.md) as plain data, its reasons to stop, and the state after reset
(70_reset_and_hazards.md R132). INVENTORY.md lists every field with its rule. -/

namespace Sys2Proof.Machine

/-- STATUS.PHASE (R20): values 0 to 3 in this order. -/
inductive Phase where
  | empty | collect | built | ready
  deriving DecidableEq, Repr

/-- STATUS.ECODE (R117): codes 0 to 9 in this order; codes 10 to 15 are never produced, so they have no constructor
(assumption 20). -/
inductive ErrCode where
  | ok | emptyInput | unknownSymbol | invalidCode | truncatedCode | illegalCommand | sequenceError
  | countOverflow | outputOverflow | lengthRange
  deriving DecidableEq, Repr

/-- A record of the node arena (R28). `f` holds the `W_CNT`-bit count zero-extended to 32 bits (assumption 17). -/
structure Node where
  valid : Bool
  leaf  : Bool
  sym   : Byte
  left  : BitVec 9
  right : BitVec 9
  f     : Word
  deriving DecidableEq, Repr

/-- A record with VALID = 0: every field 0 (R28). -/
def Node.zero : Node := { valid := false, leaf := false, sym := 0, left := 0, right := 0, f := 0 }

/-- An internal memory as a list of (index, element) cells, indices strictly rising (Memory.wf in Machine/Ops.lean). What
an unlisted index reads as is fixed by the operation that reads it (assumptions 5 and 6). -/
abbrev Memory (α : Type) := List (Nat × α)

/-- The response to a bus transaction (R42, R47): a read's data and error flag, or a write's error flag. -/
inductive Response where
  | read (data : Word) (err : Bool)
  | write (err : Bool)
  deriving DecidableEq, Repr

/-- Reasons the machine stops with a fault. There is none: every command completes and no behaviour is `stuck`
(93_implementation_defined.md part 2, R123, R135). Errors are reported in STATUS and are next states (R119). Safe: the
type allows no stop. -/
inductive Fault where
  deriving DecidableEq, Repr

/-- Reasons an instruction has no meaning. -/
inductive Refusal where
  /-- Raised only by an arm of `exec` whose instruction has no meaning yet; no arm raises it. Safe: it stops. -/
  | notModelled (mnemonic : String)
  deriving DecidableEq, Repr

/-- Everything the spec gives the block, and the model's own bookkeeping (the last four fields). -/
structure State where
  /-- The parameters behind MAXWORD, MAXBITS and CNTW (R6, R16), constant. -/
  params  : Params
  /-- STATUS.PHASE (R20). -/
  phase   : Phase
  /-- STATUS.ERR (R21). -/
  err     : Bool
  /-- STATUS.ECODE (R21, R117). -/
  ecode   : ErrCode
  /-- STATUS.HAZ (R22). -/
  haz     : Bool
  /-- ERRINFO (R23). -/
  errinfo : Word
  /-- TOTAL, `W_CNT` bits zero-extended (R24, assumption 17). -/
  total   : Word
  /-- ROOT (R26). -/
  root    : BitVec 9
  /-- WLEN (R35). -/
  wlen    : BitVec 16
  /-- OLEN (R36). -/
  olen    : BitVec 16
  /-- ILEN (R37). -/
  ilen    : BitVec 16
  /-- DLEN (R38). -/
  dlen    : BitVec 16
  /-- MSEL (R39, R48). -/
  msel    : BitVec 4
  /-- MADDR (R39, R49). -/
  maddr   : BitVec 16
  /-- FREQ (R27). -/
  freq    : Memory Word
  /-- NODE (R28). -/
  node    : Memory Node
  /-- CLEN (R29). -/
  clen    : Memory Byte
  /-- CBITS (R30): bit `i` of the code is bit `i` of the vector. -/
  cbits   : Memory (BitVec 256)
  /-- WBUF (R31): the bytes the host has written since the last hardware reset. -/
  wbuf    : Memory Byte
  /-- OBUF (R32). -/
  obuf    : Memory Bool
  /-- IBUF (R33): the bits the host has written since the last hardware reset. -/
  ibuf    : Memory Bool
  /-- DBUF (R34). -/
  dbuf    : Memory Byte
  /-- PEND (R40, R134): the accepted command word, present exactly while STATUS.BUSY = 1 (assumption 9). -/
  pend    : Option Word
  /-- The response presented after the last event, if that was a bus transaction (R47, assumption 10). -/
  rsp     : Option Response
  /-- The events still to come in the total order of R56 (assumption 1). -/
  agenda  : List Event
  /-- The number of the next free value (assumption 4). -/
  free    : Nat
  /-- The number of the free fill under WBUF and IBUF (assumption 5). -/
  fill    : Nat
  deriving DecidableEq, Repr

/-- The state after a hardware reset of a block with parameters `p` (R132), with the model's own fields as given. -/
def State.resetOf (p : Params) (agenda : List Event) (free fill : Nat) : State :=
  { params := p
    phase := .empty, err := false, ecode := .ok, haz := false
    errinfo := 0, total := 0, root := 0
    wlen := 0, olen := 0, ilen := 0, dlen := 0, msel := 0, maddr := 0
    freq := [], node := [], clen := [], cbits := []
    wbuf := [], obuf := [], ibuf := [], dbuf := []
    pend := none, rsp := none
    agenda := agenda, free := free, fill := fill }

/-- The state right after the first hardware reset of a block with the default parameters (R6, R132). -/
def State.reset : State := State.resetOf Params.default [] 1 0

end Sys2Proof.Machine
end

