-- ==== Sys2Proof/Machine/Flags.lean ====
section
/-! DEFINITION. The STATUS word (10_state.md R18): the numbers of its fields and the word a host reads.
The two ways a command writes ERR and ECODE are `complete` and `raise` of Machine/Ops.lean. -/

namespace Sys2Proof.Machine

/-- The number of a phase (R20). -/
def Phase.code : Phase → BitVec 2
  | .empty => 0
  | .collect => 1
  | .built => 2
  | .ready => 3

/-- The number of an error code (R117). -/
def ErrCode.code : ErrCode → BitVec 4
  | .ok => 0
  | .emptyInput => 1
  | .unknownSymbol => 2
  | .invalidCode => 3
  | .truncatedCode => 4
  | .illegalCommand => 5
  | .sequenceError => 6
  | .countOverflow => 7
  | .outputOverflow => 8
  | .lengthRange => 9

/-- STATUS.BUSY (R19): a command is in flight. -/
def busy (s : State) : Bool := s.pend.isSome

/-- The STATUS word: `{0, HAZ, ECODE, ERR, PHASE, BUSY}` (R18). -/
def statusWord (s : State) : Word :=
  (0#23 ++ BitVec.ofBool s.haz ++ s.ecode.code ++ BitVec.ofBool s.err ++ s.phase.code ++ BitVec.ofBool (busy s) : BitVec 32)

end Sys2Proof.Machine
end

