-- ==== Sys2Proof/Machine/Ops.lean ====
section
/-! DEFINITION. The operations every command and bus transaction shares: cells of an internal memory, counts of `W_CNT`
bits, packing into words (20_memory.md R53, R54), ending a command (00_scope.md R9, 60_exceptions.md R119, R120),
accepting one (70_reset_and_hazards.md R134) and the hardware reset (R131, R132). -/

namespace Sys2Proof.Machine

/-! ## Internal memories -/

/-- The cell listed at index `k`. -/
def Memory.cell? {α : Type} : Memory α → Nat → Option α
  | [], _ => none
  | (a, v) :: m, k => if a = k then some v else Memory.cell? m k

/-- List `v` at index `k`, in index order, replacing a cell listed there. -/
def Memory.put {α : Type} : Memory α → Nat → α → Memory α
  | [], k, v => [(k, v)]
  | (a, w) :: m, k, v =>
    if k < a then (k, v) :: (a, w) :: m
    else if a = k then (k, v) :: m
    else (a, w) :: Memory.put m k v

/-- List no cell at index `k`. -/
def Memory.omit {α : Type} : Memory α → Nat → Memory α
  | [], _ => []
  | (a, w) :: m, k => if a = k then m else (a, w) :: Memory.omit m k

/-- Element `k` of a memory whose unlisted elements are `z` (assumption 6). -/
def Memory.read {α : Type} (z : α) (m : Memory α) (k : Nat) : α := (Memory.cell? m k).getD z

/-- `M[k] <- v` in a memory whose unlisted elements are `z`: an element equal to `z` is not listed, so that equal
memories are equal lists (assumption 6). -/
def Memory.write {α : Type} [DecidableEq α] (z : α) (m : Memory α) (k : Nat) (v : α) : Memory α :=
  if v = z then Memory.omit m k else Memory.put m k v

/-- `M[k + t] <- xs[t]` for every `t`, in order. -/
def Memory.writeList {α : Type} [DecidableEq α] (z : α) (m : Memory α) (k : Nat) : List α → Memory α
  | [] => m
  | x :: xs => Memory.writeList z (Memory.write z m k x) (k + 1) xs

/-- `M[k + t] <- xs[t]` for every `t` with `k + t < cap`, in order, in a host-written memory (WBUF, IBUF), which lists
every element the host has written (assumption 5). -/
def Memory.putList {α : Type} (cap : Nat) (m : Memory α) (k : Nat) : List α → Memory α
  | [] => m
  | x :: xs => Memory.putList cap (if k < cap then Memory.put m k x else m) (k + 1) xs

/-- Indices strictly rising: one cell an index. -/
abbrev Memory.rising {α : Type} (m : Memory α) : Prop := m.Pairwise (fun a b => a.1 < b.1)

/-- Every listed index is below `n`. -/
abbrev Memory.within {α : Type} (n : Nat) (m : Memory α) : Prop := ∀ c ∈ m, c.1 < n

/-- The canonical form of a memory whose unlisted elements are `z`: indices strictly rising, and no cell equal to `z`. -/
abbrev Memory.wf {α : Type} (z : α) (m : Memory α) : Prop := Memory.rising m ∧ ∀ c ∈ m, c.2 ≠ z

/-! ## Counts -/

/-- `2^W_CNT − 1`, the largest count (R70). -/
def countMax (p : Params) : Nat := 2 ^ p.wCnt - 1

/-- A `W_CNT`-bit count, zero-extended to 32 bits (R24, R71, R82; assumption 17). -/
def count (p : Params) (n : Nat) : Word := BitVec.ofNat 32 (n % 2 ^ p.wCnt)

/-! ## Packing -/

/-- The number whose bit `t` is `f t`, for `t < n`. -/
def bitsToNat (f : Nat → Bool) : Nat → Nat
  | 0 => 0
  | n + 1 => bitsToNat f n + (f n).toNat * 2 ^ n

/-- Word `k` of a packed bit sequence: word bit `t` is element `32k + t` (R54). -/
def packBits (f : Nat → Bool) (k : Nat) : Word := BitVec.ofNat 32 (bitsToNat (fun t => f (32 * k + t)) 32)

/-- Word `k` of a packed byte sequence: byte `4k + t` at bits `[8t+7:8t]` (R53). -/
def packBytes (f : Nat → Byte) (k : Nat) : Word :=
  (f (4 * k + 3) ++ f (4 * k + 2) ++ f (4 * k + 1) ++ f (4 * k) : BitVec 32)

/-- Byte `t` of a word, `v[8t+7:8t]`. -/
def byteOfWord (v : Word) (t : Nat) : Byte := v.extractLsb' (8 * t) 8

/-- The four bytes of a word, byte 0 first (R51, R53). -/
def bytesOfWord (v : Word) : List Byte := (List.range 4).map (byteOfWord v)

/-- The 32 bits of a word, bit 0 first (R51, R54). -/
def bitsOfWord (v : Word) : List Bool := (List.range 32).map v.getLsbD

/-- `v[i + t] <- bs[t]` for every `t`, in order: the bits of a code (R87). -/
def writeBits (v : BitVec 256) (i : Nat) : List Bool → BitVec 256
  | [] => v
  | b :: bs => writeBits (if b then v ||| (1#256 <<< i) else v &&& ~~~ (1#256 <<< i)) (i + 1) bs

/-! ## Ending a command -/

/-- A command ends with success: STATUS.ERR, STATUS.ECODE and ERRINFO become 0 (R9), and the same event clears
STATUS.BUSY (R135). -/
def complete (s : State) : State :=
  { s with err := false, ecode := .ok, errinfo := 0, pend := none }

/-- A command ends with error `e` and detail `info` (R9, R119), and the same event clears STATUS.BUSY. It writes nothing
else: whatever the command's rule wrote before the `raise` stands in `s`. There is no saved pc, no mode and no vector,
and no return from an error (R119, R123). -/
def raise (e : ErrCode) (info : Word) (s : State) : State :=
  { s with err := true, ecode := e, errinfo := info, pend := none }

/-- An ill-formed word `w` completes with ILLEGAL_COMMAND and no other effect (R64, R120). -/
def completeIllegal (w : Word) (s : State) : State := raise .illegalCommand w s

/-! ## Accepting a command -/

/-- The ACK word and the RESET word clear HAZ when they are accepted (R113, R114, R134). -/
def clearsHazard (w : Word) : Bool := w == 0x00000007 || w == 0x00000001

/-- A write of `w` to CMD while BUSY = 0 (R134): PEND holds `w`, which sets BUSY, and HAZ is cleared for ACK and RESET. -/
def accept (w : Word) (s : State) : State :=
  { s with pend := some w, haz := if clearsHazard w then false else s.haz }

/-! ## Reset and the order of events -/

/-- A hardware reset (R131, R132): every field takes its reset value, the command in flight is abandoned, the parameters
stay (R16), and WBUF and IBUF take a new free fill (assumption 5). The events still to come are the environment's. -/
def hardReset (s : State) : State := State.resetOf s.params s.agenda (s.free + 1) s.free

/-- The event that comes next: the head of the agenda, or the engine's turn when nothing else is to come
(assumption 1). -/
def nextEvent (s : State) : Event := s.agenda.headD .engine

/-- The state in which the next event is performed: it has left the agenda, and the response to the event before is no
longer presented (R47: `rsp_valid` is 1 in one cycle). -/
def advance (s : State) : State := { s with agenda := s.agenda.tail, rsp := none }

/-- Present the response to a transaction (R42). -/
def respond (r : Response) (s : State) : State := { s with rsp := some r }

end Sys2Proof.Machine
end

