-- ==== Sys2Proof/Machine/Operands.lean ====
section
/-! DEFINITION. The operands of the commands (30_encoding.md R62): elements of the internal memories (10_state.md R27 to
R34), the word to encode, the bits to decode, the symbols and the codes. -/

namespace Sys2Proof.Machine

/-- `FREQ[b]` (R27). -/
def freqAt (s : State) (b : Byte) : Word := Memory.read 0 s.freq b.toNat

/-- Record `k` of an arena (R28). -/
def recordAt (nodes : Memory Node) (k : Nat) : Node := Memory.read Node.zero nodes k

/-- `NODE[k]` (R28). Index 511, which a 9-bit field can hold and no rule reaches, reads as a record with VALID = 0
(assumption 7). -/
def nodeAt (s : State) (k : Nat) : Node := recordAt s.node k

/-- `CLEN[b]` (R29). -/
def clenAt (s : State) (b : Byte) : Byte := Memory.read 0 s.clen b.toNat

/-- `CBITS[b]` (R30). -/
def cbitsAt (s : State) (b : Byte) : BitVec 256 := Memory.read 0 s.cbits b.toNat

/-- `WBUF[j]` (R31): what the host wrote there, else the free fill of the last hardware reset (R132). -/
def wbufAt (s : State) (j : Nat) : Byte := (Memory.cell? s.wbuf j).getD (Config.wbufPowerUp s.fill j)

/-- `OBUF[i]` (R32). -/
def obufAt (s : State) (i : Nat) : Bool := Memory.read false s.obuf i

/-- `IBUF[i]` (R33): what the host wrote there, else the free fill of the last hardware reset (R132). -/
def ibufAt (s : State) (i : Nat) : Bool := (Memory.cell? s.ibuf i).getD (Config.ibufPowerUp s.fill i)

/-- `DBUF[j]` (R34). -/
def dbufAt (s : State) (j : Nat) : Byte := Memory.read 0 s.dbuf j

/-- All byte values, ascending (R7). -/
def alphabet : List Byte := (List.range 256).map (BitVec.ofNat 8)

/-- The symbols: the byte values with a non-zero count, ascending (R11, and `S` of R75). -/
def symbols (s : State) : List Byte := alphabet.filter (fun b => freqAt s b != 0)

/-- NSYM, the number of symbols (R25). -/
def nsym (s : State) : Nat := (symbols s).length

/-- The word to encode, `WBUF[0 .. WLEN−1]` (R94). -/
def wordBytes (s : State) : List Byte := (List.range s.wlen.toNat).map (wbufAt s)

/-- The bits to decode, `IBUF[0 .. ILEN−1]` (R102). -/
def inputBits (s : State) : List Bool := (List.range s.ilen.toNat).map (ibufAt s)

/-- The code of `b`: `CBITS[b][0 .. CLEN[b]−1]`, bit 0 first (R30, R98). -/
def codeOf (s : State) (b : Byte) : List Bool := (List.range (clenAt s b).toNat).map (cbitsAt s b).getLsbD

end Sys2Proof.Machine
end

