-- ==== Sys2Proof/Machine/Window.lean ====
section
/-! DEFINITION. The memory window (20_memory.md R48 to R54): MSEL, MADDR and MDATA. -/

namespace Sys2Proof.Machine

/-- `NodeWord0(r)`: `{VALID, LEAF, 0b0000, RIGHT, LEFT, SYM}` (R52). -/
def nodeWord0 (r : Node) : Word :=
  (BitVec.ofBool r.valid ++ BitVec.ofBool r.leaf ++ 0#4 ++ r.right ++ r.left ++ r.sym : BitVec 32)

/-- Elements beyond a memory's capacity read 0 (R52). -/
def byteBelow (cap : Nat) (f : Nat → Byte) (j : Nat) : Byte := if j < cap then f j else 0

/-- Bits beyond a memory's capacity read 0 (R52). -/
def bitBelow (cap : Nat) (f : Nat → Bool) (i : Nat) : Bool := decide (i < cap) && f i

/-- The number of window words of memory `sel` (R52). -/
def windowWords (p : Params) (sel : BitVec 4) : Nat :=
  match sel.toNat with
  | 0 => 256
  | 1 => 1022
  | 2 => 256
  | 3 => 2048
  | 4 => (p.maxWord + 3) / 4
  | 5 => (p.maxBits + 31) / 32
  | 6 => (p.maxBits + 31) / 32
  | 7 => (p.maxBits + 3) / 4
  | _ => 0

/-- Word `k` of memory `sel`, for `k` below its word count (R52). -/
def windowElement (s : State) (sel : BitVec 4) (k : Nat) : Word :=
  match sel.toNat with
  | 0 => freqAt s (BitVec.ofNat 8 k)
  | 1 => if k % 2 = 0 then nodeWord0 (nodeAt s (k / 2)) else (nodeAt s ((k - 1) / 2)).f
  | 2 => (clenAt s (BitVec.ofNat 8 k)).setWidth 32
  | 3 => (cbitsAt s (BitVec.ofNat 8 (k / 8))).extractLsb' (32 * (k % 8)) 32
  | 4 => packBytes (byteBelow s.params.maxWord (wbufAt s)) k
  | 5 => packBits (bitBelow s.params.maxBits (obufAt s)) k
  | 6 => packBits (bitBelow s.params.maxBits (ibufAt s)) k
  | 7 => packBytes (byteBelow s.params.maxBits (dbufAt s)) k
  | _ => 0

/-- `WindowWord(sel, k)` (R52): 0 at or beyond the word count and in a reserved memory. -/
def windowWord (s : State) (sel : BitVec 4) (k : Nat) : Word :=
  if k < windowWords s.params sel then windowElement s sel k else 0

/-- MADDR moves by 1 modulo 2^16 (R49). -/
def stepMaddr (s : State) : State := { s with maddr := s.maddr + 1 }

/-- The store of an MDATA write of `v` (R51): four bytes of WBUF or 32 bits of IBUF, those below the capacity; with any
other selection the data are discarded. -/
def storeWindow (v : Word) (s : State) : State :=
  match s.msel.toNat with
  | 4 => { s with wbuf := Memory.putList s.params.maxWord s.wbuf (4 * s.maddr.toNat) (bytesOfWord v) }
  | 6 => { s with ibuf := Memory.putList s.params.maxBits s.ibuf (32 * s.maddr.toNat) (bitsOfWord v) }
  | _ => s

end Sys2Proof.Machine
end

