-- ==== Sys2Proof/Machine/Bus.lean ====
section
/-! DEFINITION. The host bus (20_memory.md R42 to R46, R50, R51; 70_reset_and_hazards.md R134, R136, R137): one read or
one write as an atomic event, with its response. -/

namespace Sys2Proof.Machine

/-- An offset is aligned when `addr[1:0] = 0` (R44). -/
def aligned (addr : BitVec 8) : Bool := addr.extractLsb' 0 2 == 0

/-- The offset of a register (R14). -/
def offsetOf : Reg → BitVec 8
  | .id => 0x00
  | .maxword => 0x04
  | .maxbits => 0x08
  | .cntw => 0x0C
  | .cmd => 0x10
  | .status => 0x14
  | .errinfo => 0x18
  | .total => 0x1C
  | .nsym => 0x20
  | .root => 0x24
  | .wlen => 0x28
  | .olen => 0x2C
  | .ilen => 0x30
  | .dlen => 0x34
  | .msel => 0x38
  | .maddr => 0x3C
  | .mdata => 0x40

/-- The register at an aligned offset; none at a reserved offset, 0x44 to 0xFC (R14, R45). -/
def regAt (addr : BitVec 8) : Option Reg :=
  match addr.toNat with
  | 0x00 => some .id
  | 0x04 => some .maxword
  | 0x08 => some .maxbits
  | 0x0C => some .cntw
  | 0x10 => some .cmd
  | 0x14 => some .status
  | 0x18 => some .errinfo
  | 0x1C => some .total
  | 0x20 => some .nsym
  | 0x24 => some .root
  | 0x28 => some .wlen
  | 0x2C => some .olen
  | 0x30 => some .ilen
  | 0x34 => some .dlen
  | 0x38 => some .msel
  | 0x3C => some .maddr
  | 0x40 => some .mdata
  | _ => none

/-- The value a register reads (R14, R16 to R18, R23 to R26, R35 to R39); MDATA reads the selected word (R50). Bits a
register does not name read 0. -/
def regValue (s : State) : Reg → Word
  | .id => Config.idValue
  | .maxword => (BitVec.ofNat 16 s.params.maxWord).setWidth 32
  | .maxbits => (BitVec.ofNat 16 s.params.maxBits).setWidth 32
  | .cntw => (BitVec.ofNat 6 s.params.wCnt).setWidth 32
  | .cmd => 0
  | .status => statusWord s
  | .errinfo => s.errinfo
  | .total => s.total
  | .nsym => BitVec.ofNat 32 (nsym s)
  | .root => s.root.setWidth 32
  | .wlen => s.wlen.setWidth 32
  | .olen => s.olen.setWidth 32
  | .ilen => s.ilen.setWidth 32
  | .dlen => s.dlen.setWidth 32
  | .msel => s.msel.setWidth 32
  | .maddr => s.maddr.setWidth 32
  | .mdata => windowWord s s.msel s.maddr.toNat

/-- The registers that read their value while STATUS.BUSY = 1 (R137). -/
def readableWhileBusy : Reg → Bool
  | .id => true
  | .maxword => true
  | .maxbits => true
  | .cntw => true
  | .cmd => true
  | .status => true
  | .errinfo => false
  | .total => false
  | .nsym => false
  | .root => false
  | .wlen => false
  | .olen => false
  | .ilen => false
  | .dlen => false
  | .msel => false
  | .maddr => false
  | .mdata => false

/-- What a read does to the state apart from its response, while BUSY = 0: MDATA moves MADDR (R49, R50), every other
read nothing (R55). -/
def readEffect (s : State) : Reg → State
  | .mdata => stepMaddr s
  | .id | .maxword | .maxbits | .cntw | .cmd | .status | .errinfo | .total | .nsym | .root => s
  | .wlen | .olen | .ilen | .dlen | .msel | .maddr => s

/-- A read of a result register while BUSY = 1: a fresh free value, no effect (R137). -/
def busyResultRead (s : State) : State :=
  respond (.read (Config.busyRead s.free) false) { s with free := s.free + 1 }

/-- `MemRead(addr, 4)` as one event (R42). -/
def busRead (addr : BitVec 8) (s : State) : State :=
  if aligned addr = false then respond (.read 0 true) s
  else match regAt addr with
    | none => respond (.read 0 false) s
    | some r =>
      if busy s && !readableWhileBusy r then busyResultRead s
      else respond (.read (regValue s r) false) (readEffect s r)

/-- A write of `v` to a register while BUSY = 0: CMD submits a command (R17, R134), WLEN, ILEN, MSEL and MADDR store
their bits (R35, R37, R48, R49), MDATA stores through the window and moves MADDR (R49, R51), a read-only register ignores
it (R46). -/
def writeEffect (v : Word) (s : State) : Reg → State
  | .cmd => accept v s
  | .wlen => { s with wlen := v.setWidth 16 }
  | .ilen => { s with ilen := v.setWidth 16 }
  | .msel => { s with msel := v.setWidth 4 }
  | .maddr => { s with maddr := v.setWidth 16 }
  | .mdata => stepMaddr (storeWindow v s)
  | .id | .maxword | .maxbits | .cntw | .status | .errinfo | .total | .nsym | .root | .olen | .dlen => s

/-- `MemWrite(addr, 4, v)` as one event (R42): misaligned, refused (R44); while BUSY, dropped with HAZ set (R136); at a
reserved offset, ignored (R45). -/
def busWrite (addr : BitVec 8) (v : Word) (s : State) : State :=
  if aligned addr = false then respond (.write true) s
  else if busy s then respond (.write false) { s with haz := true }
  else match regAt addr with
    | none => respond (.write false) s
    | some r => respond (.write false) (writeEffect v s r)

end Sys2Proof.Machine
end

