-- ==== Sys2Proof/Machine/CodeBook.lean ====
section
/-! DEFINITION. Code book derivation (42_codebook.md). -/

namespace Sys2Proof.Machine

/-- The parent of node `k` in an arena, and the bit of the step from it to `k`: 0 for LEFT, 1 for RIGHT (R88). Cells are
searched in index order; R83 gives every node but the root exactly one parent (assumption 8). -/
def parentOf (k : Nat) : Memory Node → Option (Nat × Bool)
  | [] => none
  | (m, r) :: rest =>
    if r.valid && !r.leaf && r.left.toNat == k then some (m, false)
    else if r.valid && !r.leaf && r.right.toNat == k then some (m, true)
    else parentOf k rest

/-- `Path(k)` (R88): `Path(ROOT) = []`, and a child's path is its parent's with the bit of the step appended. `fuel`
bounds the climb: a path has at most 255 steps in a tree (R89), so 511 is enough (assumption 8). -/
def pathOf (nodes : Memory Node) (root : Nat) : (fuel : Nat) → (k : Nat) → List Bool
  | 0, _ => []
  | fuel + 1, k =>
    if k = root then []
    else match parentOf k nodes with
      | none => []
      | some (m, b) => pathOf nodes root fuel m ++ [b]

/-- `Path(k)` in the block's arena. -/
def path (s : State) (k : Nat) : List Bool := pathOf s.node s.root.toNat Config.nNode k

/-- `CLEN[b] <- |p|` and `CBITS[b][i] <- p[i]` (R87). -/
def recordCode (b : Byte) (p : List Bool) (s : State) : State :=
  { s with
    clen := Memory.write 0 s.clen b.toNat (BitVec.ofNat 8 p.length)
    cbits := Memory.write 0 s.cbits b.toNat (writeBits (cbitsAt s b) 0 p) }

/-- The codes of the leaves among `cells`, one after the other (R87; the order is not architectural, R90). -/
def recordLeaves (s : State) : Memory Node → State
  | [] => s
  | (k, r) :: cells => recordLeaves (if r.valid && r.leaf then recordCode r.sym (path s k) s else s) cells

/-- DERIVE (R87). A root that is a leaf gets the code "0" (R89). -/
def execDerive (s : State) : Host.Outcome State Fault Refusal :=
  if s.phase ≠ .built then .next (raise .sequenceError (encode .derive) s)
  else if (nodeAt s s.root.toNat).leaf then
    .next (complete { recordCode (nodeAt s s.root.toNat).sym [false] s with phase := .ready })
  else .next (complete { recordLeaves s s.node with phase := .ready })

end Sys2Proof.Machine
end

