-- ==== Sys2Proof/Machine/Collect.lean ====
section
/-! DEFINITION. Frequency collection (40_collect.md). -/

namespace Sys2Proof.Machine

/-- COLLECT `b` (R70). -/
def execCollect (b : Byte) (s : State) : Host.Outcome State Fault Refusal :=
  if s.phase = .built ∨ s.phase = .ready then .next (raise .sequenceError (encode (.collect b)) s)
  else if s.total.toNat = countMax s.params then .next (raise .countOverflow (encode (.collect b)) s)
  else .next (complete { s with
    freq := Memory.write 0 s.freq b.toNat (count s.params ((freqAt s b).toNat + 1))
    total := count s.params (s.total.toNat + 1)
    phase := .collect })

end Sys2Proof.Machine
end

