-- ==== Sys2Proof/Machine/Control.lean ====
section
/-! DEFINITION. The control commands (45_control.md): what each does when it completes. What ACK and RESET do when they
are accepted, clearing HAZ, is `accept` of Machine/Ops.lean (R134). -/

namespace Sys2Proof.Machine

/-- NOP (R112). -/
def execNop (s : State) : Host.Outcome State Fault Refusal := .next (complete s)

/-- ACK at its completion (R113): HAZ, cleared at acceptance, is not written again. -/
def execAck (s : State) : Host.Outcome State Fault Refusal := .next (complete s)

/-- The end of a session (R114, R115): everything but WBUF and IBUF returns to its reset value. HAZ, cleared at
acceptance, is not written again. -/
def endSession (s : State) : State :=
  { s with
    freq := [], clen := [], cbits := [], node := [], obuf := [], dbuf := []
    total := 0, root := 0
    wlen := 0, olen := 0, ilen := 0, dlen := 0
    msel := 0, maddr := 0
    phase := .empty }

/-- RESET at its completion (R114). -/
def execReset (s : State) : Host.Outcome State Fault Refusal := .next (complete (endSession s))

end Sys2Proof.Machine
end

