-- ==== Sys2Proof/Machine/Decoder.lean ====
section
/-! DEFINITION. The bit-serial decoder (44_decoder.md). -/

namespace Sys2Proof.Machine

/-- `DLEN <- 0` and every DBUF byte `<- 0`, first in every DECODE (R102, R107). -/
def clearDecoded (s : State) : State := { s with dlen := 0, dbuf := [] }

/-- The decoder's locals (R103): the cursor, the bytes decoded, and the first bit of the current code. -/
structure Cursor where
  cur   : BitVec 9
  out   : List Byte
  start : Nat
  deriving DecidableEq, Repr

/-- One bit of the walk (R102): the bit numbered `i` moves the cursor, or has no path (`none`) at a leaf root (R105). -/
def walkBit (s : State) (i : Nat) (bit : Bool) (c : Cursor) : Option Cursor :=
  if (nodeAt s c.cur.toNat).leaf then
    if bit then none
    else some { cur := c.cur, out := c.out ++ [(nodeAt s c.cur.toNat).sym], start := i + 1 }
  else
    let cur := if bit then (nodeAt s c.cur.toNat).right else (nodeAt s c.cur.toNat).left
    if (nodeAt s cur.toNat).leaf then
      some { cur := s.root, out := c.out ++ [(nodeAt s cur.toNat).sym], start := i + 1 }
    else some { c with cur := cur }

/-- The walk over the bits numbered from `i` (R102): the cursor at the end, or the index of the first bit that has no
path. -/
def walk (s : State) (i : Nat) (c : Cursor) : List Bool → Except Nat Cursor
  | [] => .ok c
  | bit :: bits =>
    match walkBit s i bit c with
    | none => .error i
    | some c' => walk s (i + 1) c' bits

/-- The cursor at the start of every DECODE (R103). -/
def walkStart (s : State) : Cursor := { cur := s.root, out := [], start := 0 }

/-- DECODE (R102). -/
def execDecode (s : State) : Host.Outcome State Fault Refusal :=
  let s := clearDecoded s
  if s.phase ≠ .built ∧ s.phase ≠ .ready then .next (raise .sequenceError (encode .decode) s)
  else if s.params.maxBits < s.ilen.toNat then .next (raise .lengthRange (s.ilen.setWidth 32) s)
  else match walk s 0 (walkStart s) (inputBits s) with
    | .error i => .next (raise .invalidCode (BitVec.ofNat 32 i) s)
    | .ok c =>
      if c.cur ≠ s.root then .next (raise .truncatedCode (BitVec.ofNat 32 c.start) s)
      else .next (complete { s with
        dbuf := Memory.writeList 0 s.dbuf 0 c.out
        dlen := BitVec.ofNat 16 c.out.length })

end Sys2Proof.Machine
end

