-- ==== Sys2Proof/Machine/Encoder.lean ====
section
/-! DEFINITION. The bit-serial encoder (43_encoder.md). -/

namespace Sys2Proof.Machine

/-- `OLEN <- 0` and every OBUF bit `<- 0`, first in every ENCODE (R94, R95). -/
def clearEncoded (s : State) : State := { s with olen := 0, obuf := [] }

/-- The lookup pass (R94, R96): the first byte with no code, and its index, counted from `j`. -/
def firstUnknown (s : State) (j : Nat) : List Byte → Option (Nat × Byte)
  | [] => none
  | b :: bs => if clenAt s b = 0 then some (j, b) else firstUnknown s (j + 1) bs

/-- ERRINFO of UNKNOWN_SYMBOL: `{j[15:0], 8'h00, b}` (R94, R96). -/
def unknownInfo (j : Nat) (b : Byte) : Word := (BitVec.ofNat 16 j ++ 0#8 ++ b : BitVec 32)

/-- The number of bits of the encoding, `Σ CLEN[b]` over the word (R94). -/
def encodedLength (s : State) (bs : List Byte) : Nat := (bs.map (fun b => (clenAt s b).toNat)).sum

/-- The packing pass (R94, R98): the codes of the bytes, one after the other. -/
def encodedBits (s : State) (bs : List Byte) : List Bool := bs.flatMap (codeOf s)

/-- ENCODE (R94). -/
def execEncode (s : State) : Host.Outcome State Fault Refusal :=
  let s := clearEncoded s
  if s.phase ≠ .ready then .next (raise .sequenceError (encode .encode) s)
  else if s.params.maxWord < s.wlen.toNat then .next (raise .lengthRange (s.wlen.setWidth 32) s)
  else match firstUnknown s 0 (wordBytes s) with
    | some (j, b) => .next (raise .unknownSymbol (unknownInfo j b) s)
    | none =>
      if s.params.maxBits < encodedLength s (wordBytes s) then
        .next (raise .outputOverflow (BitVec.ofNat 32 (encodedLength s (wordBytes s))) s)
      else .next (complete { s with
        obuf := Memory.writeList false s.obuf 0 (encodedBits s (wordBytes s))
        olen := BitVec.ofNat 16 (encodedLength s (wordBytes s)) })

end Sys2Proof.Machine
end

