-- ==== Sys2Proof/Machine/TreeBuilder.lean ====
section
/-! DEFINITION. Tree construction (41_tree_builder.md). -/

namespace Sys2Proof.Machine

/-- The record of a leaf (R28, R77). -/
def Node.mkLeaf (b : Byte) (f : Word) : Node := { valid := true, leaf := true, sym := b, left := 0, right := 0, f := f }

/-- The record of an internal node (R28, R78, R79). -/
def Node.mkInternal (left right : Nat) (f : Word) : Node :=
  { valid := true, leaf := false, sym := 0, left := BitVec.ofNat 9 left, right := BitVec.ofNat 9 right, f := f }

/-- The leaves `NODE[k], NODE[k+1], …` of the symbols `bs`, in order (R77). -/
def placeLeaves (freq : Byte → Word) (nodes : Memory Node) (k : Nat) : List Byte → Memory Node
  | [] => nodes
  | b :: bs => placeLeaves freq (Memory.write Node.zero nodes k (Node.mkLeaf b (freq b))) (k + 1) bs

/-- Queue order (R76): lower frequency first and, among equal frequencies, lower index. -/
def queueLess (f : Nat → Word) (a b : Nat) : Bool := decide (f a < f b ∨ (f a = f b ∧ a < b))

/-- The index of least `(f, index)` among `x` and the indices of the list. -/
def leastIndex (f : Nat → Word) (x : Nat) : List Nat → Nat
  | [] => x
  | y :: ys => leastIndex f (if queueLess f y x then y else x) ys

/-- `PopMin(Q)` (R76): the index of least `(F, index)`, and `Q` without it. -/
def popMin (f : Nat → Word) : List Nat → Option (Nat × List Nat)
  | [] => none
  | x :: xs => some (leastIndex f x xs, (x :: xs).erase (leastIndex f x xs))

/-- One merge (R78, R79): node `m` joins the two least nodes of `Q`, the one removed first as LEFT and the other as RIGHT,
and enters `Q`. A queue of fewer than two nodes has no merge; R78 rules it out. -/
def mergeOne (p : Params) (m : Nat) (nodes : Memory Node) (q : List Nat) : Option (Memory Node × List Nat) :=
  match popMin (fun k => (recordAt nodes k).f) q with
  | none => none
  | some (a, q1) =>
    match popMin (fun k => (recordAt nodes k).f) q1 with
    | none => none
    | some (c, q2) =>
      some (Memory.write Node.zero nodes m
              (Node.mkInternal a c (count p ((recordAt nodes a).f.toNat + (recordAt nodes c).f.toNat))),
            q2 ++ [m])

/-- `steps` merges, numbered `m, m+1, …` (R78). -/
def mergeLoop (p : Params) : (steps : Nat) → (m : Nat) → Memory Node → List Nat → Memory Node
  | 0, _, nodes, _ => nodes
  | steps + 1, m, nodes, q =>
    match mergeOne p m nodes q with
    | none => nodes
    | some (nodes', q') => mergeLoop p steps (m + 1) nodes' q'

/-- The arena BUILD writes: the `n` leaves, then the `n − 1` merges numbered from `n` (R75). -/
def buildArena (s : State) : Memory Node :=
  mergeLoop s.params (nsym s - 1) (nsym s) (placeLeaves (freqAt s) s.node 0 (symbols s)) (List.range (nsym s))

/-- The root BUILD writes (R80, R81). -/
def buildRoot (s : State) : BitVec 9 := if nsym s = 1 then 0 else BitVec.ofNat 9 (2 * nsym s - 2)

/-- BUILD (R75). -/
def execBuild (s : State) : Host.Outcome State Fault Refusal :=
  if s.phase = .empty then .next (raise .emptyInput 0 s)
  else if s.phase = .built ∨ s.phase = .ready then .next (raise .sequenceError (encode .build) s)
  else .next (complete { s with node := buildArena s, root := buildRoot s, phase := .built })

end Sys2Proof.Machine
end

