-- ==== Sys2Proof/Machine/Dispatch.lean ====
section
/-! DEFINITION. One arm per command: the effect of its completion (70_reset_and_hazards.md R135). -/

namespace Sys2Proof.Machine

/-- The completion of command `i`, performed on the state as it stands (R135). -/
def exec (i : Instr) (s : State) : Host.Outcome State Fault Refusal :=
  match i with
  | .nop => Sys2Proof.Machine.execNop s
  | .reset => Sys2Proof.Machine.execReset s
  | .collect b => Sys2Proof.Machine.execCollect b s
  | .build => Sys2Proof.Machine.execBuild s
  | .derive => Sys2Proof.Machine.execDerive s
  | .encode => Sys2Proof.Machine.execEncode s
  | .decode => Sys2Proof.Machine.execDecode s
  | .ack => Sys2Proof.Machine.execAck s

end Sys2Proof.Machine
end

