-- ==== Sys2Proof/Machine/Engine.lean ====
section
/-! DEFINITION. The engine (70_reset_and_hazards.md R135): what its turn does. -/

namespace Sys2Proof.Machine

/-- The engine's turn (R135): it decodes PEND and completes the command; an ill-formed word completes with
ILLEGAL_COMMAND (R64, R120); with no command in flight it keeps all state (R130). -/
def engineTurn (s : State) : Host.Outcome State Fault Refusal :=
  match s.pend with
  | none => .next s
  | some w =>
    match decode w with
    | .ok i => exec i s
    | .error _ => .next (completeIllegal w s)

end Sys2Proof.Machine
end

