-- ==== Sys2Proof/Machine/Step.lean ====
section
/-! DEFINITION. One event of the block (20_memory.md R56): the engine's turn, a bus transaction or a hardware reset. -/

namespace Sys2Proof.Machine

/-- One event. -/
def step (s : State) : Host.Outcome State Fault Refusal :=
  match nextEvent s with
  | .engine => engineTurn (advance s)
  | .read addr => .next (busRead addr (advance s))
  | .write addr v => .next (busWrite addr v (advance s))
  | .hardReset => .next (hardReset (advance s))

/-- The state in which the command word with the bits of `w` has just been accepted and the next event is the engine's
turn (assumption 13). -/
def State.withFetchWord (s : State) (nbits w : Nat) : State :=
  { accept (BitVec.ofNat 32 (w % 2 ^ nbits)) s with
    agenda := if nextEvent s = .engine then s.agenda else .engine :: s.agenda }

end Sys2Proof.Machine
end

