-- ==== Sys2Proof/Machine/HostProgram.lean ====
section
/-! DEFINITION. Host programs (30_encoding.md R68, R69) beside the block: the transaction of each statement, the
pseudo-instructions, and one move of a host that runs a program. The block sees only the transactions. -/

namespace Sys2Proof.Machine

/-- The bus transaction a statement assembles to (R68); a label is none. -/
def transactionOf : Stmt → Option Event
  | .command i => some (.write (offsetOf .cmd) (encode i))
  | .wr r v => some (.write (offsetOf r) v)
  | .rd r => some (.read (offsetOf r))
  | .label _ => none
  | .brbit r _ _ => some (.read (offsetOf r))

/-- `wait` with the fresh label `l`: read STATUS until BUSY = 0 (R69). -/
def waitStmts (l : Nat) : List Stmt := [.label l, .brbit .status 0 l]

/-- `collect "s"` with the fresh labels `l, l+1, …` (R69). -/
def collectStmts (l : Nat) : List Byte → List Stmt
  | [] => []
  | b :: bs => .command (.collect b) :: waitStmts l ++ collectStmts (l + 1) bs

/-- `select m, a` (R69). -/
def selectStmts (m a : Word) : List Stmt := [.wr .msel m, .wr .maddr a]

/-- `loadword "s"` (R69). -/
def loadwordStmts (bs : List Byte) : List Stmt :=
  selectStmts 4 0
    ++ (List.range ((bs.length + 3) / 4)).map (fun k => .wr .mdata (packBytes (fun j => bs.getD j 0) k))
    ++ [.wr .wlen (BitVec.ofNat 32 bs.length)]

/-- `loadbits "d"` (R69): `d` as bits, first bit first; the characters are the host's. -/
def loadbitsStmts (ds : List Bool) : List Stmt :=
  selectStmts 6 0
    ++ (List.range ((ds.length + 31) / 32)).map (fun k => .wr .mdata (packBits (fun i => ds.getD i false) k))
    ++ [.wr .ilen (BitVec.ofNat 32 ds.length)]

/-- A host running a program against the block: the next statement is `program[position]`. -/
structure Session where
  program  : List Stmt
  position : Nat
  block    : State
  deriving DecidableEq, Repr

/-- Perform one transaction, as one event (R42); the engine's turn and a reset are no transactions of a host. -/
def transact (e : Event) (s : State) : State :=
  match e with
  | .read addr => busRead addr { s with rsp := none }
  | .write addr v => busWrite addr v { s with rsp := none }
  | .engine => s
  | .hardReset => s

/-- The transactions of straight-line statements, performed in order. -/
def performAll (s : State) : List Stmt → State
  | [] => s
  | st :: rest =>
    match transactionOf st with
    | none => performAll s rest
    | some e => performAll (transact e s) rest

/-- Bit `n` of the value just read is 1. -/
def readBit (n : Nat) (s : State) : Bool :=
  match s.rsp with
  | some (.read d _) => d.getLsbD n
  | some (.write _) => false
  | none => false

/-- Where the host continues after a statement (R68): at the label of a taken `brbit`, else at the next statement. DESIGN
CHOICE (assumption 18), for programs R68 does not speak of: a label defined more than once stands for its first definition,
and a label defined nowhere for the program's end. -/
def positionAfter (x : Session) (st : Stmt) (block : State) : Nat :=
  match st with
  | .brbit _ n l => if readBit n block then x.program.findIdx (· == .label l) else x.position + 1
  | .command _ => x.position + 1
  | .wr _ _ => x.position + 1
  | .rd _ => x.position + 1
  | .label _ => x.position + 1

/-- One move of the host: its next statement; past the end it does nothing. -/
def hostMove (x : Session) : Session :=
  match x.program[x.position]? with
  | none => x
  | some st =>
    match transactionOf st with
    | none => { x with position := x.position + 1 }
    | some e => { x with block := transact e x.block, position := positionAfter x st (transact e x.block) }

/-- The offset of a platform address when the register space stands at `base`, the open parameter `HTB_BASE` (R60). -/
def platformOffset (base addr : Nat) : Option (BitVec 8) :=
  if base ≤ addr ∧ addr < base + 256 then some (BitVec.ofNat 8 (addr - base)) else none

end Sys2Proof.Machine
end

