-- ==== Sys2Proof/Machine/TwoQueue.lean ====
section
/-! DEFINITION. A conforming implementation of the queue (41_tree_builder.md R85): a pair of first-in-first-out queues.
It is no part of the step; a statement compares the arena it builds with BUILD's. -/

namespace Sys2Proof.Machine

/-- The leaves sorted by `(F, index)`, and the internal nodes in creation order (R85). -/
structure TwoQueue where
  leaves : List Nat
  inner  : List Nat
  deriving DecidableEq, Repr

/-- The smaller of the two heads by `(F, index)`, and the queues without it (R85). -/
def TwoQueue.pop (f : Nat → Word) (q : TwoQueue) : Option (Nat × TwoQueue) :=
  match q.leaves, q.inner with
  | [], [] => none
  | a :: as, [] => some (a, { leaves := as, inner := [] })
  | [], b :: bs => some (b, { leaves := [], inner := bs })
  | a :: as, b :: bs =>
    if queueLess f b a then some (b, { leaves := a :: as, inner := bs })
    else some (a, { leaves := as, inner := b :: bs })

/-- One merge with the two queues. -/
def TwoQueue.mergeOne (p : Params) (m : Nat) (nodes : Memory Node) (q : TwoQueue) : Option (Memory Node × TwoQueue) :=
  match q.pop (fun k => (recordAt nodes k).f) with
  | none => none
  | some (a, q1) =>
    match q1.pop (fun k => (recordAt nodes k).f) with
    | none => none
    | some (c, q2) =>
      some (Memory.write Node.zero nodes m
              (Node.mkInternal a c (count p ((recordAt nodes a).f.toNat + (recordAt nodes c).f.toNat))),
            { q2 with inner := q2.inner ++ [m] })

/-- `steps` merges, numbered `m, m+1, …`. -/
def TwoQueue.mergeLoop (p : Params) : (steps : Nat) → (m : Nat) → Memory Node → TwoQueue → Memory Node
  | 0, _, nodes, _ => nodes
  | steps + 1, m, nodes, q =>
    match q.mergeOne p m nodes with
    | none => nodes
    | some (nodes', q') => TwoQueue.mergeLoop p steps (m + 1) nodes' q'

/-- Insertion of an index into a list sorted by `(F, index)`. -/
def insertByQueue (f : Nat → Word) (a : Nat) : List Nat → List Nat
  | [] => [a]
  | b :: bs => if queueLess f a b then a :: b :: bs else b :: insertByQueue f a bs

/-- The indices sorted by `(F, index)`. -/
def sortByQueue (f : Nat → Word) : List Nat → List Nat
  | [] => []
  | a :: as => insertByQueue f a (sortByQueue f as)

/-- The arena built with the pair of queues. -/
def twoQueueArena (s : State) : Memory Node :=
  let nodes := placeLeaves (freqAt s) s.node 0 (symbols s)
  TwoQueue.mergeLoop s.params (nsym s - 1) (nsym s) nodes
    { leaves := sortByQueue (fun k => (recordAt nodes k).f) (List.range (nsym s)), inner := [] }

end Sys2Proof.Machine
end

