-- ==== Sys2Proof/Safety.lean ====
section
/-! DEFINITION. What the spec promises of every state the block reaches (10_state.md R41 and the rules it rests on), and
the tables the statements compare the machine with. -/

namespace Sys2Proof.Machine

/-- The parameters are legal (R6), every memory is in canonical form, and every listed index lies inside its memory
(R27 to R34). -/
structure MemoriesOk (s : State) : Prop where
  params : s.params.legal = true
  freq   : Memory.wf 0 s.freq ∧ Memory.within 256 s.freq
  node   : Memory.wf Node.zero s.node ∧ Memory.within Config.nNode s.node
  clen   : Memory.wf 0 s.clen ∧ Memory.within 256 s.clen
  cbits  : Memory.wf 0 s.cbits ∧ Memory.within 256 s.cbits
  wbuf   : Memory.rising s.wbuf ∧ Memory.within s.params.maxWord s.wbuf
  obuf   : Memory.wf false s.obuf ∧ Memory.within s.params.maxBits s.obuf
  ibuf   : Memory.rising s.ibuf ∧ Memory.within s.params.maxBits s.ibuf
  dbuf   : Memory.wf 0 s.dbuf ∧ Memory.within s.params.maxBits s.dbuf

/-- ERR is (ECODE ≠ 0) (R21), and ERRINFO is 0 after a success (R23). -/
structure OutcomeOk (s : State) : Prop where
  err     : s.err = decide (s.ecode ≠ .ok)
  errinfo : s.ecode = .ok → s.errinfo = 0

/-- Nothing stands in OBUF from OLEN on, or in DBUF from DLEN on (R41 item 6), and neither length exceeds its buffer. -/
structure OutputsOk (s : State) : Prop where
  obuf : ∀ i, s.olen.toNat ≤ i → obufAt s i = false
  dbuf : ∀ j, s.dlen.toNat ≤ j → dbufAt s j = 0
  olen : s.olen.toNat ≤ s.params.maxBits
  dlen : s.dlen.toNat ≤ s.params.maxBits

/-- The sum of all counts, `Σ FREQ[b]` (R41 item 1, R72). -/
def countSum (s : State) : Nat := (alphabet.map (fun b => (freqAt s b).toNat)).sum

/-- R41 items 1 and 2, and TOTAL has `W_CNT` bits (R24). -/
structure CountsOk (s : State) : Prop where
  sum   : s.total.toNat = countSum s
  width : s.total.toNat < 2 ^ s.params.wCnt
  phase : s.phase = .empty ↔ s.total = 0

/-- R41 item 3 and the first half of item 5: no tree before BUILT, no code book before READY; and no ENCODE has succeeded
before READY (R95), no DECODE before BUILT (R107). -/
structure StagesOk (s : State) : Prop where
  noTree    : s.phase = .empty ∨ s.phase = .collect → s.node = []
  noBook    : s.phase ≠ .ready → s.clen = [] ∧ s.cbits = []
  noEncoded : s.phase ≠ .ready → s.olen = 0
  noDecoded : s.phase = .empty ∨ s.phase = .collect → s.dlen = 0

/-- Node `m` is an internal node with `k` as a child. -/
def IsParent (s : State) (m k : Nat) : Prop :=
  (nodeAt s m).valid = true ∧ (nodeAt s m).leaf = false ∧
    ((nodeAt s m).left.toNat = k ∨ (nodeAt s m).right.toNat = k)

/-- The internal node `m` of a tree (R78, R79, R82, R83): two children of lower index, in queue order, and the sum of
their frequencies. -/
structure InternalOk (s : State) (m : Nat) : Prop where
  valid : (nodeAt s m).valid = true
  inner : (nodeAt s m).leaf = false
  sym   : (nodeAt s m).sym = 0
  left  : (nodeAt s m).left.toNat < m
  right : (nodeAt s m).right.toNat < m
  order : queueLess (fun k => (nodeAt s k).f) (nodeAt s m).left.toNat (nodeAt s m).right.toNat = true
  sum   : (nodeAt s m).f.toNat =
            (nodeAt s (nodeAt s m).left.toNat).f.toNat + (nodeAt s (nodeAt s m).right.toNat).f.toNat

/-- The arena holds a Huffman tree over the symbols (R77 to R83, R41 item 4). -/
structure TreeOk (s : State) : Prop where
  size    : 1 ≤ nsym s
  leaves  : ∀ k, (h : k < nsym s) →
              nodeAt s k = Node.mkLeaf ((symbols s)[k]'h) (freqAt s ((symbols s)[k]'h))
  inner   : ∀ m, nsym s ≤ m → m < 2 * nsym s - 1 → InternalOk s m
  rest    : ∀ k, 2 * nsym s - 1 ≤ k → nodeAt s k = Node.zero
  root    : s.root.toNat = 2 * nsym s - 2
  parents : ∀ k, k < 2 * nsym s - 2 → ∃ m, IsParent s m k ∧ ∀ m', IsParent s m' k → m' = m
  total   : (nodeAt s s.root.toNat).f = s.total

/-- The code the tree gives its leaf `k`: the path from the root, or "0" when it is the only leaf (R88, R89). -/
def leafCode (s : State) (k : Nat) : List Bool := if nsym s = 1 then [false] else path s k

/-- The code book is the tree's (R87 to R89): each symbol has its leaf's path, or "0" when it is the only one, and every
other byte has none; bits at and beyond a code's length are 0 (R30). -/
structure BookOk (s : State) : Prop where
  codes  : ∀ k, (h : k < nsym s) →
             codeOf s ((symbols s)[k]'h) = leafCode s k
  absent : ∀ b, freqAt s b = 0 → clenAt s b = 0 ∧ cbitsAt s b = 0
  tail   : ∀ b i, (clenAt s b).toNat ≤ i → (cbitsAt s b).getLsbD i = false

/-- The invariant of the block: everything above, in every state, a command in flight or not. -/
structure Inv (s : State) : Prop where
  memories : MemoriesOk s
  outcome  : OutcomeOk s
  outputs  : OutputsOk s
  counts   : CountsOk s
  stages   : StagesOk s
  tree     : s.phase = .built ∨ s.phase = .ready → TreeOk s
  book     : s.phase = .ready → BookOk s

/-- The cursor of DECODE after the first `n` bits of IBUF, by recursion on their number (R102, R103): none once a bit has had
no path, which is a 1 bit at a leaf root (R104, R105). -/
def cursorAfter (s : State) : Nat → Option (BitVec 9)
  | 0 => some s.root
  | n + 1 =>
    match cursorAfter s n with
    | none => none
    | some cur =>
      if (nodeAt s cur.toNat).leaf then (if ibufAt s n then none else some cur)
      else
        let child := if ibufAt s n then (nodeAt s cur.toNat).right else (nodeAt s cur.toNat).left
        some (if (nodeAt s child.toNat).leaf then s.root else child)

/-- The admission table of R67: the error a well-formed command completes with in a phase that does not admit it. -/
def admission : Instr → Phase → Option ErrCode
  | .nop, _ => none
  | .ack, _ => none
  | .reset, _ => none
  | .collect _, .empty => none
  | .collect _, .collect => none
  | .collect _, .built => some .sequenceError
  | .collect _, .ready => some .sequenceError
  | .build, .empty => some .emptyInput
  | .build, .collect => none
  | .build, .built => some .sequenceError
  | .build, .ready => some .sequenceError
  | .derive, .empty => some .sequenceError
  | .derive, .collect => some .sequenceError
  | .derive, .built => none
  | .derive, .ready => some .sequenceError
  | .encode, .empty => some .sequenceError
  | .encode, .collect => some .sequenceError
  | .encode, .built => some .sequenceError
  | .encode, .ready => none
  | .decode, .empty => some .sequenceError
  | .decode, .collect => some .sequenceError
  | .decode, .built => none
  | .decode, .ready => none

/-- What a command writes before it checks anything: ENCODE and DECODE clear their output (R67, R95, R107). -/
def clearedFirst : Instr → State → State
  | .encode, s => clearEncoded s
  | .decode, s => clearDecoded s
  | .nop, s => s
  | .reset, s => s
  | .collect _, s => s
  | .build, s => s
  | .derive, s => s
  | .ack, s => s

/-- The next event is a reset: a hardware reset (R131) or the completion of RESET (R114). -/
def IsReset (s : State) : Prop :=
  nextEvent s = .hardReset ∨ (nextEvent s = .engine ∧ s.pend = some (encode .reset))

/-- The rows of R63 as (mask, match). -/
def opcodeRows : List (Word × Word) :=
  [(0xFFFFFFFF, 0x00000000), (0xFFFFFFFF, 0x00000001), (0xFFFF00FF, 0x00000002), (0xFFFFFFFF, 0x00000003),
   (0xFFFFFFFF, 0x00000004), (0xFFFFFFFF, 0x00000005), (0xFFFFFFFF, 0x00000006), (0xFFFFFFFF, 0x00000007)]

end Sys2Proof.Machine
end

