-- ==== Sys2Proof/Certificates/Slice0/Obligations.lean ====
section
/-! DEFINITION. The statements for the provers. Each docstring names the rule it formalises; a statement that rests on a
choice of the model names the log entry. "Frame" clauses are equalities of whole states: every field not named after
`with` is unchanged, every cell of every memory among them. -/

open Sys2Proof Sys2Proof.Machine

/-! ## Command words -/

/-- R63, R64: every command is well-formed, and decoding its word gives it back, with every value of COLLECT's operand. -/
def Obligations.DecodeInvertsEncode : Prop :=
  ∀ i : Instr, i.wellFormed = true ∧ decode (encode i) = .ok i

/-- R63, R64, R65: a word that decodes is the word of its command, and the illegal words are exactly those that no row of
R63 matches. -/
def Obligations.CommandWordsAreTheTableRows : Prop :=
  ∀ w : Word,
    (∀ i, decode w = .ok i → encode i = w) ∧
    ((∃ e, decode w = .error e) ↔ ∀ row ∈ opcodeRows, w &&& row.1 ≠ row.2)

/-- R63: words written out from the table decode to their commands. -/
def Obligations.TableWordsDecode : Prop :=
  decode 0x00000000 = .ok .nop ∧ decode 0x00000001 = .ok .reset ∧ decode 0x00006102 = .ok (.collect 0x61) ∧
  decode 0x0000FF02 = .ok (.collect 0xFF) ∧ decode 0x00000003 = .ok .build ∧ decode 0x00000004 = .ok .derive ∧
  decode 0x00000005 = .ok .encode ∧ decode 0x00000006 = .ok .decode ∧ decode 0x00000007 = .ok .ack

/-! ## The step -/

/-- R42, R56, R64, R130, R131, R135: a step performs the next event and nothing else: on the engine's turn with a command
in flight it is `exec` of the decoded command, or ILLEGAL_COMMAND, with the event taken off the agenda and the last response
withdrawn. The agenda and the response are the model's choice (assumptions 1, 10), and so is a turn of the engine with
nothing in flight, which keeps all state (assumption 14, deduced from R130). -/
def Obligations.StepPerformsTheNextEvent : Prop :=
  ∀ s : State, ∀ s', s' = { s with agenda := s.agenda.tail, rsp := none } →
    (∀ w i, nextEvent s = .engine → s.pend = some w → decode w = .ok i → step s = exec i s') ∧
    (∀ w e, nextEvent s = .engine → s.pend = some w → decode w = .error e → step s = .next (completeIllegal w s')) ∧
    (nextEvent s = .engine → s.pend = none → step s = .next s') ∧
    (∀ a, nextEvent s = .read a → step s = .next (busRead a s')) ∧
    (∀ a v, nextEvent s = .write a v → step s = .next (busWrite a v s')) ∧
    (nextEvent s = .hardReset → step s = .next (hardReset s'))

/-- R120: on the engine's turn, an ill-formed word completes with ILLEGAL_COMMAND, ERRINFO the word, and no other effect,
and the next command is accepted. -/
def Obligations.IllegalWordCompletesWithItsError : Prop :=
  ∀ (s : State) (w : Word) (e : IllegalWord), s.pend = some w → decode w = .error e →
    ∃ t, engineTurn s = .next t ∧
      t = { s with err := true, ecode := .illegalCommand, errinfo := w, pend := none } ∧
      ∀ w', (busWrite 0x10 w' t).pend = some w'

/-- R123, R135 and part 2 of 93_implementation_defined.md: no behaviour is stuck. Every step has a next state, and every
command completes and clears BUSY, in every state. -/
def Obligations.NothingIsStuck : Prop :=
  (∀ s : State, ∃ t, step s = .next t) ∧ ∀ (i : Instr) (s : State), ∃ t, exec i s = .next t ∧ t.pend = none

/-- R135: an accepted command completes, once, whatever the host does meanwhile, unless a hardware reset abandons it: PEND
keeps its word until the engine's first turn, at the latest when nothing else is to come (assumption 1). -/
def Obligations.AcceptedCommandCompletes : Prop :=
  ∀ (s : State) (w : Word), s.pend = some w → Event.hardReset ∉ s.agenda →
    ∃ k t, k ≤ s.agenda.length + 1 ∧ Host.Core.run Sys2Proof.core k s = .next t ∧ t.pend = none ∧
      ∀ k' t', k' < k → Host.Core.run Sys2Proof.core k' s = .next t' → t'.pend = some w

/-- R67: a command that its phase does not admit completes with the table's error and writes nothing else, except that
ENCODE and DECODE clear their output first; an admitted one reports neither SEQUENCE_ERROR nor EMPTY_INPUT. -/
def Obligations.PhaseAdmissionTable : Prop :=
  ∀ (i : Instr) (s t : State), exec i s = .next t →
    (∀ e, admission i s.phase = some e →
      t = { clearedFirst i s with
              err := true, ecode := e, errinfo := if e = .emptyInput then 0 else encode i, pend := none }) ∧
    (admission i s.phase = none → t.ecode ≠ .sequenceError ∧ t.ecode ≠ .emptyInput)

/-! ## Control commands -/

/-- R112: NOP is admitted in every phase, clears ERR, ECODE and ERRINFO and changes nothing else; it sets BUSY while it
executes and HAZ keeps its value; a word with OP = 0x00 and another field non-zero is illegal. -/
def Obligations.NopOnlyClearsTheOutcome : Prop :=
  (∀ s, exec .nop s = .next { s with err := false, ecode := .ok, errinfo := 0, pend := none }) ∧
  encode .nop = 0x00000000 ∧
  (∀ s : State, s.pend = none →
    busWrite 0x10 0x00000000 s = { s with pend := some 0x00000000, rsp := some (.write false) }) ∧
  ∀ w : Word, w.extractLsb' 0 8 = 0 → w ≠ 0 → ∃ e, decode w = .error e

/-- R113: ACK clears HAZ when it is accepted and completes without writing HAZ, so a write dropped while it executes
leaves HAZ = 1. -/
def Obligations.AckClearsTheHazardAtAcceptance : Prop :=
  encode .ack = 0x00000007 ∧
  (∀ s : State, s.pend = none →
    busWrite 0x10 0x00000007 s = { s with pend := some 0x00000007, haz := false, rsp := some (.write false) }) ∧
  (∀ s, exec .ack s = .next { s with err := false, ecode := .ok, errinfo := 0, pend := none }) ∧
  ∀ s : State, s.pend = none →
    (∃ t, exec .ack (busWrite 0x10 0x00000007 s) = .next t ∧ statusWord t = 0#29 ++ s.phase.code ++ 0#1) ∧
    ∀ (a : BitVec 8) (v : Word), a.toNat % 4 = 0 →
      ∃ t, exec .ack (busWrite a v (busWrite 0x10 0x00000007 s)) = .next t ∧ t.haz = true

/-- R114: RESET clears HAZ when it is accepted, and at its completion returns everything but WBUF, IBUF and HAZ to the
reset state, in every phase; NSYM then reads 0. -/
def Obligations.ResetCommandEndsTheSession : Prop :=
  encode .reset = 0x00000001 ∧
  (∀ s : State, s.pend = none →
    busWrite 0x10 0x00000001 s = { s with pend := some 0x00000001, haz := false, rsp := some (.write false) }) ∧
  ∀ s, ∃ t, exec .reset s = .next t ∧ nsym t = 0 ∧
    t = { s with freq := [], clen := [], cbits := [], node := [], obuf := [], dbuf := [], total := 0, root := 0,
                 wlen := 0, olen := 0, ilen := 0, dlen := 0, msel := 0, maddr := 0, phase := .empty,
                 err := false, ecode := .ok, errinfo := 0, pend := none }

/-- R134: a write to CMD while BUSY = 0 is accepted: PEND holds the word, BUSY is 1, HAZ is cleared for exactly the ACK
and RESET words, and nothing else changes. -/
def Obligations.AcceptanceOfACommand : Prop :=
  ∀ (s : State) (w : Word), s.pend = none →
    busWrite 0x10 w s =
      { s with pend := some w, haz := if w = 0x00000007 ∨ w = 0x00000001 then false else s.haz,
               rsp := some (.write false) }

/-! ## Frequency collection -/

/-- R70, R71: COLLECT counts its byte, or reports SEQUENCE_ERROR or COUNT_OVERFLOW and counts nothing. Neither addition
wraps: every count is at most TOTAL. -/
def Obligations.CollectCountsItsByte : Prop :=
  ∀ (s : State) (b : Byte), MemoriesOk s → CountsOk s →
    (s.phase = .built ∨ s.phase = .ready →
      exec (.collect b) s =
        .next { s with err := true, ecode := .sequenceError, errinfo := 0#16 ++ b ++ 0x02#8, pend := none }) ∧
    (s.phase = .empty ∨ s.phase = .collect → s.total.toNat = 2 ^ s.params.wCnt - 1 →
      exec (.collect b) s =
        .next { s with err := true, ecode := .countOverflow, errinfo := 0#16 ++ b ++ 0x02#8, pend := none }) ∧
    (s.phase = .empty ∨ s.phase = .collect → s.total.toNat ≠ 2 ^ s.params.wCnt - 1 →
      (∀ c, (freqAt s c).toNat ≤ s.total.toNat) ∧ s.total.toNat < 2 ^ s.params.wCnt - 1 ∧
      ∃ t, exec (.collect b) s = .next t ∧
        t = { s with freq := t.freq, total := t.total, phase := .collect, err := false, ecode := .ok, errinfo := 0,
                     pend := none } ∧
        t.total.toNat = s.total.toNat + 1 ∧
        ∀ c, (freqAt t c).toNat = if c = b then (freqAt s c).toNat + 1 else (freqAt s c).toNat)

/-- R73: two successful COLLECTs in either order leave the same state. -/
def Obligations.CollectOrderIsIrrelevant : Prop :=
  ∀ (s : State) (b c : Byte), MemoriesOk s → CountsOk s → s.phase = .empty ∨ s.phase = .collect →
    s.total.toNat + 2 ≤ 2 ^ s.params.wCnt - 1 →
    ∃ t u v, exec (.collect b) s = .next t ∧ exec (.collect c) t = .next v ∧
      exec (.collect c) s = .next u ∧ exec (.collect b) u = .next v ∧ v.ecode = .ok

/-- R74, R24, R27: only a successful COLLECT, RESET and a hardware reset write FREQ or TOTAL, and COLLECT only adds one to
its byte's count and to TOTAL. -/
def Obligations.OnlyCollectAndResetsWriteCounts : Prop :=
  ∀ s t : State, MemoriesOk s → CountsOk s → step s = .next t → t.freq ≠ s.freq ∨ t.total ≠ s.total →
    (nextEvent s = .hardReset ∧ t.freq = [] ∧ t.total = 0) ∨
    (nextEvent s = .engine ∧ s.pend = some (encode .reset) ∧ t.freq = [] ∧ t.total = 0) ∨
    ∃ b, nextEvent s = .engine ∧ s.pend = some (encode (.collect b)) ∧ t.ecode = .ok ∧
      t.total.toNat = s.total.toNat + 1 ∧
      ∀ c, (freqAt t c).toNat = if c = b then (freqAt s c).toNat + 1 else (freqAt s c).toNat

/-! ## Tree construction -/

/-- R75, R86: BUILD writes NODE, ROOT and PHASE on success, only the outcome on EMPTY_INPUT and SEQUENCE_ERROR, and
nothing else; the records from `2n − 1` on keep VALID = 0. -/
def Obligations.BuildWritesOnlyTheTree : Prop :=
  ∀ s : State,
    (s.phase = .empty →
      exec .build s = .next { s with err := true, ecode := .emptyInput, errinfo := 0, pend := none }) ∧
    (s.phase = .built ∨ s.phase = .ready →
      exec .build s = .next { s with err := true, ecode := .sequenceError, errinfo := 0x00000003, pend := none }) ∧
    (s.phase = .collect → ∃ nodes root,
      exec .build s = .next { s with node := nodes, root := root, phase := .built, err := false, ecode := .ok,
                                     errinfo := 0, pend := none } ∧
      (Inv s → ∀ k, 2 * nsym s - 1 ≤ k → recordAt nodes k = Node.zero))

/-- R77 to R83: in PHASE COLLECT, BUILD succeeds and the arena holds a Huffman tree: the leaves in ascending byte order,
`n − 1` internal nodes whose children have lower indices, are in queue order and sum to their frequency without a wrap,
one parent for every node but the root, and the root last with F = TOTAL. -/
def Obligations.BuildGivesAHuffmanTree : Prop :=
  ∀ s : State, Inv s → s.phase = .collect →
    ∃ t, exec .build s = .next t ∧ t.phase = .built ∧ t.ecode = .ok ∧ TreeOk t

/-- R76, R78, R79: the merge that makes node `m` joins the two least of the queue, which then holds the nodes below `m`
that no merge before `m` has joined: both children are in the queue, LEFT comes before RIGHT in queue order, and every other
node of the queue comes after both. -/
def Obligations.EachMergeJoinsTheTwoLeast : Prop :=
  ∀ s : State, Inv s → s.phase = .collect →
    ∃ t, exec .build s = .next t ∧
      ∀ m, nsym s ≤ m → m < 2 * nsym s - 1 →
        (nodeAt t m).left.toNat < m ∧ (nodeAt t m).right.toNat < m ∧
        (∀ m', m' < m → ¬ IsParent t m' (nodeAt t m).left.toNat ∧ ¬ IsParent t m' (nodeAt t m).right.toNat) ∧
        queueLess (fun j => (nodeAt t j).f) (nodeAt t m).left.toNat (nodeAt t m).right.toNat = true ∧
        ∀ k, k < m → (∀ m', m' < m → ¬ IsParent t m' k) →
          k = (nodeAt t m).left.toNat ∨ k = (nodeAt t m).right.toNat ∨
          queueLess (fun j => (nodeAt t j).f) (nodeAt t m).right.toNat k = true

/-- R76: `PopMin` removes from a queue that is not empty the index of least `(F, index)`. -/
def Obligations.PopMinTakesTheLeast : Prop :=
  ∀ (f : Nat → Word) (q : List Nat),
    (q ≠ [] → ∃ k q', popMin f q = some (k, q')) ∧
    ∀ k q', popMin f q = some (k, q') →
      k ∈ q ∧ q' = q.erase k ∧ ∀ j ∈ q, j = k ∨ f k < f j ∨ (f k = f j ∧ k < j)

/-- R84: the tree is a function of the counts alone. -/
def Obligations.TreeIsAFunctionOfTheCounts : Prop :=
  ∀ s s' t t' : State, StagesOk s → StagesOk s' → s.phase = .collect → s'.phase = .collect → s.params = s'.params →
    (∀ b, freqAt s b = freqAt s' b) → exec .build s = .next t → exec .build s' = .next t' →
    t.node = t'.node ∧ t.root = t'.root

/-- R85: the pair of first-in-first-out queues builds the same arena. -/
def Obligations.TwoQueuesBuildTheSameTree : Prop :=
  ∀ s : State, Inv s → s.phase = .collect → twoQueueArena s = buildArena s

/-! ## Code book -/

/-- R87, R93: DERIVE writes CLEN, CBITS and PHASE on success, only the outcome on SEQUENCE_ERROR, and nothing else; and a
step from PHASE READY writes no table, counts, tree and code book alike, unless it is a reset, which zeroes them. -/
def Obligations.DeriveWritesOnlyTheCodeBook : Prop :=
  (∀ s : State,
    (s.phase ≠ .built →
      exec .derive s = .next { s with err := true, ecode := .sequenceError, errinfo := 0x00000004, pend := none }) ∧
    (s.phase = .built → ∃ clen cbits,
      exec .derive s = .next { s with clen := clen, cbits := cbits, phase := .ready, err := false, ecode := .ok,
                                      errinfo := 0, pend := none })) ∧
  ∀ s t : State, step s = .next t → s.phase = .ready →
    (t.phase = .ready ∧ t.clen = s.clen ∧ t.cbits = s.cbits ∧ t.node = s.node ∧ t.root = s.root ∧ t.freq = s.freq ∧
      t.total = s.total) ∨
    (IsReset s ∧ t.phase = .empty ∧
      t.clen = [] ∧ t.cbits = [] ∧ t.node = [] ∧ t.freq = [])

/-- R87, R89: in PHASE BUILT, DERIVE succeeds and the code book is the tree's: each symbol has its leaf's path, or "0"
when it is the only symbol, and no other byte has a code. -/
def Obligations.DeriveGivesTheTreesCodeBook : Prop :=
  ∀ s : State, Inv s → s.phase = .built →
    ∃ t, exec .derive s = .next t ∧ t.phase = .ready ∧ t.ecode = .ok ∧ BookOk t

/-- R88: the root's path is empty, and a child's path is its parent's with 0 for LEFT and 1 for RIGHT appended. -/
def Obligations.PathsFollowTheTree : Prop :=
  ∀ s : State, MemoriesOk s → TreeOk s →
    path s s.root.toNat = [] ∧
    ∀ m, nsym s ≤ m → m < 2 * nsym s - 1 →
      path s (nodeAt s m).left.toNat = path s m ++ [false] ∧ path s (nodeAt s m).right.toNat = path s m ++ [true]

/-- R89: every collected byte has a code of 1 to `n − 1` bits, no other byte has one, and a single symbol's code is "0". -/
def Obligations.CodeLengthsAreBounded : Prop :=
  ∀ s : State, Inv s → s.phase = .ready →
    (∀ b, freqAt s b ≠ 0 → 1 ≤ (clenAt s b).toNat ∧ (2 ≤ nsym s → (clenAt s b).toNat ≤ nsym s - 1)) ∧
    (∀ b, clenAt s b = 0 ↔ freqAt s b = 0) ∧
    (nsym s = 1 → ∀ b, freqAt s b ≠ 0 → codeOf s b = [false])

/-- R91: no code is an initial segment of another, and with two or more symbols the Kraft sum is 1 (both sides times
`2^255`). -/
def Obligations.CodesArePrefixFree : Prop :=
  ∀ s : State, Inv s → s.phase = .ready →
    (∀ b c, freqAt s b ≠ 0 → freqAt s c ≠ 0 → b ≠ c → ¬ codeOf s b <+: codeOf s c) ∧
    (2 ≤ nsym s → ((symbols s).map (fun b => 2 ^ (255 - (clenAt s b).toNat))).sum = 2 ^ 255)

/-- R92: the weighted length of the code book is the sum of the internal nodes' frequencies, or TOTAL for one symbol. -/
def Obligations.WeightedLengthIsTheInternalSum : Prop :=
  ∀ s : State, Inv s → s.phase = .ready →
    ((symbols s).map (fun b => (freqAt s b).toNat * (clenAt s b).toNat)).sum =
      if nsym s = 1 then s.total.toNat
      else ((List.range (nsym s - 1)).map (fun i => (nodeAt s (nsym s + i)).f.toNat)).sum

/-! ## Encoder -/

/-- R94, R98, R99: in PHASE READY, with WLEN in range, every byte known and the codes fitting in OBUF, ENCODE succeeds:
OBUF is the concatenation of the bytes' codes, OLEN its length, every bit after it 0, and nothing else changes. -/
def Obligations.EncodeConcatenatesTheCodes : Prop :=
  ∀ s : State, s.params.legal = true → s.phase = .ready → s.wlen.toNat ≤ s.params.maxWord →
    (∀ j, j < s.wlen.toNat → clenAt s (wbufAt s j) ≠ 0) →
    ((List.range s.wlen.toNat).map (fun j => (clenAt s (wbufAt s j)).toNat)).sum ≤ s.params.maxBits →
    ∃ t, exec .encode s = .next t ∧
      t = { s with obuf := t.obuf, olen := t.olen, err := false, ecode := .ok, errinfo := 0, pend := none } ∧
      t.olen.toNat = ((List.range s.wlen.toNat).map (fun j => (clenAt s (wbufAt s j)).toNat)).sum ∧
      ∀ i, obufAt t i = ((List.range s.wlen.toNat).flatMap (fun j => codeOf s (wbufAt s j))).getD i false

/-- R94, R102, R118, R121: which error ENCODE and DECODE report, the first that applies in the order phase, length, byte
or bit, capacity or end of input. For DECODE, the bit error is the first bit without a path, and the end error a cursor that
is not back at ROOT. The detail words too, but for that of UNKNOWN_SYMBOL and of TRUNCATED_CODE. -/
def Obligations.EncodeAndDecodeReportTheFirstError : Prop :=
  (∀ s t : State, exec .encode s = .next t →
    t.ecode =
      (if s.phase ≠ .ready then .sequenceError
       else if s.params.maxWord < s.wlen.toNat then .lengthRange
       else if (List.range s.wlen.toNat).any (fun j => clenAt s (wbufAt s j) == 0) then .unknownSymbol
       else if s.params.maxBits < ((List.range s.wlen.toNat).map (fun j => (clenAt s (wbufAt s j)).toNat)).sum then
         .outputOverflow
       else .ok) ∧
    (t.ecode = .sequenceError → t.errinfo = 0x00000005) ∧
    (t.ecode = .lengthRange → t.errinfo = s.wlen.setWidth 32) ∧
    (t.ecode = .outputOverflow →
      t.errinfo.toNat = ((List.range s.wlen.toNat).map (fun j => (clenAt s (wbufAt s j)).toNat)).sum)) ∧
  (∀ s t : State, exec .decode s = .next t →
    t.ecode =
      (if s.phase ≠ .built ∧ s.phase ≠ .ready then .sequenceError
       else if s.params.maxBits < s.ilen.toNat then .lengthRange
       else if (List.range s.ilen.toNat).any (fun i => (cursorAfter s (i + 1)).isNone) then .invalidCode
       else if cursorAfter s s.ilen.toNat ≠ some s.root then .truncatedCode
       else .ok) ∧
    (t.ecode = .sequenceError → t.errinfo = 0x00000006) ∧
    (t.ecode = .lengthRange → t.errinfo = s.ilen.setWidth 32) ∧
    (t.ecode = .invalidCode →
      t.errinfo.toNat < s.ilen.toNat ∧ cursorAfter s t.errinfo.toNat ≠ none ∧
      cursorAfter s (t.errinfo.toNat + 1) = none))

/-- R96: ENCODE reports the first byte of the word with no code, which is a byte never collected: its value in
ERRINFO[7:0], 0 in [15:8] and its index in [31:16]; nothing is encoded. -/
def Obligations.EncodeReportsTheFirstUnknownByte : Prop :=
  (∀ (s : State) (j : Nat), s.phase = .ready → s.wlen.toNat ≤ s.params.maxWord → j < s.wlen.toNat →
    clenAt s (wbufAt s j) = 0 → (∀ i, i < j → clenAt s (wbufAt s i) ≠ 0) →
    ∃ info : Word, info.extractLsb' 0 8 = wbufAt s j ∧ info.extractLsb' 8 8 = 0 ∧ (info.extractLsb' 16 16).toNat = j ∧
      exec .encode s =
        .next { s with olen := 0, obuf := [], err := true, ecode := .unknownSymbol, errinfo := info, pend := none }) ∧
  ∀ (s : State) (b : Byte), Inv s → s.phase = .ready → (clenAt s b = 0 ↔ freqAt s b = 0)

/-- R95: a failed ENCODE leaves OLEN = 0 and OBUF all zero; when PHASE is not READY the clearing changes nothing. -/
def Obligations.FailedEncodeLeavesNoOutput : Prop :=
  (∀ s t : State, exec .encode s = .next t → t.ecode ≠ .ok → t.olen = 0 ∧ ∀ i, obufAt t i = false) ∧
  ∀ s t : State, Inv s → s.phase ≠ .ready → exec .encode s = .next t → t.olen = s.olen ∧ t.obuf = s.obuf

/-- R100: ENCODE writes OBUF, OLEN and the outcome and nothing else, and a second ENCODE gives the same outcome. -/
def Obligations.EncodeWritesOnlyItsOutput : Prop :=
  ∀ s t : State, exec .encode s = .next t →
    t = { s with obuf := t.obuf, olen := t.olen, err := t.err, ecode := t.ecode, errinfo := t.errinfo, pend := none } ∧
    exec .encode t = .next t

/-! ## Decoder -/

/-- R102, R103, R109: in PHASE BUILT or READY, when the bits are the codes of a sequence of leaves one after the other,
DECODE succeeds: DBUF holds their bytes, DLEN their number, every byte after them is 0, and nothing else changes. -/
def Obligations.DecodeWalksTheTree : Prop :=
  ∀ (s : State) (ks : List Nat), Inv s → s.phase = .built ∨ s.phase = .ready → s.ilen.toNat ≤ s.params.maxBits →
    (∀ k ∈ ks, k < nsym s) → (List.range s.ilen.toNat).map (ibufAt s) = ks.flatMap (leafCode s) →
    ∃ t, exec .decode s = .next t ∧
      t = { s with dbuf := t.dbuf, dlen := t.dlen, err := false, ecode := .ok, errinfo := 0, pend := none } ∧
      t.dlen.toNat = ks.length ∧
      ∀ j, dbufAt t j = (ks.map (fun k => (nodeAt s k).sym)).getD j 0

/-- R105: in the tree of one symbol, a 0 bit decodes to its byte, and the first 1 bit is INVALID_CODE at its index. -/
def Obligations.DegenerateTreeDecodes : Prop :=
  ∀ s : State, Inv s → s.phase = .built ∨ s.phase = .ready → nsym s = 1 → s.ilen.toNat ≤ s.params.maxBits →
    ((∀ i, i < s.ilen.toNat → ibufAt s i = false) →
      ∃ t, exec .decode s = .next t ∧ t.ecode = .ok ∧ t.dlen = s.ilen ∧
        ∀ j, j < s.ilen.toNat → (symbols s)[0]? = some (dbufAt t j)) ∧
    ∀ i, i < s.ilen.toNat → ibufAt s i = true → (∀ i', i' < i → ibufAt s i' = false) →
      exec .decode s =
        .next { s with dlen := 0, dbuf := [], err := true, ecode := .invalidCode, errinfo := BitVec.ofNat 32 i,
                       pend := none }

/-- R104, R106: INVALID_CODE arises only in the tree of one symbol, at the first 1 bit; TRUNCATED_CODE arises exactly when
the bits are whole codes and then a proper, non-empty beginning of a code, with ERRINFO the index of that beginning's first
bit. -/
def Obligations.DecodeErrorsAreExplained : Prop :=
  ∀ s t : State, Inv s → exec .decode s = .next t →
    (t.ecode = .invalidCode →
      nsym s = 1 ∧ ∃ i, i < s.ilen.toNat ∧ t.errinfo.toNat = i ∧ ibufAt s i = true ∧ ∀ i', i' < i → ibufAt s i' = false) ∧
    (t.ecode = .truncatedCode →
      ∃ (ks : List Nat) (k : Nat) (p q : List Bool), (∀ x ∈ ks, x < nsym s) ∧ k < nsym s ∧ p ≠ [] ∧ q ≠ [] ∧
        leafCode s k = p ++ q ∧ (List.range s.ilen.toNat).map (ibufAt s) = ks.flatMap (leafCode s) ++ p ∧
        t.errinfo.toNat = (ks.flatMap (leafCode s)).length) ∧
    (s.phase = .built ∨ s.phase = .ready → s.ilen.toNat ≤ s.params.maxBits →
      ∀ (ks : List Nat) (k : Nat) (p q : List Bool), (∀ x ∈ ks, x < nsym s) → k < nsym s → p ≠ [] → q ≠ [] →
        leafCode s k = p ++ q → (List.range s.ilen.toNat).map (ibufAt s) = ks.flatMap (leafCode s) ++ p →
        t.ecode = .truncatedCode ∧ t.errinfo.toNat = (ks.flatMap (leafCode s)).length)

/-- R107, R108: a failed DECODE leaves DLEN = 0 and DBUF all zero, in PHASE EMPTY and COLLECT the clearing changes
nothing, and DECODE never writes more bytes than it reads bits. -/
def Obligations.FailedDecodeLeavesNoOutput : Prop :=
  (∀ s t : State, exec .decode s = .next t →
    (t.ecode ≠ .ok → t.dlen = 0 ∧ ∀ j, dbufAt t j = 0) ∧
    t.dlen.toNat ≤ s.ilen.toNat ∧ t.dlen.toNat ≤ s.params.maxBits ∧ t.ecode ≠ .outputOverflow) ∧
  ∀ s t : State, Inv s → s.phase = .empty ∨ s.phase = .collect → exec .decode s = .next t →
    t.dlen = s.dlen ∧ t.dbuf = s.dbuf

/-- R111: DECODE writes DBUF, DLEN and the outcome and nothing else, and a second DECODE gives the same outcome. -/
def Obligations.DecodeWritesOnlyItsOutput : Prop :=
  ∀ s t : State, exec .decode s = .next t →
    t = { s with dbuf := t.dbuf, dlen := t.dlen, err := t.err, ecode := t.ecode, errinfo := t.errinfo, pend := none } ∧
    exec .decode t = .next t

/-- R110: the round trip. If ENCODE succeeds and the host copies OBUF's bits to IBUF and OLEN to ILEN, DECODE succeeds and
gives the word back. The state DECODE starts from agrees with ENCODE's on the parameters, PHASE and the tree; the rest of it,
which the host's copying moves (MSEL, MADDR) or leaves, is open. -/
def Obligations.DecodeInvertsEncodeOfAWord : Prop :=
  ∀ s t u : State, Inv s → exec .encode s = .next t → t.ecode = .ok →
    u.params = t.params → u.phase = t.phase → u.node = t.node → u.root = t.root →
    u.ilen = t.olen → (∀ i, i < t.olen.toNat → ibufAt u i = obufAt t i) →
    ∃ v, exec .decode u = .next v ∧ v.ecode = .ok ∧ v.dlen = s.wlen ∧
      ∀ j, j < s.wlen.toNat → dbufAt v j = wbufAt s j

/-! ## Host bus -/

/-- R44: a transaction with `addr[1:0] ≠ 0` is refused: error flag 1, a read's data 0, no other effect, busy or not. -/
def Obligations.MisalignedAccessIsRefused : Prop :=
  ∀ (s : State) (a : BitVec 8) (v : Word), a.extractLsb' 0 2 ≠ 0 →
    busRead a s = { s with rsp := some (.read 0 true) } ∧ busWrite a v s = { s with rsp := some (.write true) }

/-- R45: an aligned offset from 0x44 on reads 0 and ignores writes, with error flag 0; a write while BUSY sets HAZ. -/
def Obligations.ReservedOffsetsReadZero : Prop :=
  ∀ (s : State) (a : BitVec 8) (v : Word), a.toNat % 4 = 0 → 0x44 ≤ a.toNat →
    busRead a s = { s with rsp := some (.read 0 false) } ∧
    busWrite a v s = { s with haz := s.haz || busy s, rsp := some (.write false) }

/-- R46: a write to a read-only register changes nothing but HAZ while BUSY, CMD reads 0, and no access to a mapped
offset gives error flag 1. -/
def Obligations.ReadOnlyRegistersIgnoreWrites : Prop :=
  ∀ (s : State) (v : Word),
    (∀ r ∈ [Reg.id, .maxword, .maxbits, .cntw, .status, .errinfo, .total, .nsym, .root, .olen, .dlen],
      busWrite (offsetOf r) v s = { s with haz := s.haz || busy s, rsp := some (.write false) }) ∧
    busRead 0x10 s = { s with rsp := some (.read 0 false) } ∧
    ∀ r : Reg, (busWrite (offsetOf r) v s).rsp = some (.write false) ∧
      ∃ d, (busRead (offsetOf r) s).rsp = some (.read d false)

/-- R14, R23 to R26, R35 to R38, R48, R49, R55: while BUSY = 0, a write to WLEN, ILEN, MSEL or MADDR stores the register's
low bits and changes nothing else; a read of one of them, or of ERRINFO, TOTAL, ROOT, OLEN or DLEN, returns its value
zero-extended, a read of NSYM the number of byte values with a count, and no such read changes anything. -/
def Obligations.WritableRegistersStoreTheirBits : Prop :=
  ∀ (s : State) (v : Word), s.pend = none →
    busWrite 0x28 v s = { s with wlen := v.extractLsb' 0 16, rsp := some (.write false) } ∧
    busWrite 0x30 v s = { s with ilen := v.extractLsb' 0 16, rsp := some (.write false) } ∧
    busWrite 0x38 v s = { s with msel := v.extractLsb' 0 4, rsp := some (.write false) } ∧
    busWrite 0x3C v s = { s with maddr := v.extractLsb' 0 16, rsp := some (.write false) } ∧
    busRead 0x28 s = { s with rsp := some (.read (0#16 ++ s.wlen) false) } ∧
    busRead 0x30 s = { s with rsp := some (.read (0#16 ++ s.ilen) false) } ∧
    busRead 0x38 s = { s with rsp := some (.read (0#28 ++ s.msel) false) } ∧
    busRead 0x3C s = { s with rsp := some (.read (0#16 ++ s.maddr) false) } ∧
    busRead 0x18 s = { s with rsp := some (.read s.errinfo false) } ∧
    busRead 0x1C s = { s with rsp := some (.read s.total false) } ∧
    busRead 0x20 s =
      { s with rsp := some (.read (BitVec.ofNat 32
          ((List.range 256).countP (fun b => freqAt s (BitVec.ofNat 8 b) != 0))) false) } ∧
    busRead 0x24 s = { s with rsp := some (.read (0#23 ++ s.root) false) } ∧
    busRead 0x2C s = { s with rsp := some (.read (0#16 ++ s.olen) false) } ∧
    busRead 0x34 s = { s with rsp := some (.read (0#16 ++ s.dlen) false) }

/-- R49, R50, R51: while BUSY = 0, an MDATA read returns the selected word and an MDATA write stores its four bytes in WBUF
(MSEL 4) or its 32 bits in IBUF (MSEL 6), those below the capacity, and in no other memory; both move MADDR by 1 modulo
2^16 and change nothing else. While BUSY = 1 a read changes no memory and does not move MADDR, and a write is dropped; that
the value of such a read is `Config.busyRead` at a counter is the model's choice of form (assumption 4). -/
def Obligations.WindowAccessMovesTheAddress : Prop :=
  ∀ (s : State) (v : Word),
    (s.pend = none →
      busRead 0x40 s = { s with maddr := s.maddr + 1, rsp := some (.read (windowWord s s.msel s.maddr.toNat) false) } ∧
      ∃ t, busWrite 0x40 v s = t ∧
        t = { s with wbuf := t.wbuf, ibuf := t.ibuf, maddr := s.maddr + 1, rsp := some (.write false) } ∧
        (∀ j, wbufAt t j =
          if s.msel = 4 ∧ 4 * s.maddr.toNat ≤ j ∧ j < 4 * s.maddr.toNat + 4 ∧ j < s.params.maxWord
          then v.extractLsb' (8 * (j - 4 * s.maddr.toNat)) 8 else wbufAt s j) ∧
        ∀ i, ibufAt t i =
          if s.msel = 6 ∧ 32 * s.maddr.toNat ≤ i ∧ i < 32 * s.maddr.toNat + 32 ∧ i < s.params.maxBits
          then v.getLsbD (i - 32 * s.maddr.toNat) else ibufAt s i) ∧
    (s.pend ≠ none →
      busRead 0x40 s = { s with free := s.free + 1, rsp := some (.read (Config.busyRead s.free) false) } ∧
      busWrite 0x40 v s = { s with haz := true, rsp := some (.write false) })

/-- R52, R53, R54: the window's words, memory by memory, byte `4k + t` at bits `[8t+7:8t]` and bit `i` at word `i div 32`,
bit `i mod 32`; 0 at and beyond a memory's end and in a reserved memory. -/
def Obligations.WindowMapLayout : Prop :=
  ∀ (s : State) (k : Nat),
    windowWord s 0 k = (if k < 256 then freqAt s (BitVec.ofNat 8 k) else 0) ∧
    (k < 511 →
      (windowWord s 1 (2 * k)).getLsbD 31 = (nodeAt s k).valid ∧ (windowWord s 1 (2 * k)).getLsbD 30 = (nodeAt s k).leaf ∧
      (windowWord s 1 (2 * k)).extractLsb' 26 4 = 0 ∧ (windowWord s 1 (2 * k)).extractLsb' 17 9 = (nodeAt s k).right ∧
      (windowWord s 1 (2 * k)).extractLsb' 8 9 = (nodeAt s k).left ∧
      (windowWord s 1 (2 * k)).extractLsb' 0 8 = (nodeAt s k).sym ∧
      windowWord s 1 (2 * k + 1) = (nodeAt s k).f) ∧
    (1022 ≤ k → windowWord s 1 k = 0) ∧
    windowWord s 2 k = (if k < 256 then 0#24 ++ clenAt s (BitVec.ofNat 8 k) else 0) ∧
    (∀ t, t < 32 → (windowWord s 3 k).getLsbD t =
      (decide (k < 2048) && (cbitsAt s (BitVec.ofNat 8 (k / 8))).getLsbD (32 * (k % 8) + t))) ∧
    (∀ t, t < 4 → (windowWord s 4 k).extractLsb' (8 * t) 8 =
      if 4 * k + t < s.params.maxWord then wbufAt s (4 * k + t) else 0) ∧
    (∀ t, t < 32 → (windowWord s 5 k).getLsbD t =
      (decide (32 * k + t < s.params.maxBits) && obufAt s (32 * k + t))) ∧
    (∀ t, t < 32 → (windowWord s 6 k).getLsbD t =
      (decide (32 * k + t < s.params.maxBits) && ibufAt s (32 * k + t))) ∧
    (∀ t, t < 4 → (windowWord s 7 k).extractLsb' (8 * t) 8 =
      if 4 * k + t < s.params.maxBits then dbufAt s (4 * k + t) else 0) ∧
    ∀ sel : BitVec 4, 8 ≤ sel.toNat → windowWord s sel k = 0

/-- R18: the fields of STATUS with the numbers of PHASE and, from R117, of ECODE, no other number being produced; host
writes to it are ignored (BUSY = 0; R136 while BUSY). -/
def Obligations.StatusWordLayout : Prop :=
  (Phase.empty.code = 0 ∧ Phase.collect.code = 1 ∧ Phase.built.code = 2 ∧ Phase.ready.code = 3) ∧
  (ErrCode.ok.code = 0 ∧ ErrCode.emptyInput.code = 1 ∧ ErrCode.unknownSymbol.code = 2 ∧ ErrCode.invalidCode.code = 3 ∧
    ErrCode.truncatedCode.code = 4 ∧ ErrCode.illegalCommand.code = 5 ∧ ErrCode.sequenceError.code = 6 ∧
    ErrCode.countOverflow.code = 7 ∧ ErrCode.outputOverflow.code = 8 ∧ ErrCode.lengthRange.code = 9) ∧
  (∀ e : ErrCode, e.code.toNat ≤ 9) ∧
  (∀ s : State,
    (statusWord s).getLsbD 0 = s.pend.isSome ∧ (statusWord s).extractLsb' 1 2 = s.phase.code ∧
    (statusWord s).getLsbD 3 = s.err ∧ (statusWord s).extractLsb' 4 4 = s.ecode.code ∧
    (statusWord s).getLsbD 8 = s.haz ∧ (statusWord s).extractLsb' 9 23 = 0) ∧
  (∀ s : State, busRead 0x14 s = { s with rsp := some (.read (statusWord s) false) }) ∧
  ∀ (s : State) (v : Word), s.pend = none → busWrite 0x14 v s = { s with rsp := some (.write false) }

/-- R16: ID and the three parameter registers read their constants, busy or not, and no step changes them. -/
def Obligations.IdentificationIsConstant : Prop :=
  (∀ s : State,
    busRead 0x00 s = { s with rsp := some (.read 0x48554631 false) } ∧
    busRead 0x04 s = { s with rsp := some (.read (0#16 ++ BitVec.ofNat 16 s.params.maxWord) false) } ∧
    busRead 0x08 s = { s with rsp := some (.read (0#16 ++ BitVec.ofNat 16 s.params.maxBits) false) } ∧
    busRead 0x0C s = { s with rsp := some (.read (0#26 ++ BitVec.ofNat 6 s.params.wCnt) false) }) ∧
  ∀ s t : State, step s = .next t → t.params = s.params

/-! ## Status flags over all events -/

/-- R20: PHASE moves only on a successful COLLECT, BUILD or DERIVE, one stage forward or from COLLECT to itself, and back
only to EMPTY, by a reset. -/
def Obligations.OnlyStagesMoveThePhase : Prop :=
  Phase.empty.code = 0 ∧ Phase.collect.code = 1 ∧ Phase.built.code = 2 ∧ Phase.ready.code = 3 ∧
  ∀ s t : State, step s = .next t → t.phase ≠ s.phase →
    (nextEvent s = .hardReset ∧ t.phase = .empty) ∨
    (nextEvent s = .engine ∧ t.ecode = .ok ∧
      ((s.pend = some (encode .reset) ∧ t.phase = .empty) ∨
       (∃ b, s.pend = some (encode (.collect b)) ∧ s.phase = .empty ∧ t.phase = .collect) ∨
       (s.pend = some (encode .build) ∧ s.phase = .collect ∧ t.phase = .built) ∨
       (s.pend = some (encode .derive) ∧ s.phase = .built ∧ t.phase = .ready)))

/-- R21, R23: every completion writes ERR, ECODE and ERRINFO, with ERR = (ECODE ≠ 0) and ERRINFO = 0 after a success, and
no other event but a hardware reset, which clears them, writes them. -/
def Obligations.CompletionsWriteTheOutcome : Prop :=
  ∀ s t : State, step s = .next t →
    (nextEvent s = .engine ∧ s.pend ≠ none ∧ t.err = decide (t.ecode ≠ .ok) ∧ (t.ecode = .ok → t.errinfo = 0)) ∨
    (nextEvent s = .hardReset ∧ t.err = false ∧ t.ecode = .ok ∧ t.errinfo = 0) ∨
    (nextEvent s ≠ .hardReset ∧ (nextEvent s = .engine → s.pend = none) ∧
      t.err = s.err ∧ t.ecode = s.ecode ∧ t.errinfo = s.errinfo)

/-- R22: HAZ becomes 1 exactly by an aligned write while BUSY, and 0 exactly by the acceptance of ACK or RESET or a
hardware reset; no completion writes it. -/
def Obligations.HazardFlagIsSticky : Prop :=
  ∀ s t : State, step s = .next t →
    t.haz =
      match nextEvent s with
      | .write a v =>
        if a.toNat % 4 ≠ 0 then s.haz
        else if s.pend.isSome then true
        else if a = 0x10 ∧ (v = 0x00000007 ∨ v = 0x00000001) then false
        else s.haz
      | .hardReset => false
      | .read _ => s.haz
      | .engine => s.haz

/-- R28 to R39: who writes each memory and register. The tables and outputs change by their command or a reset; WBUF,
IBUF, the input lengths and the window registers by a host access while BUSY = 0 or, but for the two buffers under the
RESET command, by a reset. -/
def Obligations.OnlyTheirWritersChangeTheMemories : Prop :=
  ∀ s t : State, step s = .next t →
    (t.node ≠ s.node ∨ t.root ≠ s.root → IsReset s ∨ nextEvent s = .engine ∧ s.pend = some (encode .build)) ∧
    (t.clen ≠ s.clen ∨ t.cbits ≠ s.cbits → IsReset s ∨ nextEvent s = .engine ∧ s.pend = some (encode .derive)) ∧
    (t.obuf ≠ s.obuf ∨ t.olen ≠ s.olen → IsReset s ∨ nextEvent s = .engine ∧ s.pend = some (encode .encode)) ∧
    (t.dbuf ≠ s.dbuf ∨ t.dlen ≠ s.dlen → IsReset s ∨ nextEvent s = .engine ∧ s.pend = some (encode .decode)) ∧
    (t.wbuf ≠ s.wbuf → nextEvent s = .hardReset ∨ s.pend = none ∧ s.msel = 4 ∧ ∃ v, nextEvent s = .write 0x40 v) ∧
    (t.ibuf ≠ s.ibuf → nextEvent s = .hardReset ∨ s.pend = none ∧ s.msel = 6 ∧ ∃ v, nextEvent s = .write 0x40 v) ∧
    (t.wlen ≠ s.wlen → IsReset s ∨ s.pend = none ∧ ∃ v, nextEvent s = .write 0x28 v) ∧
    (t.ilen ≠ s.ilen → IsReset s ∨ s.pend = none ∧ ∃ v, nextEvent s = .write 0x30 v) ∧
    (t.msel ≠ s.msel → IsReset s ∨ s.pend = none ∧ ∃ v, nextEvent s = .write 0x38 v) ∧
    (t.maddr ≠ s.maddr → IsReset s ∨ s.pend = none ∧
      (nextEvent s = .read 0x40 ∨ ∃ v, nextEvent s = .write 0x40 v ∨ nextEvent s = .write 0x3C v))

/-- R136: while BUSY = 1 an aligned write to any offset is dropped, sets HAZ and gets error flag 0; a misaligned one is
refused and does not set HAZ. -/
def Obligations.WritesWhileBusyAreDropped : Prop :=
  ∀ (s : State) (a : BitVec 8) (v : Word), s.pend ≠ none →
    busWrite a v s =
      { s with haz := if a.toNat % 4 = 0 then true else s.haz, rsp := some (.write (decide (a.toNat % 4 ≠ 0))) }

/-- R137: while BUSY = 1 an aligned read of ID, MAXWORD, MAXBITS, CNTW or STATUS returns its value, of CMD or a reserved
offset 0, of any other register a fresh free value; none has another effect. The counter `free`, which numbers the free
values, and `Config.busyRead` are the model's choice of form (assumption 4). -/
def Obligations.ReadsWhileBusy : Prop :=
  ∀ s : State, s.pend ≠ none →
    (∀ r ∈ [Reg.id, .maxword, .maxbits, .cntw, .status],
      busRead (offsetOf r) s = { s with rsp := some (.read (regValue s r) false) }) ∧
    (∀ a : BitVec 8, a.toNat % 4 = 0 → a = 0x10 ∨ 0x44 ≤ a.toNat →
      busRead a s = { s with rsp := some (.read 0 false) }) ∧
    ∀ r ∈ [Reg.errinfo, .total, .nsym, .root, .wlen, .olen, .ilen, .dlen, .msel, .maddr, .mdata],
      busRead (offsetOf r) s = { s with free := s.free + 1, rsp := some (.read (Config.busyRead s.free) false) }

/-! ## Reset -/

/-- R132: a hardware reset gives every piece of state its reset value and abandons the command in flight, STATUS and NSYM
reading 0; the parameters stay; each byte of WBUF and bit of IBUF takes a free value. State.reset has the same values. That
the free values are opaque constants at the number `fill` is the model's choice of form (assumption 5), and so are the
default parameters of State.reset (assumption 3); the model's own fields are left open. -/
def Obligations.HardwareResetValues : Prop :=
  (∀ s : State, nextEvent s = .hardReset → ∃ t, step s = .next t ∧
    t = { params := s.params, phase := .empty, err := false, ecode := .ok, haz := false, errinfo := 0, total := 0,
          root := 0, wlen := 0, olen := 0, ilen := 0, dlen := 0, msel := 0, maddr := 0, freq := [], node := [],
          clen := [], cbits := [], wbuf := [], obuf := [], ibuf := [], dbuf := [], pend := none, rsp := t.rsp,
          agenda := t.agenda, free := t.free, fill := t.fill } ∧
    statusWord t = 0 ∧ nsym t = 0 ∧ (∀ k, nodeAt t k = Node.zero) ∧
    (∀ j, wbufAt t j = Config.wbufPowerUp t.fill j) ∧ ∀ i, ibufAt t i = Config.ibufPowerUp t.fill i) ∧
  statusWord State.reset = 0 ∧ nsym State.reset = 0 ∧
  State.reset =
    { params := { wCnt := 32, maxWord := 256, maxBits := 8192 }, phase := .empty, err := false, ecode := .ok,
      haz := false, errinfo := 0, total := 0, root := 0, wlen := 0, olen := 0, ilen := 0, dlen := 0, msel := 0,
      maddr := 0, freq := [], node := [], clen := [], cbits := [], wbuf := [], obuf := [], ibuf := [], dbuf := [],
      pend := none, rsp := State.reset.rsp, agenda := State.reset.agenda, free := State.reset.free,
      fill := State.reset.fill }

/-! ## Host assembly -/

/-- R69: on an idle block, `loadword` puts the bytes of a word at WBUF[0..] and its length in WLEN, and `loadbits` the
bits at IBUF[0..] and their number in ILEN. -/
def Obligations.LoadStatementsFillTheBuffers : Prop :=
  ∀ s : State, s.pend = none → s.params.legal = true →
    (∀ bs : List Byte, bs.length ≤ s.params.maxWord →
      (performAll s (loadwordStmts bs)).wlen.toNat = bs.length ∧
      ∀ j, (h : j < bs.length) → wbufAt (performAll s (loadwordStmts bs)) j = bs[j]'h) ∧
    ∀ ds : List Bool, ds.length ≤ s.params.maxBits →
      (performAll s (loadbitsStmts ds)).ilen.toNat = ds.length ∧
      ∀ i, (h : i < ds.length) → ibufAt (performAll s (loadbitsStmts ds)) i = ds[i]'h

/-! ## Invariants -/

/-- The invariant of R41, strengthened to hold while a command is in flight too, holds after a hardware reset of a block
with any legal parameters, whatever the model's own fields are, and in State.reset. -/
def Obligations.ResetStateMeetsTheInvariant : Prop :=
  (∀ (p : Params) (agenda : List Event) (free fill : Nat), p.legal = true → Inv (State.resetOf p agenda free fill)) ∧
  Inv State.reset

/-- Every step keeps the parameters legal and every memory canonical and inside its bounds (R6, R27 to R34). -/
def Obligations.EveryStepKeepsTheMemories : Prop :=
  ∀ s t : State, MemoriesOk s → step s = .next t → MemoriesOk t

/-- Every step keeps ERR = (ECODE ≠ 0) and R41 item 6. -/
def Obligations.EveryStepKeepsTheOutputs : Prop :=
  ∀ s t : State, MemoriesOk s → OutcomeOk s → OutputsOk s → step s = .next t → OutcomeOk t ∧ OutputsOk t

/-- Every step keeps R41 items 1 to 3 and the first half of 5 (R72: TOTAL is the sum of the counts). -/
def Obligations.EveryStepKeepsTheCounts : Prop :=
  ∀ s t : State, MemoriesOk s → CountsOk s → StagesOk s → step s = .next t → CountsOk t ∧ StagesOk t

/-- Every step keeps the whole invariant: R41 items 1 to 6, the tree of R77 to R83 and the code book of R87 to R89. -/
def Obligations.EveryStepKeepsTheInvariant : Prop :=
  ∀ s t : State, Inv s → step s = .next t → Inv t
end

