-- ==== Sys2Proof/Laws/Invariant.lean ====
section
/-! SUPPORT. The parts of the invariant depend on the tables they speak of and on nothing else. -/

namespace Sys2Proof.Machine

/-- The tree depends on FREQ, NODE, ROOT and TOTAL alone. -/
theorem TreeOk.congr {s t : State} (hs : TreeOk s) (hf : t.freq = s.freq) (hn : t.node = s.node) (hr : t.root = s.root)
    (ht : t.total = s.total) : TreeOk t := by
  cases s; cases t
  simp only at hf hn hr ht
  subst hf hn hr ht
  exact ⟨hs.size, hs.leaves, fun m h1 h2 => ⟨(hs.inner m h1 h2).valid, (hs.inner m h1 h2).inner, (hs.inner m h1 h2).sym,
    (hs.inner m h1 h2).left, (hs.inner m h1 h2).right, (hs.inner m h1 h2).order, (hs.inner m h1 h2).sum⟩, hs.rest, hs.root,
    hs.parents, hs.total⟩

/-- The code book depends on FREQ, NODE, ROOT, CLEN and CBITS alone. -/
theorem BookOk.congr {s t : State} (hs : BookOk s) (hf : t.freq = s.freq) (hn : t.node = s.node) (hr : t.root = s.root)
    (hl : t.clen = s.clen) (hb : t.cbits = s.cbits) : BookOk t := by
  cases s; cases t
  simp only at hf hn hr hl hb
  subst hf hn hr hl hb
  exact ⟨hs.codes, hs.absent, hs.tail⟩

/-- The counts' part depends on the parameters, PHASE, TOTAL and FREQ alone. -/
theorem CountsOk.congr {s t : State} (hs : CountsOk s) (hp : t.params = s.params) (hh : t.phase = s.phase)
    (ht : t.total = s.total) (hf : t.freq = s.freq) : CountsOk t := by
  cases s; cases t
  simp only at hp hh ht hf
  subst hp hh ht hf
  exact ⟨hs.sum, hs.width, hs.phase⟩

end Sys2Proof.Machine
end

