-- ==== Sys2Proof/Laws/Memory.lean ====
section
/-! SUPPORT. What each operation on an internal memory does, and that it keeps the canonical form. -/

namespace Sys2Proof.Machine

variable {α : Type}

/-! ## What a cell reads after an operation -/

@[simp] theorem Memory.cell?_nil (k : Nat) : Memory.cell? ([] : Memory α) k = none := rfl

theorem Memory.cell?_cons (a : Nat) (v : α) (m : Memory α) (k : Nat) :
    Memory.cell? ((a, v) :: m) k = if a = k then some v else Memory.cell? m k := rfl

@[simp] theorem Memory.read_nil (z : α) (k : Nat) : Memory.read z ([] : Memory α) k = z := rfl

theorem Memory.cell?_put (m : Memory α) (k : Nat) (v : α) (j : Nat) :
    Memory.cell? (Memory.put m k v) j = if j = k then some v else Memory.cell? m j := by
  induction m with
  | nil => simp only [Memory.put, Memory.cell?, eq_comm]
  | cons c m ih =>
    obtain ⟨a, w⟩ := c
    simp only [Memory.put]
    split
    · simp only [Memory.cell?, eq_comm]
    · split
      · rename_i h
        subst h
        by_cases hj : j = a
        · simp [Memory.cell?, hj]
        · simp [Memory.cell?, hj, Ne.symm hj]
      · simp only [Memory.cell?, ih]
        split <;> split <;> simp_all

/-- In a rising list, an index below every listed one is not listed. -/
theorem Memory.cell?_eq_none_of_lt (m : Memory α) (k : Nat) (h : ∀ c ∈ m, k < c.1) : Memory.cell? m k = none := by
  induction m with
  | nil => rfl
  | cons c m ih =>
    have hc := h c (by simp)
    simp only [Memory.cell?, if_neg (Nat.ne_of_gt hc)]
    exact ih (fun d hd => h d (by simp [hd]))

theorem Memory.cell?_omit (m : Memory α) (hm : Memory.rising m) (k j : Nat) :
    Memory.cell? (Memory.omit m k) j = if j = k then none else Memory.cell? m j := by
  induction m with
  | nil => simp [Memory.omit]
  | cons c m ih =>
    obtain ⟨a, w⟩ := c
    have hm' := List.pairwise_cons.1 hm
    simp only [Memory.omit]
    split
    · subst_vars
      by_cases hj : j = a
      · subst hj
        simp only [if_pos]
        exact Memory.cell?_eq_none_of_lt m j (fun d hd => hm'.1 d hd)
      · simp only [Memory.cell?, if_neg hj, if_neg (fun h => hj (Eq.symm h))]
    · simp only [Memory.cell?, ih hm'.2]
      split <;> split <;> simp_all

/-- A cell that is found stands in the list. -/
theorem Memory.mem_of_cell? (m : Memory α) (k : Nat) (v : α) (h : Memory.cell? m k = some v) : (k, v) ∈ m := by
  induction m with
  | nil => simp at h
  | cons c m ih =>
    obtain ⟨a, w⟩ := c
    simp only [Memory.cell?] at h
    split at h
    · subst_vars; simp_all
    · simp [ih h]

/-- No cell is found at or beyond a bound of the memory. -/
theorem Memory.cell?_eq_none_of_within (n : Nat) (m : Memory α) (hm : Memory.within n m) (k : Nat) (hk : n ≤ k) :
    Memory.cell? m k = none := by
  cases h : Memory.cell? m k with
  | none => rfl
  | some v => exact absurd (hm _ (Memory.mem_of_cell? m k v h)) (by simp; omega)

/-- Read after write. -/
theorem Memory.read_write [DecidableEq α] (z : α) (m : Memory α) (hm : Memory.rising m) (k : Nat) (v : α) (j : Nat) :
    Memory.read z (Memory.write z m k v) j = if j = k then v else Memory.read z m j := by
  unfold Memory.write Memory.read
  split
  · rw [Memory.cell?_omit m hm]
    split <;> simp_all
  · rw [Memory.cell?_put]
    split <;> simp

/-! ## The canonical form -/

theorem Memory.fst_mem_put (m : Memory α) (k : Nat) (v : α) (c : Nat × α) (h : c ∈ Memory.put m k v) :
    c = (k, v) ∨ c ∈ m := by
  induction m with
  | nil => simp_all [Memory.put]
  | cons d m ih =>
    obtain ⟨a, w⟩ := d
    simp only [Memory.put] at h
    split at h
    · simpa using h
    · split at h
      · rcases List.mem_cons.1 h with h | h
        · exact .inl h
        · exact .inr (List.mem_cons_of_mem _ h)
      · rcases List.mem_cons.1 h with h | h
        · exact .inr (h ▸ List.mem_cons_self)
        · exact (ih h).imp id (List.mem_cons_of_mem _)

theorem Memory.mem_of_mem_omit (m : Memory α) (k : Nat) (c : Nat × α) (h : c ∈ Memory.omit m k) : c ∈ m := by
  induction m with
  | nil => simp_all [Memory.omit]
  | cons d m ih =>
    obtain ⟨a, w⟩ := d
    simp only [Memory.omit] at h
    split at h
    · exact List.mem_cons_of_mem _ h
    · rcases List.mem_cons.1 h with h | h
      · exact h ▸ List.mem_cons_self
      · exact List.mem_cons_of_mem _ (ih h)

theorem Memory.rising_put (m : Memory α) (hm : Memory.rising m) (k : Nat) (v : α) : Memory.rising (Memory.put m k v) := by
  induction m with
  | nil => simp [Memory.put, Memory.rising]
  | cons d m ih =>
    obtain ⟨a, w⟩ := d
    have hm' := List.pairwise_cons.1 hm
    simp only [Memory.put]
    split
    · rename_i h
      refine List.pairwise_cons.2 ⟨fun c hc => ?_, hm⟩
      rcases List.mem_cons.1 hc with rfl | hc
      · exact h
      · exact Nat.lt_trans h (hm'.1 c hc)
    · split
      · rename_i h
        subst h
        exact List.pairwise_cons.2 ⟨hm'.1, hm'.2⟩
      · rename_i h1 h2
        refine List.pairwise_cons.2 ⟨fun c hc => ?_, ih hm'.2⟩
        rcases Memory.fst_mem_put m k v c hc with rfl | hc
        · exact Nat.lt_of_le_of_ne (Nat.not_lt.1 h1) h2
        · exact hm'.1 c hc

theorem Memory.rising_omit (m : Memory α) (hm : Memory.rising m) (k : Nat) : Memory.rising (Memory.omit m k) := by
  induction m with
  | nil => simp [Memory.omit, Memory.rising]
  | cons d m ih =>
    obtain ⟨a, w⟩ := d
    have hm' := List.pairwise_cons.1 hm
    simp only [Memory.omit]
    split
    · exact hm'.2
    · exact List.pairwise_cons.2 ⟨fun c hc => hm'.1 c (Memory.mem_of_mem_omit m k c hc), ih hm'.2⟩

/-- A write keeps the canonical form. -/
theorem Memory.wf_write [DecidableEq α] (z : α) (m : Memory α) (hm : Memory.wf z m) (k : Nat) (v : α) :
    Memory.wf z (Memory.write z m k v) := by
  unfold Memory.write
  split
  · exact ⟨Memory.rising_omit m hm.1 k, fun c hc => hm.2 c (Memory.mem_of_mem_omit m k c hc)⟩
  · rename_i hv
    refine ⟨Memory.rising_put m hm.1 k v, fun c hc => ?_⟩
    rcases Memory.fst_mem_put m k v c hc with rfl | hc
    · exact hv
    · exact hm.2 c hc

theorem Memory.within_put (n : Nat) (m : Memory α) (hm : Memory.within n m) (k : Nat) (hk : k < n) (v : α) :
    Memory.within n (Memory.put m k v) := fun c hc => by
  rcases Memory.fst_mem_put m k v c hc with rfl | hc
  · exact hk
  · exact hm c hc

theorem Memory.within_write [DecidableEq α] (z : α) (n : Nat) (m : Memory α) (hm : Memory.within n m) (k : Nat)
    (hk : k < n) (v : α) : Memory.within n (Memory.write z m k v) := by
  unfold Memory.write
  split
  · exact fun c hc => hm c (Memory.mem_of_mem_omit m k c hc)
  · exact Memory.within_put n m hm k hk v

@[simp] theorem Memory.wf_nil (z : α) : Memory.wf z ([] : Memory α) := by simp [Memory.wf, Memory.rising]

/-! ## Writing a list of elements -/

theorem Memory.wf_writeList [DecidableEq α] (z : α) (xs : List α) (m : Memory α) (hm : Memory.wf z m) (k : Nat) :
    Memory.wf z (Memory.writeList z m k xs) := by
  induction xs generalizing m k with
  | nil => exact hm
  | cons x xs ih => exact ih _ (Memory.wf_write z m hm k x) _

theorem Memory.within_writeList [DecidableEq α] (z : α) (n : Nat) (xs : List α) (m : Memory α) (hm : Memory.within n m)
    (k : Nat) (hk : k + xs.length ≤ n) : Memory.within n (Memory.writeList z m k xs) := by
  induction xs generalizing m k with
  | nil => exact hm
  | cons x xs ih =>
    simp only [List.length_cons] at hk
    exact ih _ (Memory.within_write z n m hm k (by omega) x) _ (by omega)

/-- Element `j` after `M[k + t] <- xs[t]`. -/
theorem Memory.read_writeList [DecidableEq α] (z : α) (xs : List α) (m : Memory α) (hm : Memory.wf z m) (k j : Nat) :
    Memory.read z (Memory.writeList z m k xs) j =
      if k ≤ j ∧ j < k + xs.length then xs.getD (j - k) z else Memory.read z m j := by
  induction xs generalizing m k with
  | nil => rw [if_neg (by simp)]; rfl
  | cons x xs ih =>
    simp only [Memory.writeList, ih _ (Memory.wf_write z m hm k x), Memory.read_write z m hm.1, List.length_cons]
    by_cases h1 : j = k
    · subst h1; simp
    · by_cases h2 : k ≤ j ∧ j < k + (xs.length + 1)
      · rw [if_pos h2, if_pos (by omega)]
        obtain ⟨d, hd⟩ : ∃ d, j - k = d + 1 := ⟨j - k - 1, by omega⟩
        rw [hd, show j - (k + 1) = d by omega, List.getD_cons_succ]
      · rw [if_neg h2, if_neg (by omega), if_neg h1]

theorem Memory.rising_putList (cap : Nat) (xs : List α) (m : Memory α) (hm : Memory.rising m) (k : Nat) :
    Memory.rising (Memory.putList cap m k xs) := by
  induction xs generalizing m k with
  | nil => exact hm
  | cons x xs ih =>
    simp only [Memory.putList]
    split
    · exact ih _ (Memory.rising_put m hm k x) _
    · exact ih _ hm _

theorem Memory.within_putList (cap : Nat) (xs : List α) (m : Memory α) (hm : Memory.within cap m) (k : Nat) :
    Memory.within cap (Memory.putList cap m k xs) := by
  induction xs generalizing m k with
  | nil => exact hm
  | cons x xs ih =>
    simp only [Memory.putList]
    split
    · rename_i h
      exact ih _ (Memory.within_put cap m hm k h x) _
    · exact ih _ hm _

/-- The cell at `j` after `M[k + t] <- xs[t]` for every `k + t < cap`. -/
theorem Memory.cell?_putList (cap : Nat) (xs : List α) (m : Memory α) (k j : Nat) :
    Memory.cell? (Memory.putList cap m k xs) j =
      if k ≤ j ∧ j < k + xs.length ∧ j < cap then xs[j - k]? else Memory.cell? m j := by
  induction xs generalizing m k with
  | nil => rw [if_neg (by simp; omega)]; rfl
  | cons x xs ih =>
    simp only [Memory.putList, ih, List.length_cons]
    by_cases h1 : j = k
    · subst h1
      by_cases h2 : j < cap
      · simp [h2, Memory.cell?_put]
      · simp [h2]
    · have hput : Memory.cell? (if k < cap then Memory.put m k x else m) j = Memory.cell? m j := by
        split
        · simp [Memory.cell?_put, h1]
        · rfl
      rw [hput]
      by_cases h2 : k ≤ j ∧ j < k + (xs.length + 1) ∧ j < cap
      · rw [if_pos h2, if_pos (by omega)]
        obtain ⟨d, hd⟩ : ∃ d, j - k = d + 1 := ⟨j - k - 1, by omega⟩
        rw [hd, show j - (k + 1) = d by omega, List.getElem?_cons_succ]
      · rw [if_neg h2, if_neg (by omega)]

/-- Canonical memories that read the same are the same list. -/
theorem Memory.eq_of_read_eq [DecidableEq α] (z : α) (m m' : Memory α) (hm : Memory.wf z m) (hm' : Memory.wf z m')
    (h : ∀ k, Memory.read z m k = Memory.read z m' k) : m = m' := by
  have head : ∀ (a : Nat) (v : α) (l : Memory α), Memory.wf z ((a, v) :: l) → Memory.read z ((a, v) :: l) a ≠ z :=
    fun a v l hl => by simpa [Memory.read, Memory.cell?] using hl.2 (a, v) (by simp)
  have below : ∀ (a : Nat) (v : α) (l : Memory α) (j : Nat), Memory.wf z ((a, v) :: l) → j < a →
      Memory.read z ((a, v) :: l) j = z := fun a v l j hl hj => by
    have hp := List.pairwise_cons.1 hl.1
    have : Memory.cell? ((a, v) :: l) j = none := Memory.cell?_eq_none_of_lt _ _ (fun c hc => by
      rcases List.mem_cons.1 hc with rfl | hc
      · exact hj
      · exact Nat.lt_trans hj (hp.1 c hc))
    simp [Memory.read, this]
  induction m generalizing m' with
  | nil =>
    cases m' with
    | nil => rfl
    | cons c m' => exact absurd ((h c.1).symm) (head c.1 c.2 m' hm')
  | cons c m ih =>
    obtain ⟨a, v⟩ := c
    cases m' with
    | nil => exact absurd (h a) (head a v m hm)
    | cons c' m' =>
      obtain ⟨a', v'⟩ := c'
      have hp := List.pairwise_cons.1 hm.1
      have hp' := List.pairwise_cons.1 hm'.1
      have haa : a = a' := by
        rcases Nat.lt_trichotomy a a' with hlt | heq | hgt
        · exact absurd ((h a).trans (below a' v' m' a hm' hlt)) (head a v m hm)
        · exact heq
        · exact absurd ((h a').symm.trans (below a v m a' hm hgt)) (head a' v' m' hm')
      subst haa
      have hvv : v = v' := by simpa [Memory.read, Memory.cell?] using h a
      subst hvv
      have tail : m = m' := ih m' ⟨hp.2, fun c hc => hm.2 c (by simp [hc])⟩
        ⟨hp'.2, fun c hc => hm'.2 c (by simp [hc])⟩ (fun k => by
          by_cases hk : k = a
          · subst hk
            simp [Memory.read, Memory.cell?_eq_none_of_lt m k hp.1, Memory.cell?_eq_none_of_lt m' k hp'.1]
          · have := h k
            simpa [Memory.read, Memory.cell?, Ne.symm hk] using this)
      rw [tail]

end Sys2Proof.Machine
end

