-- ==== Sys2Proof/Laws/State.lean ====
section
/-! SUPPORT. What each update of the state leaves in each field, one lemma a field, true by rfl. -/

namespace Sys2Proof.Machine

/-! ## complete -/

@[simp] theorem complete_params (s : State) : (complete s).params = s.params := rfl
@[simp] theorem complete_phase (s : State) : (complete s).phase = s.phase := rfl
@[simp] theorem complete_err (s : State) : (complete s).err = false := rfl
@[simp] theorem complete_ecode (s : State) : (complete s).ecode = .ok := rfl
@[simp] theorem complete_haz (s : State) : (complete s).haz = s.haz := rfl
@[simp] theorem complete_errinfo (s : State) : (complete s).errinfo = 0 := rfl
@[simp] theorem complete_total (s : State) : (complete s).total = s.total := rfl
@[simp] theorem complete_root (s : State) : (complete s).root = s.root := rfl
@[simp] theorem complete_wlen (s : State) : (complete s).wlen = s.wlen := rfl
@[simp] theorem complete_olen (s : State) : (complete s).olen = s.olen := rfl
@[simp] theorem complete_ilen (s : State) : (complete s).ilen = s.ilen := rfl
@[simp] theorem complete_dlen (s : State) : (complete s).dlen = s.dlen := rfl
@[simp] theorem complete_msel (s : State) : (complete s).msel = s.msel := rfl
@[simp] theorem complete_maddr (s : State) : (complete s).maddr = s.maddr := rfl
@[simp] theorem complete_freq (s : State) : (complete s).freq = s.freq := rfl
@[simp] theorem complete_node (s : State) : (complete s).node = s.node := rfl
@[simp] theorem complete_clen (s : State) : (complete s).clen = s.clen := rfl
@[simp] theorem complete_cbits (s : State) : (complete s).cbits = s.cbits := rfl
@[simp] theorem complete_wbuf (s : State) : (complete s).wbuf = s.wbuf := rfl
@[simp] theorem complete_obuf (s : State) : (complete s).obuf = s.obuf := rfl
@[simp] theorem complete_ibuf (s : State) : (complete s).ibuf = s.ibuf := rfl
@[simp] theorem complete_dbuf (s : State) : (complete s).dbuf = s.dbuf := rfl
@[simp] theorem complete_pend (s : State) : (complete s).pend = none := rfl
@[simp] theorem complete_rsp (s : State) : (complete s).rsp = s.rsp := rfl
@[simp] theorem complete_agenda (s : State) : (complete s).agenda = s.agenda := rfl
@[simp] theorem complete_free (s : State) : (complete s).free = s.free := rfl
@[simp] theorem complete_fill (s : State) : (complete s).fill = s.fill := rfl

/-! ## raise -/

@[simp] theorem raise_params (e : ErrCode) (w : Word) (s : State) : (raise e w s).params = s.params := rfl
@[simp] theorem raise_phase (e : ErrCode) (w : Word) (s : State) : (raise e w s).phase = s.phase := rfl
@[simp] theorem raise_err (e : ErrCode) (w : Word) (s : State) : (raise e w s).err = true := rfl
@[simp] theorem raise_ecode (e : ErrCode) (w : Word) (s : State) : (raise e w s).ecode = e := rfl
@[simp] theorem raise_haz (e : ErrCode) (w : Word) (s : State) : (raise e w s).haz = s.haz := rfl
@[simp] theorem raise_errinfo (e : ErrCode) (w : Word) (s : State) : (raise e w s).errinfo = w := rfl
@[simp] theorem raise_total (e : ErrCode) (w : Word) (s : State) : (raise e w s).total = s.total := rfl
@[simp] theorem raise_root (e : ErrCode) (w : Word) (s : State) : (raise e w s).root = s.root := rfl
@[simp] theorem raise_wlen (e : ErrCode) (w : Word) (s : State) : (raise e w s).wlen = s.wlen := rfl
@[simp] theorem raise_olen (e : ErrCode) (w : Word) (s : State) : (raise e w s).olen = s.olen := rfl
@[simp] theorem raise_ilen (e : ErrCode) (w : Word) (s : State) : (raise e w s).ilen = s.ilen := rfl
@[simp] theorem raise_dlen (e : ErrCode) (w : Word) (s : State) : (raise e w s).dlen = s.dlen := rfl
@[simp] theorem raise_msel (e : ErrCode) (w : Word) (s : State) : (raise e w s).msel = s.msel := rfl
@[simp] theorem raise_maddr (e : ErrCode) (w : Word) (s : State) : (raise e w s).maddr = s.maddr := rfl
@[simp] theorem raise_freq (e : ErrCode) (w : Word) (s : State) : (raise e w s).freq = s.freq := rfl
@[simp] theorem raise_node (e : ErrCode) (w : Word) (s : State) : (raise e w s).node = s.node := rfl
@[simp] theorem raise_clen (e : ErrCode) (w : Word) (s : State) : (raise e w s).clen = s.clen := rfl
@[simp] theorem raise_cbits (e : ErrCode) (w : Word) (s : State) : (raise e w s).cbits = s.cbits := rfl
@[simp] theorem raise_wbuf (e : ErrCode) (w : Word) (s : State) : (raise e w s).wbuf = s.wbuf := rfl
@[simp] theorem raise_obuf (e : ErrCode) (w : Word) (s : State) : (raise e w s).obuf = s.obuf := rfl
@[simp] theorem raise_ibuf (e : ErrCode) (w : Word) (s : State) : (raise e w s).ibuf = s.ibuf := rfl
@[simp] theorem raise_dbuf (e : ErrCode) (w : Word) (s : State) : (raise e w s).dbuf = s.dbuf := rfl
@[simp] theorem raise_pend (e : ErrCode) (w : Word) (s : State) : (raise e w s).pend = none := rfl
@[simp] theorem raise_rsp (e : ErrCode) (w : Word) (s : State) : (raise e w s).rsp = s.rsp := rfl
@[simp] theorem raise_agenda (e : ErrCode) (w : Word) (s : State) : (raise e w s).agenda = s.agenda := rfl
@[simp] theorem raise_free (e : ErrCode) (w : Word) (s : State) : (raise e w s).free = s.free := rfl
@[simp] theorem raise_fill (e : ErrCode) (w : Word) (s : State) : (raise e w s).fill = s.fill := rfl

/-! ## accept -/

@[simp] theorem accept_params (w : Word) (s : State) : (accept w s).params = s.params := rfl
@[simp] theorem accept_phase (w : Word) (s : State) : (accept w s).phase = s.phase := rfl
@[simp] theorem accept_err (w : Word) (s : State) : (accept w s).err = s.err := rfl
@[simp] theorem accept_ecode (w : Word) (s : State) : (accept w s).ecode = s.ecode := rfl
@[simp] theorem accept_haz (w : Word) (s : State) : (accept w s).haz = if clearsHazard w then false else s.haz := rfl
@[simp] theorem accept_errinfo (w : Word) (s : State) : (accept w s).errinfo = s.errinfo := rfl
@[simp] theorem accept_total (w : Word) (s : State) : (accept w s).total = s.total := rfl
@[simp] theorem accept_root (w : Word) (s : State) : (accept w s).root = s.root := rfl
@[simp] theorem accept_wlen (w : Word) (s : State) : (accept w s).wlen = s.wlen := rfl
@[simp] theorem accept_olen (w : Word) (s : State) : (accept w s).olen = s.olen := rfl
@[simp] theorem accept_ilen (w : Word) (s : State) : (accept w s).ilen = s.ilen := rfl
@[simp] theorem accept_dlen (w : Word) (s : State) : (accept w s).dlen = s.dlen := rfl
@[simp] theorem accept_msel (w : Word) (s : State) : (accept w s).msel = s.msel := rfl
@[simp] theorem accept_maddr (w : Word) (s : State) : (accept w s).maddr = s.maddr := rfl
@[simp] theorem accept_freq (w : Word) (s : State) : (accept w s).freq = s.freq := rfl
@[simp] theorem accept_node (w : Word) (s : State) : (accept w s).node = s.node := rfl
@[simp] theorem accept_clen (w : Word) (s : State) : (accept w s).clen = s.clen := rfl
@[simp] theorem accept_cbits (w : Word) (s : State) : (accept w s).cbits = s.cbits := rfl
@[simp] theorem accept_wbuf (w : Word) (s : State) : (accept w s).wbuf = s.wbuf := rfl
@[simp] theorem accept_obuf (w : Word) (s : State) : (accept w s).obuf = s.obuf := rfl
@[simp] theorem accept_ibuf (w : Word) (s : State) : (accept w s).ibuf = s.ibuf := rfl
@[simp] theorem accept_dbuf (w : Word) (s : State) : (accept w s).dbuf = s.dbuf := rfl
@[simp] theorem accept_pend (w : Word) (s : State) : (accept w s).pend = some w := rfl
@[simp] theorem accept_rsp (w : Word) (s : State) : (accept w s).rsp = s.rsp := rfl
@[simp] theorem accept_agenda (w : Word) (s : State) : (accept w s).agenda = s.agenda := rfl
@[simp] theorem accept_free (w : Word) (s : State) : (accept w s).free = s.free := rfl
@[simp] theorem accept_fill (w : Word) (s : State) : (accept w s).fill = s.fill := rfl

/-! ## advance -/

@[simp] theorem advance_params (s : State) : (advance s).params = s.params := rfl
@[simp] theorem advance_phase (s : State) : (advance s).phase = s.phase := rfl
@[simp] theorem advance_err (s : State) : (advance s).err = s.err := rfl
@[simp] theorem advance_ecode (s : State) : (advance s).ecode = s.ecode := rfl
@[simp] theorem advance_haz (s : State) : (advance s).haz = s.haz := rfl
@[simp] theorem advance_errinfo (s : State) : (advance s).errinfo = s.errinfo := rfl
@[simp] theorem advance_total (s : State) : (advance s).total = s.total := rfl
@[simp] theorem advance_root (s : State) : (advance s).root = s.root := rfl
@[simp] theorem advance_wlen (s : State) : (advance s).wlen = s.wlen := rfl
@[simp] theorem advance_olen (s : State) : (advance s).olen = s.olen := rfl
@[simp] theorem advance_ilen (s : State) : (advance s).ilen = s.ilen := rfl
@[simp] theorem advance_dlen (s : State) : (advance s).dlen = s.dlen := rfl
@[simp] theorem advance_msel (s : State) : (advance s).msel = s.msel := rfl
@[simp] theorem advance_maddr (s : State) : (advance s).maddr = s.maddr := rfl
@[simp] theorem advance_freq (s : State) : (advance s).freq = s.freq := rfl
@[simp] theorem advance_node (s : State) : (advance s).node = s.node := rfl
@[simp] theorem advance_clen (s : State) : (advance s).clen = s.clen := rfl
@[simp] theorem advance_cbits (s : State) : (advance s).cbits = s.cbits := rfl
@[simp] theorem advance_wbuf (s : State) : (advance s).wbuf = s.wbuf := rfl
@[simp] theorem advance_obuf (s : State) : (advance s).obuf = s.obuf := rfl
@[simp] theorem advance_ibuf (s : State) : (advance s).ibuf = s.ibuf := rfl
@[simp] theorem advance_dbuf (s : State) : (advance s).dbuf = s.dbuf := rfl
@[simp] theorem advance_pend (s : State) : (advance s).pend = s.pend := rfl
@[simp] theorem advance_rsp (s : State) : (advance s).rsp = none := rfl
@[simp] theorem advance_agenda (s : State) : (advance s).agenda = s.agenda.tail := rfl
@[simp] theorem advance_free (s : State) : (advance s).free = s.free := rfl
@[simp] theorem advance_fill (s : State) : (advance s).fill = s.fill := rfl

/-! ## respond -/

@[simp] theorem respond_params (r : Response) (s : State) : (respond r s).params = s.params := rfl
@[simp] theorem respond_phase (r : Response) (s : State) : (respond r s).phase = s.phase := rfl
@[simp] theorem respond_err (r : Response) (s : State) : (respond r s).err = s.err := rfl
@[simp] theorem respond_ecode (r : Response) (s : State) : (respond r s).ecode = s.ecode := rfl
@[simp] theorem respond_haz (r : Response) (s : State) : (respond r s).haz = s.haz := rfl
@[simp] theorem respond_errinfo (r : Response) (s : State) : (respond r s).errinfo = s.errinfo := rfl
@[simp] theorem respond_total (r : Response) (s : State) : (respond r s).total = s.total := rfl
@[simp] theorem respond_root (r : Response) (s : State) : (respond r s).root = s.root := rfl
@[simp] theorem respond_wlen (r : Response) (s : State) : (respond r s).wlen = s.wlen := rfl
@[simp] theorem respond_olen (r : Response) (s : State) : (respond r s).olen = s.olen := rfl
@[simp] theorem respond_ilen (r : Response) (s : State) : (respond r s).ilen = s.ilen := rfl
@[simp] theorem respond_dlen (r : Response) (s : State) : (respond r s).dlen = s.dlen := rfl
@[simp] theorem respond_msel (r : Response) (s : State) : (respond r s).msel = s.msel := rfl
@[simp] theorem respond_maddr (r : Response) (s : State) : (respond r s).maddr = s.maddr := rfl
@[simp] theorem respond_freq (r : Response) (s : State) : (respond r s).freq = s.freq := rfl
@[simp] theorem respond_node (r : Response) (s : State) : (respond r s).node = s.node := rfl
@[simp] theorem respond_clen (r : Response) (s : State) : (respond r s).clen = s.clen := rfl
@[simp] theorem respond_cbits (r : Response) (s : State) : (respond r s).cbits = s.cbits := rfl
@[simp] theorem respond_wbuf (r : Response) (s : State) : (respond r s).wbuf = s.wbuf := rfl
@[simp] theorem respond_obuf (r : Response) (s : State) : (respond r s).obuf = s.obuf := rfl
@[simp] theorem respond_ibuf (r : Response) (s : State) : (respond r s).ibuf = s.ibuf := rfl
@[simp] theorem respond_dbuf (r : Response) (s : State) : (respond r s).dbuf = s.dbuf := rfl
@[simp] theorem respond_pend (r : Response) (s : State) : (respond r s).pend = s.pend := rfl
@[simp] theorem respond_rsp (r : Response) (s : State) : (respond r s).rsp = some r := rfl
@[simp] theorem respond_agenda (r : Response) (s : State) : (respond r s).agenda = s.agenda := rfl
@[simp] theorem respond_free (r : Response) (s : State) : (respond r s).free = s.free := rfl
@[simp] theorem respond_fill (r : Response) (s : State) : (respond r s).fill = s.fill := rfl

/-! ## stepMaddr -/

@[simp] theorem stepMaddr_params (s : State) : (stepMaddr s).params = s.params := rfl
@[simp] theorem stepMaddr_phase (s : State) : (stepMaddr s).phase = s.phase := rfl
@[simp] theorem stepMaddr_err (s : State) : (stepMaddr s).err = s.err := rfl
@[simp] theorem stepMaddr_ecode (s : State) : (stepMaddr s).ecode = s.ecode := rfl
@[simp] theorem stepMaddr_haz (s : State) : (stepMaddr s).haz = s.haz := rfl
@[simp] theorem stepMaddr_errinfo (s : State) : (stepMaddr s).errinfo = s.errinfo := rfl
@[simp] theorem stepMaddr_total (s : State) : (stepMaddr s).total = s.total := rfl
@[simp] theorem stepMaddr_root (s : State) : (stepMaddr s).root = s.root := rfl
@[simp] theorem stepMaddr_wlen (s : State) : (stepMaddr s).wlen = s.wlen := rfl
@[simp] theorem stepMaddr_olen (s : State) : (stepMaddr s).olen = s.olen := rfl
@[simp] theorem stepMaddr_ilen (s : State) : (stepMaddr s).ilen = s.ilen := rfl
@[simp] theorem stepMaddr_dlen (s : State) : (stepMaddr s).dlen = s.dlen := rfl
@[simp] theorem stepMaddr_msel (s : State) : (stepMaddr s).msel = s.msel := rfl
@[simp] theorem stepMaddr_maddr (s : State) : (stepMaddr s).maddr = s.maddr + 1 := rfl
@[simp] theorem stepMaddr_freq (s : State) : (stepMaddr s).freq = s.freq := rfl
@[simp] theorem stepMaddr_node (s : State) : (stepMaddr s).node = s.node := rfl
@[simp] theorem stepMaddr_clen (s : State) : (stepMaddr s).clen = s.clen := rfl
@[simp] theorem stepMaddr_cbits (s : State) : (stepMaddr s).cbits = s.cbits := rfl
@[simp] theorem stepMaddr_wbuf (s : State) : (stepMaddr s).wbuf = s.wbuf := rfl
@[simp] theorem stepMaddr_obuf (s : State) : (stepMaddr s).obuf = s.obuf := rfl
@[simp] theorem stepMaddr_ibuf (s : State) : (stepMaddr s).ibuf = s.ibuf := rfl
@[simp] theorem stepMaddr_dbuf (s : State) : (stepMaddr s).dbuf = s.dbuf := rfl
@[simp] theorem stepMaddr_pend (s : State) : (stepMaddr s).pend = s.pend := rfl
@[simp] theorem stepMaddr_rsp (s : State) : (stepMaddr s).rsp = s.rsp := rfl
@[simp] theorem stepMaddr_agenda (s : State) : (stepMaddr s).agenda = s.agenda := rfl
@[simp] theorem stepMaddr_free (s : State) : (stepMaddr s).free = s.free := rfl
@[simp] theorem stepMaddr_fill (s : State) : (stepMaddr s).fill = s.fill := rfl

/-! ## clearEncoded -/

@[simp] theorem clearEncoded_params (s : State) : (clearEncoded s).params = s.params := rfl
@[simp] theorem clearEncoded_phase (s : State) : (clearEncoded s).phase = s.phase := rfl
@[simp] theorem clearEncoded_err (s : State) : (clearEncoded s).err = s.err := rfl
@[simp] theorem clearEncoded_ecode (s : State) : (clearEncoded s).ecode = s.ecode := rfl
@[simp] theorem clearEncoded_haz (s : State) : (clearEncoded s).haz = s.haz := rfl
@[simp] theorem clearEncoded_errinfo (s : State) : (clearEncoded s).errinfo = s.errinfo := rfl
@[simp] theorem clearEncoded_total (s : State) : (clearEncoded s).total = s.total := rfl
@[simp] theorem clearEncoded_root (s : State) : (clearEncoded s).root = s.root := rfl
@[simp] theorem clearEncoded_wlen (s : State) : (clearEncoded s).wlen = s.wlen := rfl
@[simp] theorem clearEncoded_olen (s : State) : (clearEncoded s).olen = 0 := rfl
@[simp] theorem clearEncoded_ilen (s : State) : (clearEncoded s).ilen = s.ilen := rfl
@[simp] theorem clearEncoded_dlen (s : State) : (clearEncoded s).dlen = s.dlen := rfl
@[simp] theorem clearEncoded_msel (s : State) : (clearEncoded s).msel = s.msel := rfl
@[simp] theorem clearEncoded_maddr (s : State) : (clearEncoded s).maddr = s.maddr := rfl
@[simp] theorem clearEncoded_freq (s : State) : (clearEncoded s).freq = s.freq := rfl
@[simp] theorem clearEncoded_node (s : State) : (clearEncoded s).node = s.node := rfl
@[simp] theorem clearEncoded_clen (s : State) : (clearEncoded s).clen = s.clen := rfl
@[simp] theorem clearEncoded_cbits (s : State) : (clearEncoded s).cbits = s.cbits := rfl
@[simp] theorem clearEncoded_wbuf (s : State) : (clearEncoded s).wbuf = s.wbuf := rfl
@[simp] theorem clearEncoded_obuf (s : State) : (clearEncoded s).obuf = [] := rfl
@[simp] theorem clearEncoded_ibuf (s : State) : (clearEncoded s).ibuf = s.ibuf := rfl
@[simp] theorem clearEncoded_dbuf (s : State) : (clearEncoded s).dbuf = s.dbuf := rfl
@[simp] theorem clearEncoded_pend (s : State) : (clearEncoded s).pend = s.pend := rfl
@[simp] theorem clearEncoded_rsp (s : State) : (clearEncoded s).rsp = s.rsp := rfl
@[simp] theorem clearEncoded_agenda (s : State) : (clearEncoded s).agenda = s.agenda := rfl
@[simp] theorem clearEncoded_free (s : State) : (clearEncoded s).free = s.free := rfl
@[simp] theorem clearEncoded_fill (s : State) : (clearEncoded s).fill = s.fill := rfl

/-! ## clearDecoded -/

@[simp] theorem clearDecoded_params (s : State) : (clearDecoded s).params = s.params := rfl
@[simp] theorem clearDecoded_phase (s : State) : (clearDecoded s).phase = s.phase := rfl
@[simp] theorem clearDecoded_err (s : State) : (clearDecoded s).err = s.err := rfl
@[simp] theorem clearDecoded_ecode (s : State) : (clearDecoded s).ecode = s.ecode := rfl
@[simp] theorem clearDecoded_haz (s : State) : (clearDecoded s).haz = s.haz := rfl
@[simp] theorem clearDecoded_errinfo (s : State) : (clearDecoded s).errinfo = s.errinfo := rfl
@[simp] theorem clearDecoded_total (s : State) : (clearDecoded s).total = s.total := rfl
@[simp] theorem clearDecoded_root (s : State) : (clearDecoded s).root = s.root := rfl
@[simp] theorem clearDecoded_wlen (s : State) : (clearDecoded s).wlen = s.wlen := rfl
@[simp] theorem clearDecoded_olen (s : State) : (clearDecoded s).olen = s.olen := rfl
@[simp] theorem clearDecoded_ilen (s : State) : (clearDecoded s).ilen = s.ilen := rfl
@[simp] theorem clearDecoded_dlen (s : State) : (clearDecoded s).dlen = 0 := rfl
@[simp] theorem clearDecoded_msel (s : State) : (clearDecoded s).msel = s.msel := rfl
@[simp] theorem clearDecoded_maddr (s : State) : (clearDecoded s).maddr = s.maddr := rfl
@[simp] theorem clearDecoded_freq (s : State) : (clearDecoded s).freq = s.freq := rfl
@[simp] theorem clearDecoded_node (s : State) : (clearDecoded s).node = s.node := rfl
@[simp] theorem clearDecoded_clen (s : State) : (clearDecoded s).clen = s.clen := rfl
@[simp] theorem clearDecoded_cbits (s : State) : (clearDecoded s).cbits = s.cbits := rfl
@[simp] theorem clearDecoded_wbuf (s : State) : (clearDecoded s).wbuf = s.wbuf := rfl
@[simp] theorem clearDecoded_obuf (s : State) : (clearDecoded s).obuf = s.obuf := rfl
@[simp] theorem clearDecoded_ibuf (s : State) : (clearDecoded s).ibuf = s.ibuf := rfl
@[simp] theorem clearDecoded_dbuf (s : State) : (clearDecoded s).dbuf = [] := rfl
@[simp] theorem clearDecoded_pend (s : State) : (clearDecoded s).pend = s.pend := rfl
@[simp] theorem clearDecoded_rsp (s : State) : (clearDecoded s).rsp = s.rsp := rfl
@[simp] theorem clearDecoded_agenda (s : State) : (clearDecoded s).agenda = s.agenda := rfl
@[simp] theorem clearDecoded_free (s : State) : (clearDecoded s).free = s.free := rfl
@[simp] theorem clearDecoded_fill (s : State) : (clearDecoded s).fill = s.fill := rfl

/-! ## endSession -/

@[simp] theorem endSession_params (s : State) : (endSession s).params = s.params := rfl
@[simp] theorem endSession_phase (s : State) : (endSession s).phase = .empty := rfl
@[simp] theorem endSession_err (s : State) : (endSession s).err = s.err := rfl
@[simp] theorem endSession_ecode (s : State) : (endSession s).ecode = s.ecode := rfl
@[simp] theorem endSession_haz (s : State) : (endSession s).haz = s.haz := rfl
@[simp] theorem endSession_errinfo (s : State) : (endSession s).errinfo = s.errinfo := rfl
@[simp] theorem endSession_total (s : State) : (endSession s).total = 0 := rfl
@[simp] theorem endSession_root (s : State) : (endSession s).root = 0 := rfl
@[simp] theorem endSession_wlen (s : State) : (endSession s).wlen = 0 := rfl
@[simp] theorem endSession_olen (s : State) : (endSession s).olen = 0 := rfl
@[simp] theorem endSession_ilen (s : State) : (endSession s).ilen = 0 := rfl
@[simp] theorem endSession_dlen (s : State) : (endSession s).dlen = 0 := rfl
@[simp] theorem endSession_msel (s : State) : (endSession s).msel = 0 := rfl
@[simp] theorem endSession_maddr (s : State) : (endSession s).maddr = 0 := rfl
@[simp] theorem endSession_freq (s : State) : (endSession s).freq = [] := rfl
@[simp] theorem endSession_node (s : State) : (endSession s).node = [] := rfl
@[simp] theorem endSession_clen (s : State) : (endSession s).clen = [] := rfl
@[simp] theorem endSession_cbits (s : State) : (endSession s).cbits = [] := rfl
@[simp] theorem endSession_wbuf (s : State) : (endSession s).wbuf = s.wbuf := rfl
@[simp] theorem endSession_obuf (s : State) : (endSession s).obuf = [] := rfl
@[simp] theorem endSession_ibuf (s : State) : (endSession s).ibuf = s.ibuf := rfl
@[simp] theorem endSession_dbuf (s : State) : (endSession s).dbuf = [] := rfl
@[simp] theorem endSession_pend (s : State) : (endSession s).pend = s.pend := rfl
@[simp] theorem endSession_rsp (s : State) : (endSession s).rsp = s.rsp := rfl
@[simp] theorem endSession_agenda (s : State) : (endSession s).agenda = s.agenda := rfl
@[simp] theorem endSession_free (s : State) : (endSession s).free = s.free := rfl
@[simp] theorem endSession_fill (s : State) : (endSession s).fill = s.fill := rfl

/-! ## hardReset -/

@[simp] theorem hardReset_params (s : State) : (hardReset s).params = s.params := rfl
@[simp] theorem hardReset_phase (s : State) : (hardReset s).phase = .empty := rfl
@[simp] theorem hardReset_err (s : State) : (hardReset s).err = false := rfl
@[simp] theorem hardReset_ecode (s : State) : (hardReset s).ecode = .ok := rfl
@[simp] theorem hardReset_haz (s : State) : (hardReset s).haz = false := rfl
@[simp] theorem hardReset_errinfo (s : State) : (hardReset s).errinfo = 0 := rfl
@[simp] theorem hardReset_total (s : State) : (hardReset s).total = 0 := rfl
@[simp] theorem hardReset_root (s : State) : (hardReset s).root = 0 := rfl
@[simp] theorem hardReset_wlen (s : State) : (hardReset s).wlen = 0 := rfl
@[simp] theorem hardReset_olen (s : State) : (hardReset s).olen = 0 := rfl
@[simp] theorem hardReset_ilen (s : State) : (hardReset s).ilen = 0 := rfl
@[simp] theorem hardReset_dlen (s : State) : (hardReset s).dlen = 0 := rfl
@[simp] theorem hardReset_msel (s : State) : (hardReset s).msel = 0 := rfl
@[simp] theorem hardReset_maddr (s : State) : (hardReset s).maddr = 0 := rfl
@[simp] theorem hardReset_freq (s : State) : (hardReset s).freq = [] := rfl
@[simp] theorem hardReset_node (s : State) : (hardReset s).node = [] := rfl
@[simp] theorem hardReset_clen (s : State) : (hardReset s).clen = [] := rfl
@[simp] theorem hardReset_cbits (s : State) : (hardReset s).cbits = [] := rfl
@[simp] theorem hardReset_wbuf (s : State) : (hardReset s).wbuf = [] := rfl
@[simp] theorem hardReset_obuf (s : State) : (hardReset s).obuf = [] := rfl
@[simp] theorem hardReset_ibuf (s : State) : (hardReset s).ibuf = [] := rfl
@[simp] theorem hardReset_dbuf (s : State) : (hardReset s).dbuf = [] := rfl
@[simp] theorem hardReset_pend (s : State) : (hardReset s).pend = none := rfl
@[simp] theorem hardReset_rsp (s : State) : (hardReset s).rsp = none := rfl
@[simp] theorem hardReset_agenda (s : State) : (hardReset s).agenda = s.agenda := rfl
@[simp] theorem hardReset_free (s : State) : (hardReset s).free = s.free + 1 := rfl
@[simp] theorem hardReset_fill (s : State) : (hardReset s).fill = s.free := rfl

/-! ## recordCode -/

@[simp] theorem recordCode_params (b : Byte) (p : List Bool) (s : State) : (recordCode b p s).params = s.params := rfl
@[simp] theorem recordCode_phase (b : Byte) (p : List Bool) (s : State) : (recordCode b p s).phase = s.phase := rfl
@[simp] theorem recordCode_err (b : Byte) (p : List Bool) (s : State) : (recordCode b p s).err = s.err := rfl
@[simp] theorem recordCode_ecode (b : Byte) (p : List Bool) (s : State) : (recordCode b p s).ecode = s.ecode := rfl
@[simp] theorem recordCode_haz (b : Byte) (p : List Bool) (s : State) : (recordCode b p s).haz = s.haz := rfl
@[simp] theorem recordCode_errinfo (b : Byte) (p : List Bool) (s : State) : (recordCode b p s).errinfo = s.errinfo := rfl
@[simp] theorem recordCode_total (b : Byte) (p : List Bool) (s : State) : (recordCode b p s).total = s.total := rfl
@[simp] theorem recordCode_root (b : Byte) (p : List Bool) (s : State) : (recordCode b p s).root = s.root := rfl
@[simp] theorem recordCode_wlen (b : Byte) (p : List Bool) (s : State) : (recordCode b p s).wlen = s.wlen := rfl
@[simp] theorem recordCode_olen (b : Byte) (p : List Bool) (s : State) : (recordCode b p s).olen = s.olen := rfl
@[simp] theorem recordCode_ilen (b : Byte) (p : List Bool) (s : State) : (recordCode b p s).ilen = s.ilen := rfl
@[simp] theorem recordCode_dlen (b : Byte) (p : List Bool) (s : State) : (recordCode b p s).dlen = s.dlen := rfl
@[simp] theorem recordCode_msel (b : Byte) (p : List Bool) (s : State) : (recordCode b p s).msel = s.msel := rfl
@[simp] theorem recordCode_maddr (b : Byte) (p : List Bool) (s : State) : (recordCode b p s).maddr = s.maddr := rfl
@[simp] theorem recordCode_freq (b : Byte) (p : List Bool) (s : State) : (recordCode b p s).freq = s.freq := rfl
@[simp] theorem recordCode_node (b : Byte) (p : List Bool) (s : State) : (recordCode b p s).node = s.node := rfl
@[simp] theorem recordCode_clen (b : Byte) (p : List Bool) (s : State) : (recordCode b p s).clen = Memory.write 0 s.clen b.toNat (BitVec.ofNat 8 p.length) := rfl
@[simp] theorem recordCode_cbits (b : Byte) (p : List Bool) (s : State) : (recordCode b p s).cbits = Memory.write 0 s.cbits b.toNat (writeBits (cbitsAt s b) 0 p) := rfl
@[simp] theorem recordCode_wbuf (b : Byte) (p : List Bool) (s : State) : (recordCode b p s).wbuf = s.wbuf := rfl
@[simp] theorem recordCode_obuf (b : Byte) (p : List Bool) (s : State) : (recordCode b p s).obuf = s.obuf := rfl
@[simp] theorem recordCode_ibuf (b : Byte) (p : List Bool) (s : State) : (recordCode b p s).ibuf = s.ibuf := rfl
@[simp] theorem recordCode_dbuf (b : Byte) (p : List Bool) (s : State) : (recordCode b p s).dbuf = s.dbuf := rfl
@[simp] theorem recordCode_pend (b : Byte) (p : List Bool) (s : State) : (recordCode b p s).pend = s.pend := rfl
@[simp] theorem recordCode_rsp (b : Byte) (p : List Bool) (s : State) : (recordCode b p s).rsp = s.rsp := rfl
@[simp] theorem recordCode_agenda (b : Byte) (p : List Bool) (s : State) : (recordCode b p s).agenda = s.agenda := rfl
@[simp] theorem recordCode_free (b : Byte) (p : List Bool) (s : State) : (recordCode b p s).free = s.free := rfl
@[simp] theorem recordCode_fill (b : Byte) (p : List Bool) (s : State) : (recordCode b p s).fill = s.fill := rfl

end Sys2Proof.Machine
end

