-- ==== Sys2Proof/Laws/Ops.lean ====
section
/-! SUPPORT. What each shared operation can do, said once: packing, code bits, decoding, bus events and the step. -/

namespace Sys2Proof.Machine

/-! ## Packing -/

theorem bitsToNat_lt (f : Nat → Bool) (n : Nat) : bitsToNat f n < 2 ^ n := by
  induction n with
  | zero => simp [bitsToNat]
  | succ n ih =>
    have hb : (f n).toNat * 2 ^ n ≤ 2 ^ n := by cases f n <;> simp
    simp only [bitsToNat, Nat.pow_succ]
    omega

theorem testBit_bitsToNat (f : Nat → Bool) (n t : Nat) : (bitsToNat f n).testBit t = (decide (t < n) && f t) := by
  induction n with
  | zero => simp [bitsToNat]
  | succ n ih =>
    have hlt := bitsToNat_lt f n
    rw [bitsToNat, Nat.add_comm, Nat.mul_comm, Nat.testBit_two_pow_mul_add _ hlt, ih]
    rcases Nat.lt_trichotomy t n with h | h | h
    · simp [h, Nat.lt_succ_of_lt h]
    · subst h
      cases f t <;> simp
    · have h1 : ¬ t < n := by omega
      have h2 : ¬ t < n + 1 := by omega
      have h3 : Nat.testBit 1 (t - n) = false :=
        Bool.eq_false_iff.2 (Nat.testBit_one_eq_true_iff_self_eq_zero.not.2 (by omega))
      simp only [if_neg h1, h2, decide_false, Bool.false_and]
      cases f n <;> simp [h3]

/-- Bit `t` of word `k` of a packed bit sequence is its element `32k + t` (R54). -/
theorem getLsbD_packBits (f : Nat → Bool) (k t : Nat) :
    (packBits f k).getLsbD t = (decide (t < 32) && f (32 * k + t)) := by
  simp only [packBits, BitVec.getLsbD_ofNat, testBit_bitsToNat]
  cases decide (t < 32) <;> simp

theorem getLsbD_append4 (a b c d : Byte) (i : Nat) :
    (a ++ b ++ c ++ d : BitVec 32).getLsbD i =
      if i < 8 then d.getLsbD i else if i < 16 then c.getLsbD (i - 8)
      else if i < 24 then b.getLsbD (i - 16) else a.getLsbD (i - 24) := by
  simp only [BitVec.getLsbD_append]
  by_cases h1 : i < 8
  · simp [h1]
  · by_cases h2 : i < 16
    · simp [h1, h2, show i - 8 < 8 by omega]
    · by_cases h3 : i < 24
      · rw [if_neg h1, if_neg (show ¬ i - 8 < 8 by omega), if_pos (show i - 8 - 8 < 8 by omega), if_neg h1, if_neg h2,
          if_pos h3, show i - 8 - 8 = i - 16 by omega]
      · rw [if_neg h1, if_neg (show ¬ i - 8 < 8 by omega), if_neg (show ¬ i - 8 - 8 < 8 by omega), if_neg h1, if_neg h2,
          if_neg h3, show i - 8 - 8 - 8 = i - 24 by omega]

/-- Byte `t` of word `k` of a packed byte sequence is its element `4k + t` (R53). -/
theorem byteOfWord_packBytes (f : Nat → Byte) (k t : Nat) (ht : t < 4) :
    byteOfWord (packBytes f k) t = f (4 * k + t) := by
  have ht : t = 0 ∨ t = 1 ∨ t = 2 ∨ t = 3 := by omega
  apply BitVec.eq_of_getLsbD_eq
  intro i hi
  simp only [byteOfWord, packBytes, BitVec.getLsbD_extractLsb', getLsbD_append4]
  rcases ht with rfl | rfl | rfl | rfl
  · simp [hi]
  · simp [hi, show 8 + i < 16 by omega]
  · simp [hi, show 16 + i < 24 by omega, show ¬ 16 + i < 8 by omega]
  · simp [hi, show ¬ 24 + i < 16 by omega, show ¬ 24 + i < 8 by omega]

/-- Bit `j` after `v[i + t] <- bs[t]` for every `t`. -/
theorem getLsbD_writeBits (bs : List Bool) (v : BitVec 256) (i j : Nat) :
    (writeBits v i bs).getLsbD j =
      if i ≤ j ∧ j < i + bs.length ∧ j < 256 then bs.getD (j - i) false else v.getLsbD j := by
  induction bs generalizing v i with
  | nil => rw [if_neg (by simp; omega)]; rfl
  | cons b bs ih =>
    have hset : ∀ j, (if b then v ||| (1#256 <<< i) else v &&& ~~~ (1#256 <<< i)).getLsbD j =
        if j = i ∧ j < 256 then b else v.getLsbD j := by
      intro j
      by_cases hj : j < 256
      · by_cases hij : j = i
        · subst hij
          cases b <;> simp [hj]
        · cases b <;> simp [hj, hij] <;> intro _ <;> omega
      · have hv := BitVec.getLsbD_of_ge v j (by omega)
        cases b <;> simp [hj, hv]
    simp only [writeBits, ih, hset, List.length_cons]
    by_cases h1 : i = j
    · subst h1
      simp
    · by_cases h2 : i ≤ j ∧ j < i + (bs.length + 1) ∧ j < 256
      · rw [if_pos h2, if_pos (by omega)]
        obtain ⟨d, hd⟩ : ∃ d, j - i = d + 1 := ⟨j - i - 1, by omega⟩
        rw [hd, show j - (i + 1) = d by omega, List.getD_cons_succ]
      · rw [if_neg h2, if_neg (by omega), if_neg (by omega)]

/-- A legal count fits its word: below `2^W_CNT` it is stored unchanged. -/
theorem toNat_count (p : Params) (hp : p.wCnt ≤ 32) (n : Nat) (hn : n < 2 ^ p.wCnt) : (count p n).toNat = n := by
  have : 2 ^ p.wCnt ≤ 2 ^ 32 := Nat.pow_le_pow_right (by decide) hp
  simp only [count, BitVec.toNat_ofNat, Nat.mod_eq_of_lt hn]
  exact Nat.mod_eq_of_lt (by omega)

/-! ## Bus events -/

/-- Everything a read can do: a refused access, a reserved offset, a free value while BUSY, a register's value. -/
theorem busRead_cases (addr : BitVec 8) (s : State) :
    (aligned addr = false ∧ busRead addr s = respond (.read 0 true) s) ∨
    (aligned addr = true ∧ regAt addr = none ∧ busRead addr s = respond (.read 0 false) s) ∨
    (∃ r, aligned addr = true ∧ regAt addr = some r ∧ busy s = true ∧ readableWhileBusy r = false ∧
      busRead addr s = busyResultRead s) ∨
    (∃ r, aligned addr = true ∧ regAt addr = some r ∧ (busy s = false ∨ readableWhileBusy r = true) ∧
      busRead addr s = respond (.read (regValue s r) false) (readEffect s r)) := by
  unfold busRead
  by_cases ha : aligned addr = false
  · exact .inl ⟨ha, by simp [ha]⟩
  · have ha' : aligned addr = true := by simpa using ha
    cases hr : regAt addr with
    | none => exact .inr (.inl ⟨ha', rfl, by simp [ha']⟩)
    | some r =>
      by_cases hb : busy s = true ∧ readableWhileBusy r = false
      · exact .inr (.inr (.inl ⟨r, ha', rfl, hb.1, hb.2, by simp [ha', hb.1, hb.2]⟩))
      · refine .inr (.inr (.inr ⟨r, ha', rfl, ?_, ?_⟩))
        · cases h1 : busy s <;> cases h2 : readableWhileBusy r <;> simp_all
        · cases h1 : busy s <;> cases h2 : readableWhileBusy r <;> simp_all

/-- Everything a write can do: a refused access, a dropped write while BUSY, a reserved offset, a register's effect. -/
theorem busWrite_cases (addr : BitVec 8) (v : Word) (s : State) :
    (aligned addr = false ∧ busWrite addr v s = respond (.write true) s) ∨
    (aligned addr = true ∧ busy s = true ∧ busWrite addr v s = respond (.write false) { s with haz := true }) ∨
    (aligned addr = true ∧ busy s = false ∧ regAt addr = none ∧ busWrite addr v s = respond (.write false) s) ∨
    (∃ r, aligned addr = true ∧ busy s = false ∧ regAt addr = some r ∧
      busWrite addr v s = respond (.write false) (writeEffect v s r)) := by
  unfold busWrite
  by_cases ha : aligned addr = false
  · exact .inl ⟨ha, by simp [ha]⟩
  · have ha' : aligned addr = true := by simpa using ha
    cases hb : busy s with
    | true => exact .inr (.inl ⟨ha', rfl, by simp [ha']⟩)
    | false =>
      cases hr : regAt addr with
      | none => exact .inr (.inr (.inl ⟨ha', rfl, rfl, by simp [ha']⟩))
      | some r => exact .inr (.inr (.inr ⟨r, ha', rfl, rfl, by simp [ha']⟩))

/-- A register's offset is aligned and is its register's alone (R14). -/
theorem regAt_offsetOf (r : Reg) : regAt (offsetOf r) = some r ∧ aligned (offsetOf r) = true := by
  cases r <;> decide

/-- Everything the window's store can do (R51). -/
theorem storeWindow_cases (v : Word) (s : State) :
    (s.msel = 4 ∧ storeWindow v s =
      { s with wbuf := Memory.putList s.params.maxWord s.wbuf (4 * s.maddr.toNat) (bytesOfWord v) }) ∨
    (s.msel = 6 ∧ storeWindow v s =
      { s with ibuf := Memory.putList s.params.maxBits s.ibuf (32 * s.maddr.toNat) (bitsOfWord v) }) ∨
    (s.msel ≠ 4 ∧ s.msel ≠ 6 ∧ storeWindow v s = s) := by
  unfold storeWindow
  split
  · rename_i h
    exact .inl ⟨BitVec.eq_of_toNat_eq h, rfl⟩
  · rename_i h
    exact .inr (.inl ⟨BitVec.eq_of_toNat_eq h, rfl⟩)
  · rename_i h1 h2
    exact .inr (.inr ⟨fun h => h1 (by rw [h]; rfl), fun h => h2 (by rw [h]; rfl), rfl⟩)

/-! ## The step -/

/-- Everything a step can do: an idle turn, a command, an ill-formed word, a read, a write, a hardware reset. -/
theorem step_cases (s t : State) (h : step s = .next t) :
    (nextEvent s = .engine ∧ s.pend = none ∧ t = advance s) ∨
    (∃ w i, nextEvent s = .engine ∧ s.pend = some w ∧ decode w = .ok i ∧ exec i (advance s) = .next t) ∨
    (∃ w e, nextEvent s = .engine ∧ s.pend = some w ∧ decode w = .error e ∧ t = completeIllegal w (advance s)) ∨
    (∃ addr, nextEvent s = .read addr ∧ t = busRead addr (advance s)) ∨
    (∃ addr v, nextEvent s = .write addr v ∧ t = busWrite addr v (advance s)) ∨
    (nextEvent s = .hardReset ∧ t = hardReset (advance s)) := by
  unfold step at h
  split at h
  · rename_i he
    unfold engineTurn at h
    rw [advance_pend] at h
    split at h
    · rename_i hp
      exact .inl ⟨he, hp, (Host.Outcome.next.inj h).symm⟩
    · rename_i w hp
      split at h
      · rename_i i hd
        exact .inr (.inl ⟨w, i, he, hp, hd, h⟩)
      · rename_i e hd
        exact .inr (.inr (.inl ⟨w, e, he, hp, hd, (Host.Outcome.next.inj h).symm⟩))
  · rename_i addr he
    exact .inr (.inr (.inr (.inl ⟨addr, he, (Host.Outcome.next.inj h).symm⟩)))
  · rename_i addr v he
    exact .inr (.inr (.inr (.inr (.inl ⟨addr, v, he, (Host.Outcome.next.inj h).symm⟩))))
  · rename_i he
    exact .inr (.inr (.inr (.inr (.inr ⟨he, (Host.Outcome.next.inj h).symm⟩))))

end Sys2Proof.Machine
end

