-- ==== Sys2Proof/Laws/PerInstr.lean ====
section
/-! SUPPORT. Laws of every command as syntax, one lemma a constructor, for the host's case split. -/

namespace Sys2Proof.Laws

open Sys2Proof

/-- The fields read from a command's word are the command's own, and they are well-formed (R61, R62, R63). -/
def FieldsOfEncoding.Statement (i : Instr) : Prop :=
  cmdFields (encode i) = i.fields ∧ i.fields.wellFormed = true

theorem FieldsOfEncoding.nop : FieldsOfEncoding.Statement .nop := ⟨by decide, by decide⟩

theorem FieldsOfEncoding.reset : FieldsOfEncoding.Statement .reset := ⟨by decide, by decide⟩

theorem FieldsOfEncoding.collect (b : Byte) : FieldsOfEncoding.Statement (.collect b) := by
  have h : ∀ b : Byte, cmdFields (encode (.collect b)) = (Instr.collect b).fields := by decide
  exact ⟨h b, rfl⟩

theorem FieldsOfEncoding.build : FieldsOfEncoding.Statement .build := ⟨by decide, by decide⟩

theorem FieldsOfEncoding.derive : FieldsOfEncoding.Statement .derive := ⟨by decide, by decide⟩

theorem FieldsOfEncoding.encode : FieldsOfEncoding.Statement .encode := ⟨by decide, by decide⟩

theorem FieldsOfEncoding.decode : FieldsOfEncoding.Statement .decode := ⟨by decide, by decide⟩

theorem FieldsOfEncoding.ack : FieldsOfEncoding.Statement .ack := ⟨by decide, by decide⟩

end Sys2Proof.Laws
end

