-- ==== Sys2Proof/Tests/Slice0.lean ====
section
/-! SUPPORT. Tests. Expected values are those of spec/95_test_vectors.md (each test names its vector) or are written out
from the rule a test names. The witnesses at the end show, for every statement with hypotheses, a state and operands that
meet them. -/

set_option maxRecDepth 8000

namespace Sys2Proof.Tests

open Sys2Proof Sys2Proof.Machine

/-! ## Well-formedness: each check refuses an ill-formed term -/

theorem test_wf_accepts : CmdFields.wellFormed ⟨0x02, 0xFF, 0⟩ = true ∧ CmdFields.wellFormed ⟨0x07, 0, 0⟩ = true := by decide

theorem test_wf_refuses_rsv : CmdFields.wellFormed ⟨0x02, 0x61, 1⟩ = false := by decide

theorem test_wf_refuses_op : CmdFields.wellFormed ⟨0x08, 0, 0⟩ = false := by decide

theorem test_wf_refuses_arg : CmdFields.wellFormed ⟨0x03, 1, 0⟩ = false := by decide

theorem test_params_accepts : Params.legal ⟨1, 1, 1⟩ = true ∧ Params.legal ⟨32, 65535, 65535⟩ = true := by decide

theorem test_params_refuses_wCnt : Params.legal ⟨0, 256, 8192⟩ = false ∧ Params.legal ⟨33, 256, 8192⟩ = false := by decide

theorem test_params_refuses_maxWord : Params.legal ⟨32, 0, 8192⟩ = false ∧ Params.legal ⟨32, 65536, 8192⟩ = false := by
  decide

theorem test_params_refuses_maxBits : Params.legal ⟨32, 256, 0⟩ = false ∧ Params.legal ⟨32, 256, 65536⟩ = false := by
  decide

/-! ## Decoding: words written out bit by bit from R61 and R63, `RSV_ARG_OP` -/

theorem test_decode_nop : decode 0b0000000000000000_00000000_00000000#32 = .ok .nop := rfl

theorem test_decode_reset : decode 0b0000000000000000_00000000_00000001#32 = .ok .reset := rfl

/-- ARG = 0x72, 'r'. -/
theorem test_decode_collect : decode 0b0000000000000000_01110010_00000010#32 = .ok (.collect 0x72) := rfl

theorem test_decode_build : decode 0b0000000000000000_00000000_00000011#32 = .ok .build := rfl

theorem test_decode_derive : decode 0b0000000000000000_00000000_00000100#32 = .ok .derive := rfl

theorem test_decode_encode : decode 0b0000000000000000_00000000_00000101#32 = .ok .encode := rfl

theorem test_decode_decode : decode 0b0000000000000000_00000000_00000110#32 = .ok .decode := rfl

theorem test_decode_ack : decode 0b0000000000000000_00000000_00000111#32 = .ok .ack := rfl

/-- V-K5, V-K6. -/
theorem test_decode_reserved_opcode : decode 0x00000008 = .error .reservedOpcode ∧
    decode 0x000000FF = .error .reservedOpcode := ⟨rfl, rfl⟩

/-- V-K7, V-K9. -/
theorem test_decode_reserved_field : decode 0x00016102 = .error .reservedField ∧
    decode 0x80000000 = .error .reservedField := ⟨rfl, rfl⟩

/-- V-K8, V-K9. -/
theorem test_decode_argument : decode 0x00000103 = .error .argumentOnPlainCommand ∧
    decode 0x00000100 = .error .argumentOnPlainCommand := ⟨rfl, rfl⟩

theorem test_table_word : decodeTableWord 32 0x6102 = some (.collect 0x61) ∧ decodeTableWord 32 0x8 = none := by decide

/-! ## States -/

/-- Small parameters, all of them met exactly by the states below. -/
def small : Params := { wCnt := 2, maxWord := 2, maxBits := 2 }

/-- The block after reset, with the input buffers loaded: "ab" to encode, "10" to decode. -/
def loaded : State :=
  { State.resetOf small [] 1 0 with
    wbuf := [(0, 0x61), (1, 0x62)], wlen := 2, ibuf := [(0, true), (1, false)], ilen := 2 }

/-- COL("aab"). -/
def aabCol : State := { loaded with phase := .collect, total := 3, freq := [(0x61, 2), (0x62, 1)] }

/-- BLT("aab"), from the reference tree. -/
def aabBlt : State :=
  { aabCol with
    phase := .built, root := 2
    node := [(0, ⟨true, true, 0x61, 0, 0, 2⟩), (1, ⟨true, true, 0x62, 0, 0, 1⟩), (2, ⟨true, false, 0, 1, 0, 3⟩)] }

/-- RDY("aab"): a = "1", b = "0". -/
def aabRdy : State := { aabBlt with phase := .ready, clen := [(0x61, 1), (0x62, 1)], cbits := [(0x61, 1)] }

/-- RDY("aaa"): a = "0". -/
def aaaRdy : State :=
  { loaded with
    phase := .ready, total := 3, freq := [(0x61, 3)], node := [(0, ⟨true, true, 0x61, 0, 0, 3⟩)], clen := [(0x61, 1)] }

/-- COL("aabbc"). -/
def aabbcCol : State :=
  { loaded with
    params := Params.default, phase := .collect, total := 5, freq := [(0x61, 2), (0x62, 2), (0x63, 1)] }

/-- BLT("aabbc"), from the reference tree. -/
def aabbcBlt : State :=
  { aabbcCol with
    phase := .built, root := 4
    node := [(0, ⟨true, true, 0x61, 0, 0, 2⟩), (1, ⟨true, true, 0x62, 0, 0, 2⟩), (2, ⟨true, true, 0x63, 0, 0, 1⟩),
             (3, ⟨true, false, 0, 2, 0, 3⟩), (4, ⟨true, false, 0, 1, 3, 5⟩)] }

/-- The next state of an outcome, if it is one. -/
def next? : Host.Outcome State Fault Refusal → Option State
  | .next t => some t
  | .fault _ => none
  | .refused _ => none

/-- STATUS and ERRINFO of a next state. -/
def status (o : Host.Outcome State Fault Refusal) : Option (Word × Word) :=
  (next? o).map (fun t => (statusWord t, t.errinfo))

/-- The state with a command in flight and the given events to come. -/
def during (w : Word) (es : List Event) (s : State) : State := { s with pend := some w, agenda := es }

/-! ## Commands, one step each -/

/-- V-K1: an error, then NOP. -/
theorem test_nop : status (exec .nop { aabRdy with err := true, ecode := .unknownSymbol, errinfo := 0x78 }) =
    some (0x006, 0) := by decide

/-- V-K4. -/
theorem test_reset : (next? (exec .reset { aabRdy with msel := 4, maddr := 9 })).map
      (fun t => (statusWord t, t.total, nsym t, windowWord t 1 0, windowWord t 4 0)) =
    some (0x000, 0, 0, 0, 0x00006261) := by decide

/-- V-F1. -/
theorem test_collect : (next? (exec (.collect 0x61) State.reset)).map
      (fun t => (statusWord t, freqAt t 0x61, freqAt t 0x62, t.total, nsym t)) = some (0x002, 1, 0, 1, 1) := by decide

/-- V-F4: `W_CNT = 2` and TOTAL = 3. -/
theorem test_collect_overflow : status (exec (.collect 0x62) aabCol) = some (0x07A, 0x00006202) := by decide

/-- V-B1. -/
theorem test_build : (next? (exec .build aabCol)).map
      (fun t => (statusWord t, windowWord t 1 0, windowWord t 1 2, windowWord t 1 4, windowWord t 1 5, t.root)) =
    some (0x004, 0xC0000061, 0xC0000062, 0x80000100, 3, 2) := by decide

/-- V-B9: the tie between a and b goes to the lower index. -/
theorem test_build_tie : (next? (exec .build aabbcCol)).map (fun t => (windowWord t 1 6, windowWord t 1 8, t.root)) =
    some (0x80000200, 0x80060100, 4) := by decide

/-- V-C1. -/
theorem test_derive : (next? (exec .derive aabBlt)).map
      (fun t => (statusWord t, clenAt t 0x61, windowWord t 3 0x308, clenAt t 0x62, windowWord t 3 0x310, clenAt t 0x63)) =
    some (0x006, 1, 1, 1, 0, 0) := by decide

/-- The reference row "aabbc": a = "11", b = "0", c = "10". -/
theorem test_derive_deep : (next? (exec .derive aabbcBlt)).map (fun t => [codeOf t 0x61, codeOf t 0x62, codeOf t 0x63]) =
    some [[true, true], [false], [true, false]] := by decide

/-- V-E1. -/
theorem test_encode : (next? (exec .encode aabRdy)).map (fun t => (statusWord t, t.olen, windowWord t 5 0)) =
    some (0x006, 2, 0x00000001) := by decide

/-- V-E6's rule R95, R96: the unknown byte at index 1 leaves no output of the call before. -/
theorem test_encode_unknown :
    (next? (exec .encode { aabRdy with wbuf := [(0, 0x61), (1, 0x78)], olen := 1, obuf := [(0, true)] })).map
      (fun t => (statusWord t, t.errinfo, t.olen, windowWord t 5 0)) = some (0x02E, 0x00010078, 0, 0) := by decide

/-- V-D15: DECODE needs no code book. -/
theorem test_decode : (next? (exec .decode aabBlt)).map (fun t => (statusWord t, t.dlen, windowWord t 7 0)) =
    some (0x004, 2, 0x00006261) := by decide

/-- V-D6: the leaf root and "01". -/
theorem test_decode_invalid :
    (next? (exec .decode { aaaRdy with ibuf := [(0, false), (1, true)] })).map
      (fun t => (statusWord t, t.errinfo, t.dlen, windowWord t 7 0)) = some (0x03E, 1, 0, 0) := by decide

/-- V-K3: the ACK in flight has cleared HAZ, and a write dropped meanwhile sets it again. -/
theorem test_ack : status (step (during 0x00000007 [] { aabRdy with haz := true })) = some (0x106, 0) := by decide

/-- V-K8: ILLEGAL_COMMAND comes before EMPTY_INPUT. -/
theorem test_illegal : status (step (State.reset.withFetchWord 32 0x00000103)) = some (0x058, 0x00000103) := by decide

/-- V-F1, from reset through the placed word. -/
theorem test_placed_word_runs : status (step (State.reset.withFetchWord 32 0x00006102)) = some (0x002, 0) := by decide

/-! ## Bus, window and busy protocol -/

/-- V-W2, V-W3. -/
theorem test_misaligned : busRead 0x41 State.reset = respond (.read 0 true) State.reset ∧
    busWrite 0x12 0x00000003 State.reset = respond (.write true) State.reset := by decide

/-- V-W12. -/
theorem test_writable_bits : (busRead 0x3C (busWrite 0x3C 0x00012345 State.reset)).rsp = some (.read 0x00002345 false) ∧
    (busRead 0x38 (busWrite 0x38 0x13 State.reset)).rsp = some (.read 0x00000003 false) ∧
    (busRead 0x28 (busWrite 0x28 0x00010005 State.reset)).rsp = some (.read 0x00000005 false) := by decide

/-- V-W6. -/
theorem test_window_read : (busRead 0x40 { aabRdy with msel := 0, maddr := 0x61 }).rsp = some (.read 0x00000002 false) ∧
    (busRead 0x40 { aabRdy with msel := 0, maddr := 0x62 }).rsp = some (.read 0x00000001 false) ∧
    (busRead 0x40 { aabRdy with msel := 0, maddr := 0x62 }).maddr = 0x63 := by decide

/-- V-W13, V-W14: a store beyond WBUF is discarded, and MADDR wraps. -/
theorem test_window_store_beyond :
    (busWrite 0x40 0x11223344 { State.reset with msel := 4, maddr := 0xFFFF }).maddr = 0 ∧
    (busWrite 0x40 0x61616161 { State.reset with msel := 4, maddr := 64 }).wbuf = [] := by decide

/-- R51, R53: byte 0 of the word goes to the lowest index, and only the bytes below `MAX_WORD = 2` are stored. -/
theorem test_window_store_bytes : (busWrite 0x40 0x11223344 { loaded with msel := 4 }).wbuf = [(0, 0x44), (1, 0x33)] := by
  decide

/-- V-H2, V-H3: BUSY reads 1, and the dropped write sets HAZ. -/
theorem test_busy : statusWord (busWrite 0x10 0x00000003 aabCol) = 0x003 ∧
    statusWord (busWrite 0x28 5 (busWrite 0x10 0x00000003 aabCol)) = 0x103 ∧
    (busWrite 0x28 5 (busWrite 0x10 0x00000003 aabCol)).wlen = 2 := by decide

/-- V-H8. -/
theorem test_hard_reset : (next? (step (during 0x00000003 [.hardReset] aabCol))).map
    (fun t => (statusWord t, t.total, nsym t, t.pend, t.params)) = some (0x000, 0, 0, none, small) := by decide

/-- R68, R69: in `wait`, the host goes back to the label while BUSY reads 1, and on to the next statement after it. -/
theorem test_wait : (hostMove ⟨waitStmts 7, 1, during 3 [] aabCol⟩).position = 0 ∧
    (hostMove ⟨waitStmts 7, 1, aabCol⟩).position = 2 := by decide

/-! ## The invariant on the states above -/

theorem mem_loaded : MemoriesOk loaded := by
  constructor <;> decide

theorem inv_loaded : Inv loaded :=
  ⟨mem_loaded, ⟨rfl, fun _ => rfl⟩, ⟨fun _ _ => rfl, fun _ _ => rfl, by decide, by decide⟩,
    ⟨by decide, by decide, by decide⟩,
    ⟨fun _ => rfl, fun _ => ⟨rfl, rfl⟩, fun _ => rfl, fun _ => rfl⟩, fun h => absurd h (by decide), fun h => absurd h (by decide)⟩

theorem inv_aabCol : Inv aabCol :=
  ⟨by constructor <;> decide, ⟨rfl, fun _ => rfl⟩, ⟨fun _ _ => rfl, fun _ _ => rfl, by decide, by decide⟩,
    ⟨by decide, by decide, by decide⟩,
    ⟨fun _ => rfl, fun _ => ⟨rfl, rfl⟩, fun _ => rfl, fun _ => rfl⟩, fun h => absurd h (by decide), fun h => absurd h (by decide)⟩

theorem inv_aabbcCol : Inv aabbcCol :=
  ⟨by constructor <;> decide, ⟨rfl, fun _ => rfl⟩, ⟨fun _ _ => rfl, fun _ _ => rfl, by decide, by decide⟩,
    ⟨by decide, by decide, by decide⟩,
    ⟨fun _ => rfl, fun _ => ⟨rfl, rfl⟩, fun _ => rfl, fun _ => rfl⟩, fun h => absurd h (by decide), fun h => absurd h (by decide)⟩

/-- A tree's fields from finite checks: the arena lists nothing from `2n − 1` on. -/
theorem treeOk_of_checks (s : State) (n : Nat) (hn : nsym s = n) (h1 : 1 ≤ n) (hw : Memory.within (2 * n - 1) s.node)
    (leaves : ∀ k, (h : k < nsym s) → nodeAt s k = Node.mkLeaf ((symbols s)[k]'h) (freqAt s ((symbols s)[k]'h)))
    (inner : ∀ m, m < 2 * n - 1 → n ≤ m → InternalOk s m)
    (root : s.root.toNat = 2 * n - 2)
    (parents : ∀ k, k < 2 * n - 2 → ∃ m, IsParent s m k ∧ ∀ m', m' < 2 * n - 1 → IsParent s m' k → m' = m)
    (total : (nodeAt s s.root.toNat).f = s.total) : TreeOk s := by
  have rest : ∀ k, 2 * n - 1 ≤ k → nodeAt s k = Node.zero := fun k hk => by
    simp [nodeAt, recordAt, Memory.read, Memory.cell?_eq_none_of_within _ _ hw k hk]
  subst hn
  refine ⟨h1, leaves, fun m h1 h2 => inner m h2 h1, rest, root, fun k hk => ?_, total⟩
  obtain ⟨m, hm, hu⟩ := parents k hk
  refine ⟨m, hm, fun m' h => ?_⟩
  by_cases hlt : m' < 2 * nsym s - 1
  · exact hu m' hlt h
  · have := h.1
    rw [rest m' (by omega)] at this
    exact absurd this (by decide)

theorem tree_aabRdy : TreeOk aabRdy := by
  refine treeOk_of_checks _ 2 (by decide) (by decide) (by decide) (by decide) ?_ (by decide) ?_ (by decide)
  · intro m h1 h2
    obtain rfl : m = 2 := by omega
    constructor <;> decide
  · intro k hk
    refine ⟨2, ?_⟩
    obtain rfl | rfl : k = 0 ∨ k = 1 := by omega
    · unfold IsParent; decide
    · unfold IsParent; decide

theorem tree_aaaRdy : TreeOk aaaRdy := by
  refine treeOk_of_checks _ 1 (by decide) (by decide) (by decide) (by decide) ?_ (by decide) ?_ (by decide)
  · intro m h1 h2
    omega
  · intro k hk
    omega

theorem tree_aabbcBlt : TreeOk aabbcBlt := by
  refine treeOk_of_checks _ 3 (by decide) (by decide) (by decide) (by decide) ?_ (by decide) ?_ (by decide)
  · intro m h1 h2
    obtain rfl | rfl : m = 3 ∨ m = 4 := by omega
    · constructor <;> decide
    · constructor <;> decide
  · intro k hk
    obtain h | rfl | h : (k = 0 ∨ k = 2) ∨ k = 1 ∨ k = 3 := by omega
    · refine ⟨3, ?_⟩
      obtain rfl | rfl := h
      · unfold IsParent; decide
      · unfold IsParent; decide
    · exact ⟨4, by unfold IsParent; decide⟩
    · subst h
      exact ⟨4, by unfold IsParent; decide⟩

theorem book_aabRdy : BookOk aabRdy := by
  refine ⟨by decide, by decide, fun b i h => ?_⟩
  have hb : ∀ b, (cbitsAt aabRdy b = 0 ∨ cbitsAt aabRdy b = 1 ∧ clenAt aabRdy b = 1) := by decide
  obtain h0 | ⟨h1, h2⟩ := hb b
  · simp [h0]
  · rw [h2] at h
    rw [h1]
    simp at h ⊢
    omega

theorem book_aaaRdy : BookOk aaaRdy := by
  refine ⟨by decide, by decide, fun b i h => ?_⟩
  have hb : ∀ b, cbitsAt aaaRdy b = 0 := by decide
  simp [hb b]

theorem inv_aabBlt : Inv aabBlt :=
  ⟨by constructor <;> decide, ⟨rfl, fun _ => rfl⟩, ⟨fun _ _ => rfl, fun _ _ => rfl, by decide, by decide⟩,
    ⟨by decide, by decide, by decide⟩,
    ⟨fun h => absurd h (by decide), fun _ => ⟨rfl, rfl⟩, fun _ => rfl, fun _ => rfl⟩,
    fun _ => tree_aabRdy.congr rfl rfl rfl rfl, fun h => absurd h (by decide)⟩

theorem inv_aabRdy : Inv aabRdy :=
  ⟨by constructor <;> decide, ⟨rfl, fun _ => rfl⟩, ⟨fun _ _ => rfl, fun _ _ => rfl, by decide, by decide⟩,
    ⟨by decide, by decide, by decide⟩,
    ⟨fun h => absurd h (by decide), fun h => absurd rfl h, fun _ => rfl, fun _ => rfl⟩,
    fun _ => tree_aabRdy, fun _ => book_aabRdy⟩

theorem inv_aaaRdy : Inv aaaRdy :=
  ⟨by constructor <;> decide, ⟨rfl, fun _ => rfl⟩, ⟨fun _ _ => rfl, fun _ _ => rfl, by decide, by decide⟩,
    ⟨by decide, by decide, by decide⟩,
    ⟨fun h => absurd h (by decide), fun h => absurd rfl h, fun _ => rfl, fun _ => rfl⟩,
    fun _ => tree_aaaRdy, fun _ => book_aaaRdy⟩

theorem inv_aabbcBlt : Inv aabbcBlt :=
  ⟨by constructor <;> decide, ⟨rfl, fun _ => rfl⟩, ⟨fun _ _ => rfl, fun _ _ => rfl, by decide, by decide⟩,
    ⟨by decide, by decide, by decide⟩,
    ⟨fun h => absurd h (by decide), fun _ => ⟨rfl, rfl⟩, fun _ => rfl, fun _ => rfl⟩,
    fun _ => tree_aabbcBlt, fun h => absurd h (by decide)⟩

/-- The invariant does not speak of the input buffers' contents, of ILEN, or of a command in flight. -/
theorem inv_with_input {s : State} (hs : Inv s) (ibuf : Memory Bool) (ilen : BitVec 16)
    (hi : Memory.rising ibuf ∧ Memory.within s.params.maxBits ibuf) : Inv { s with ibuf := ibuf, ilen := ilen } :=
  ⟨⟨hs.memories.params, hs.memories.freq, hs.memories.node, hs.memories.clen, hs.memories.cbits, hs.memories.wbuf,
      hs.memories.obuf, hi, hs.memories.dbuf⟩,
    ⟨hs.outcome.err, hs.outcome.errinfo⟩, ⟨hs.outputs.obuf, hs.outputs.dbuf, hs.outputs.olen, hs.outputs.dlen⟩,
    hs.counts.congr rfl rfl rfl rfl, ⟨hs.stages.noTree, hs.stages.noBook, hs.stages.noEncoded, hs.stages.noDecoded⟩,
    fun h => (hs.tree h).congr rfl rfl rfl rfl, fun h => (hs.book h).congr rfl rfl rfl rfl rfl⟩

/-! ## Witnesses: each names its statement, and meets the statement's hypotheses, clause by clause -/

theorem witness_CommandWordsAreTheTableRows :
    decode 0x0000FF02 = .ok (.collect 0xFF) ∧ decode 0x00000008 = .error .reservedOpcode := ⟨rfl, rfl⟩

theorem witness_StepPerformsTheNextEvent :
    (nextEvent (during 3 [] aabCol) = .engine ∧ (during 3 [] aabCol).pend = some 3 ∧ decode 3 = .ok .build) ∧
    ((during 8 [] aabCol).pend = some 8 ∧ decode 8 = .error .reservedOpcode) ∧
    (nextEvent { aabCol with agenda := [.engine] } = .engine ∧ aabCol.pend = none) ∧
    nextEvent { aabCol with agenda := [.read 0x14] } = .read 0x14 ∧
    nextEvent { aabCol with agenda := [.write 0x10 3] } = .write 0x10 3 ∧
    nextEvent { aabCol with agenda := [.hardReset] } = .hardReset := by
  exact ⟨⟨rfl, rfl, rfl⟩, ⟨rfl, rfl⟩, ⟨rfl, rfl⟩, rfl, rfl, rfl⟩

theorem witness_IllegalWordCompletesWithItsError :
    (during 8 [] aabCol).pend = some 8 ∧ decode 8 = .error .reservedOpcode := ⟨rfl, rfl⟩

theorem witness_AcceptedCommandCompletes :
    (during 3 [.read 0x14, .write 0x28 5] aabCol).pend = some 3 ∧
    Event.hardReset ∉ (during 3 [.read 0x14, .write 0x28 5] aabCol).agenda := by decide

theorem witness_PhaseAdmissionTable :
    (∃ t, exec .build loaded = .next t ∧ admission .build loaded.phase = some .emptyInput) ∧
    (∃ t, exec .encode aabBlt = .next t ∧ admission .encode aabBlt.phase = some .sequenceError) ∧
    ∃ t, exec .decode aabBlt = .next t ∧ admission .decode aabBlt.phase = none :=
  ⟨⟨_, rfl, rfl⟩, ⟨_, rfl, rfl⟩, ⟨_, rfl, rfl⟩⟩

theorem witness_NopOnlyClearsTheOutcome :
    aabRdy.pend = none ∧ (0x00000100#32).extractLsb' 0 8 = 0 ∧ (0x00000100#32) ≠ 0 := by decide

theorem witness_AckClearsTheHazardAtAcceptance :
    ({ aabRdy with haz := true } : State).pend = none ∧ (0x00#8).toNat % 4 = 0 ∧ (0xFC#8).toNat % 4 = 0 := by decide

theorem witness_ResetCommandEndsTheSession : aabRdy.pend = none := rfl

theorem witness_AcceptanceOfACommand : aabRdy.pend = none := rfl

/-- The clauses at their boundaries: `W_CNT = 1`, TOTAL 0 and 1. -/
theorem witness_CollectCountsItsByte :
    (MemoriesOk aabBlt ∧ CountsOk aabBlt ∧ aabBlt.phase = .built) ∧
    (MemoriesOk aabCol ∧ CountsOk aabCol ∧ aabCol.phase = .collect ∧ aabCol.total.toNat = 2 ^ aabCol.params.wCnt - 1) ∧
    (MemoriesOk { loaded with params := ⟨1, 2, 2⟩ } ∧ CountsOk { loaded with params := ⟨1, 2, 2⟩ } ∧
      ({ loaded with params := ⟨1, 2, 2⟩ } : State).total.toNat + 1 = 2 ^ 1 - 1) :=
  ⟨⟨inv_aabBlt.memories, inv_aabBlt.counts, rfl⟩, ⟨inv_aabCol.memories, inv_aabCol.counts, rfl, rfl⟩,
    by constructor <;> decide, ⟨by decide, by decide, by decide⟩, rfl⟩

/-- TOTAL = 1 and `W_CNT = 2`: room for exactly two more. -/
theorem witness_CollectOrderIsIrrelevant :
    ∃ s : State, MemoriesOk s ∧ CountsOk s ∧ (s.phase = .empty ∨ s.phase = .collect) ∧
      s.total.toNat + 2 = 2 ^ s.params.wCnt - 1 :=
  ⟨{ loaded with phase := .collect, total := 1, freq := [(0x61, 1)] }, by constructor <;> decide,
    ⟨by decide, by decide, by decide⟩, by decide, by decide⟩

theorem witness_OnlyCollectAndResetsWriteCounts :
    (MemoriesOk aabCol ∧ CountsOk aabCol) ∧
    (∃ t, step { aabCol with agenda := [.hardReset] } = .next t ∧ t.freq ≠ aabCol.freq) ∧
    (∃ t, step (during 1 [] aabCol) = .next t ∧ t.total ≠ aabCol.total) ∧
    (MemoriesOk (during 0x6202 [] loaded) ∧ CountsOk (during 0x6202 [] loaded) ∧
      ∃ t, step (during 0x6202 [] loaded) = .next t ∧ t.freq ≠ loaded.freq) :=
  ⟨⟨inv_aabCol.memories, inv_aabCol.counts⟩, ⟨_, rfl, by decide⟩, ⟨_, rfl, by decide⟩, by constructor <;> decide,
    ⟨by decide, by decide, by decide⟩, _, rfl, by decide⟩

/-- `k = 511` is past the arena of 511 records, and `k = 3` the first record past the tree. -/
theorem witness_BuildWritesOnlyTheTree :
    loaded.phase = .empty ∧ aabBlt.phase = .built ∧ aabRdy.phase = .ready ∧ aabCol.phase = .collect ∧ Inv aabCol ∧
      2 * nsym aabCol - 1 ≤ 3 :=
  ⟨rfl, rfl, rfl, rfl, inv_aabCol, by decide⟩

theorem witness_BuildGivesAHuffmanTree : Inv aabCol ∧ aabCol.phase = .collect := ⟨inv_aabCol, rfl⟩

/-- In "aabbc", node 3 joins c and a, and node 1, b, comes after both. -/
theorem witness_EachMergeJoinsTheTwoLeast :
    Inv aabbcCol ∧ aabbcCol.phase = .collect ∧
    ∃ t, exec .build aabbcCol = .next t ∧ nsym aabbcCol ≤ 3 ∧ 3 < 2 * nsym aabbcCol - 1 ∧
      ∀ m', m' < 3 → ¬ IsParent t m' 1 := by
  refine ⟨inv_aabbcCol, rfl, _, rfl, by decide, by decide, ?_⟩
  unfold IsParent
  decide

theorem witness_PopMinTakesTheLeast : popMin (fun k => if k = 2 then 1 else 7) [0, 1, 2, 3] = some (2, [0, 1, 3]) := rfl

theorem witness_TreeIsAFunctionOfTheCounts :
    StagesOk aabCol ∧ StagesOk { aabCol with wlen := 0 } ∧ aabCol.phase = .collect ∧
    (∀ b, freqAt aabCol b = freqAt { aabCol with wlen := 0 } b) ∧
    (∃ t, exec .build aabCol = .next t) ∧ ∃ t, exec .build { aabCol with wlen := 0 } = .next t :=
  ⟨inv_aabCol.stages, ⟨fun _ => rfl, fun _ => ⟨rfl, rfl⟩, fun _ => rfl, fun _ => rfl⟩, rfl, fun _ => rfl, ⟨_, rfl⟩,
    ⟨_, rfl⟩⟩

theorem witness_TwoQueuesBuildTheSameTree : Inv aabbcCol ∧ aabbcCol.phase = .collect := ⟨inv_aabbcCol, rfl⟩

theorem witness_DeriveWritesOnlyTheCodeBook :
    aabCol.phase ≠ .built ∧ aabBlt.phase = .built ∧
    (∃ t, step (during 5 [] aabRdy) = .next t ∧ (during 5 [] aabRdy).phase = .ready ∧ t.phase = .ready) ∧
    ∃ t, step (during 1 [] aabRdy) = .next t ∧ t.phase = .empty :=
  ⟨by decide, rfl, ⟨_, rfl, rfl, by decide⟩, _, rfl, by decide⟩

theorem witness_DeriveGivesTheTreesCodeBook : Inv aabbcBlt ∧ aabbcBlt.phase = .built := ⟨inv_aabbcBlt, rfl⟩

theorem witness_PathsFollowTheTree :
    MemoriesOk aabbcBlt ∧ TreeOk aabbcBlt ∧ nsym aabbcBlt ≤ 4 ∧ 4 < 2 * nsym aabbcBlt - 1 :=
  ⟨inv_aabbcBlt.memories, tree_aabbcBlt, by decide, by decide⟩

theorem witness_CodeLengthsAreBounded :
    (Inv aabRdy ∧ aabRdy.phase = .ready ∧ freqAt aabRdy 0x61 ≠ 0 ∧ 2 ≤ nsym aabRdy) ∧
    (Inv aaaRdy ∧ aaaRdy.phase = .ready ∧ nsym aaaRdy = 1 ∧ freqAt aaaRdy 0x61 ≠ 0) :=
  ⟨⟨inv_aabRdy, rfl, by decide, by decide⟩, inv_aaaRdy, rfl, by decide, by decide⟩

theorem witness_CodesArePrefixFree :
    Inv aabRdy ∧ aabRdy.phase = .ready ∧ freqAt aabRdy 0x61 ≠ 0 ∧ freqAt aabRdy 0x62 ≠ 0 ∧ 2 ≤ nsym aabRdy :=
  ⟨inv_aabRdy, rfl, by decide, by decide, by decide⟩

theorem witness_WeightedLengthIsTheInternalSum :
    (Inv aabRdy ∧ aabRdy.phase = .ready) ∧ Inv aaaRdy ∧ aaaRdy.phase = .ready :=
  ⟨⟨inv_aabRdy, rfl⟩, inv_aaaRdy, rfl⟩

/-- WLEN = `MAX_WORD` and the codes fill OBUF exactly. -/
theorem witness_EncodeConcatenatesTheCodes :
    aabRdy.params.legal = true ∧ aabRdy.phase = .ready ∧ aabRdy.wlen.toNat = aabRdy.params.maxWord ∧
    (∀ j, j < aabRdy.wlen.toNat → clenAt aabRdy (wbufAt aabRdy j) ≠ 0) ∧
    ((List.range aabRdy.wlen.toNat).map (fun j => (clenAt aabRdy (wbufAt aabRdy j)).toNat)).sum = aabRdy.params.maxBits := by
  decide

theorem witness_EncodeAndDecodeReportTheFirstError :
    (∃ t, exec .encode aabBlt = .next t ∧ t.ecode = .sequenceError) ∧
    (∃ t, exec .encode { aabRdy with wlen := 3 } = .next t ∧ t.ecode = .lengthRange) ∧
    (∃ t, exec .encode { aabRdy with params := ⟨2, 2, 1⟩ } = .next t ∧ t.ecode = .outputOverflow) ∧
    (∃ t, exec .decode aabCol = .next t ∧ t.ecode = .sequenceError) ∧
    (∃ t, exec .decode { aabRdy with ilen := 3 } = .next t ∧ t.ecode = .lengthRange) ∧
    ∃ t, exec .decode { aaaRdy with ibuf := [(0, false), (1, true)] } = .next t ∧ t.ecode = .invalidCode :=
  ⟨⟨_, rfl, by decide⟩, ⟨_, rfl, by decide⟩, ⟨_, rfl, by decide⟩, ⟨_, rfl, by decide⟩, ⟨_, rfl, by decide⟩, _, rfl,
    by decide⟩

/-- "ax", with the unknown byte last. -/
theorem witness_EncodeReportsTheFirstUnknownByte :
    (∃ s : State, s.phase = .ready ∧ s.wlen.toNat ≤ s.params.maxWord ∧ 1 < s.wlen.toNat ∧ clenAt s (wbufAt s 1) = 0 ∧
      ∀ i, i < 1 → clenAt s (wbufAt s i) ≠ 0) ∧
    Inv aabRdy ∧ aabRdy.phase = .ready :=
  ⟨⟨{ aabRdy with wbuf := [(0, 0x61), (1, 0x78)] }, rfl, by decide, by decide, by decide, by decide⟩, inv_aabRdy, rfl⟩

theorem witness_FailedEncodeLeavesNoOutput :
    (∃ t, exec .encode { aabRdy with wlen := 3 } = .next t ∧ t.ecode ≠ .ok) ∧
    Inv aabBlt ∧ aabBlt.phase ≠ .ready ∧ ∃ t, exec .encode aabBlt = .next t :=
  ⟨⟨_, rfl, by decide⟩, inv_aabBlt, by decide, _, rfl⟩

theorem witness_EncodeWritesOnlyItsOutput : ∃ t, exec .encode aabRdy = .next t ∧ t.ecode = .ok := ⟨_, rfl, by decide⟩

/-- "10" is the codes of a and b. -/
theorem witness_DecodeWalksTheTree :
    Inv aabRdy ∧ aabRdy.phase = .ready ∧ aabRdy.ilen.toNat = aabRdy.params.maxBits ∧ (∀ k ∈ [0, 1], k < nsym aabRdy) ∧
    (List.range aabRdy.ilen.toNat).map (ibufAt aabRdy) = [0, 1].flatMap (leafCode aabRdy) :=
  ⟨inv_aabRdy, rfl, rfl, by decide, by decide⟩

theorem witness_DegenerateTreeDecodes :
    (∃ s : State, Inv s ∧ s.phase = .ready ∧ nsym s = 1 ∧ s.ilen.toNat = s.params.maxBits ∧
      ∀ i, i < s.ilen.toNat → ibufAt s i = false) ∧
    ∃ s : State, Inv s ∧ s.phase = .ready ∧ nsym s = 1 ∧ s.ilen.toNat = s.params.maxBits ∧
      1 < s.ilen.toNat ∧ ibufAt s 1 = true ∧ ∀ i', i' < 1 → ibufAt s i' = false :=
  ⟨⟨_, inv_with_input inv_aaaRdy [(0, false), (1, false)] 2 (by decide), rfl, by decide, rfl, by decide⟩,
    ⟨_, inv_with_input inv_aaaRdy [(0, false), (1, true)] 2 (by decide), rfl, by decide, rfl, by decide, rfl, by decide⟩⟩

/-- INVALID_CODE at bit 0 in the tree of one symbol; TRUNCATED_CODE for "01" in the tree of "aabbc". -/
theorem witness_DecodeErrorsAreExplained :
    (Inv aaaRdy ∧ ∃ t, exec .decode aaaRdy = .next t ∧ t.ecode = .invalidCode) ∧
    ∃ s : State, Inv s ∧ s.phase = .built ∧ s.ilen.toNat ≤ s.params.maxBits ∧ 1 < nsym s ∧ 2 < nsym s ∧
      leafCode s 2 = [true] ++ [false] ∧ (List.range s.ilen.toNat).map (ibufAt s) = [1].flatMap (leafCode s) ++ [true] ∧
      ∃ t, exec .decode s = .next t ∧ t.ecode = .truncatedCode ∧ t.errinfo = 1 :=
  ⟨⟨inv_aaaRdy, _, rfl, by decide⟩,
    _, inv_with_input inv_aabbcBlt [(0, false), (1, true)] 2 (by decide), rfl, by decide, by decide, by decide, by decide,
    by decide, _, rfl, by decide, by decide⟩

theorem witness_FailedDecodeLeavesNoOutput :
    (∃ t, exec .decode aaaRdy = .next t ∧ t.ecode ≠ .ok) ∧
    (Inv loaded ∧ loaded.phase = .empty ∧ ∃ t, exec .decode loaded = .next t) ∧
    Inv aabCol ∧ aabCol.phase = .collect ∧ ∃ t, exec .decode aabCol = .next t :=
  ⟨⟨_, rfl, by decide⟩, ⟨inv_loaded, rfl, _, rfl⟩, inv_aabCol, rfl, _, rfl⟩

theorem witness_DecodeWritesOnlyItsOutput : ∃ t, exec .decode aabBlt = .next t ∧ t.ecode = .ok := ⟨_, rfl, by decide⟩

/-- The second state is one the host's copying gives, with MSEL and MADDR moved. -/
theorem witness_DecodeInvertsEncodeOfAWord :
    Inv aabRdy ∧ ∃ t u : State, exec .encode aabRdy = .next t ∧ t.ecode = .ok ∧
      u.params = t.params ∧ u.phase = t.phase ∧ u.node = t.node ∧ u.root = t.root ∧ u.ilen = t.olen ∧
      (∀ i, i < t.olen.toNat → ibufAt u i = obufAt t i) ∧ u.msel ≠ t.msel ∧ u.maddr ≠ t.maddr :=
  ⟨inv_aabRdy, _, { aabRdy with msel := 6, maddr := 1 }, rfl, by decide, rfl, rfl, rfl, rfl, by decide, by decide,
    by decide, by decide⟩

theorem witness_MisalignedAccessIsRefused :
    (0x01#8).extractLsb' 0 2 ≠ 0 ∧ (0x12#8).extractLsb' 0 2 ≠ 0 ∧ (0xFF#8).extractLsb' 0 2 ≠ 0 := by decide

theorem witness_ReservedOffsetsReadZero :
    ((0x44#8).toNat % 4 = 0 ∧ 0x44 ≤ (0x44#8).toNat) ∧ (0xFC#8).toNat % 4 = 0 ∧ 0x44 ≤ (0xFC#8).toNat := by decide

theorem witness_WritableRegistersStoreTheirBits : aabRdy.pend = none := rfl

theorem witness_WindowAccessMovesTheAddress : aabRdy.pend = none ∧ (during 3 [] aabCol).pend ≠ none := by decide

theorem witness_WindowMapLayout : (510 < 511) ∧ (1022 ≤ 1022) ∧ (31 < 32) ∧ (3 < 4) ∧ 8 ≤ (8#4).toNat ∧ 8 ≤ (15#4).toNat := by
  decide

theorem witness_StatusWordLayout : aabRdy.pend = none := rfl

theorem witness_IdentificationIsConstant : ∃ t, step { aabRdy with agenda := [.hardReset] } = .next t := ⟨_, rfl⟩

theorem witness_OnlyStagesMoveThePhase :
    (∃ t, step { aabRdy with agenda := [.hardReset] } = .next t ∧ t.phase ≠ aabRdy.phase) ∧
    (∃ t, step (during 1 [] aabRdy) = .next t ∧ t.phase ≠ aabRdy.phase) ∧
    (∃ t, step (during 0x6102 [] loaded) = .next t ∧ t.phase ≠ loaded.phase) ∧
    (∃ t, step (during 3 [] aabCol) = .next t ∧ t.phase ≠ aabCol.phase) ∧
    ∃ t, step (during 4 [] aabBlt) = .next t ∧ t.phase ≠ aabBlt.phase :=
  ⟨⟨_, rfl, by decide⟩, ⟨_, rfl, by decide⟩, ⟨_, rfl, by decide⟩, ⟨_, rfl, by decide⟩, _, rfl, by decide⟩

theorem witness_CompletionsWriteTheOutcome :
    (∃ t, step (during 3 [] loaded) = .next t ∧ t.ecode = .emptyInput) ∧
    (∃ t, step (during 0 [] loaded) = .next t ∧ t.ecode = .ok) ∧
    ∃ t, step { loaded with agenda := [.write 0x10 3] } = .next t :=
  ⟨⟨_, rfl, by decide⟩, ⟨_, rfl, by decide⟩, _, rfl⟩

theorem witness_HazardFlagIsSticky :
    (∃ t, step (during 3 [.write 0x00 0] aabCol) = .next t ∧ t.haz = true) ∧
    (∃ t, step (during 3 [.write 0x29 1] aabCol) = .next t ∧ t.haz = false) ∧
    ∃ t, step { aabCol with haz := true, agenda := [.write 0x10 7] } = .next t ∧ t.haz = false :=
  ⟨⟨_, rfl, by decide⟩, ⟨_, rfl, by decide⟩, _, rfl, by decide⟩

theorem witness_WritesWhileBusyAreDropped :
    (during 3 [] aabCol).pend ≠ none := by decide

theorem witness_OnlyTheirWritersChangeTheMemories :
    (∃ t, step (during 3 [] aabCol) = .next t ∧ t.node ≠ aabCol.node ∧ t.root ≠ aabCol.root) ∧
    (∃ t, step (during 4 [] aabBlt) = .next t ∧ t.clen ≠ aabBlt.clen) ∧
    (∃ t, step (during 5 [] aabRdy) = .next t ∧ t.obuf ≠ aabRdy.obuf) ∧
    (∃ t, step (during 6 [] aabRdy) = .next t ∧ t.dbuf ≠ aabRdy.dbuf) ∧
    (∃ t, step { aabRdy with msel := 4, agenda := [.write 0x40 0] } = .next t ∧ t.wbuf ≠ aabRdy.wbuf) ∧
    (∃ t, step { aabRdy with msel := 6, agenda := [.write 0x40 0] } = .next t ∧ t.ibuf ≠ aabRdy.ibuf) ∧
    (∃ t, step { aabRdy with agenda := [.hardReset] } = .next t ∧ t.wlen ≠ aabRdy.wlen ∧ t.ilen ≠ aabRdy.ilen) ∧
    (∃ t, step { aabRdy with agenda := [.write 0x38 7] } = .next t ∧ t.msel ≠ aabRdy.msel) ∧
    ∃ t, step { aabRdy with agenda := [.read 0x40] } = .next t ∧ t.maddr ≠ aabRdy.maddr :=
  ⟨⟨_, rfl, by decide⟩, ⟨_, rfl, by decide⟩, ⟨_, rfl, by decide⟩, ⟨_, rfl, by decide⟩, ⟨_, rfl, by decide⟩,
    ⟨_, rfl, by decide⟩, ⟨_, rfl, by decide⟩, ⟨_, rfl, by decide⟩, _, rfl, by decide⟩

theorem witness_ReadsWhileBusy :
    (during 3 [] aabCol).pend ≠ none ∧ ((0x44#8).toNat % 4 = 0 ∧ 0x44 ≤ (0x44#8).toNat) ∧
      (0xFC#8).toNat % 4 = 0 ∧ 0x44 ≤ (0xFC#8).toNat := by decide

theorem witness_HardwareResetValues : nextEvent (during 3 [.hardReset] aabCol) = .hardReset := rfl

/-- A word of exactly `MAX_WORD` bytes and exactly `MAX_BITS` bits. -/
theorem witness_LoadStatementsFillTheBuffers :
    aabRdy.pend = none ∧ aabRdy.params.legal = true ∧ [0x61#8, 0x62#8].length = aabRdy.params.maxWord ∧
      [true, false].length = aabRdy.params.maxBits := by decide

theorem witness_ResetStateMeetsTheInvariant :
    Params.legal ⟨1, 1, 1⟩ = true ∧ Params.legal ⟨32, 65535, 65535⟩ = true := by decide

theorem witness_EveryStepKeepsTheMemories : MemoriesOk aabRdy ∧ ∃ t, step aabRdy = .next t :=
  ⟨inv_aabRdy.memories, _, rfl⟩

theorem witness_EveryStepKeepsTheOutputs :
    MemoriesOk aabRdy ∧ OutcomeOk aabRdy ∧ OutputsOk aabRdy ∧ ∃ t, step aabRdy = .next t :=
  ⟨inv_aabRdy.memories, inv_aabRdy.outcome, inv_aabRdy.outputs, _, rfl⟩

theorem witness_EveryStepKeepsTheCounts :
    MemoriesOk aabCol ∧ CountsOk aabCol ∧ StagesOk aabCol ∧ ∃ t, step aabCol = .next t :=
  ⟨inv_aabCol.memories, inv_aabCol.counts, inv_aabCol.stages, _, rfl⟩

theorem witness_EveryStepKeepsTheInvariant : Inv aabRdy ∧ ∃ t, step aabRdy = .next t := ⟨inv_aabRdy, _, rfl⟩

end Sys2Proof.Tests
end

section
/-! PROOFS. What each command can do, one inversion lemma a command: every way it completes, with the condition it
completes so under. Every proof about a command starts from these. -/

namespace Sys2Proof.Machine

/-- The phases before a tree is built and those after it (R20). -/
theorem not_built_or_ready_iff (p : Phase) : ¬ (p = .built ∨ p = .ready) ↔ p = .empty ∨ p = .collect := by
  cases p <;> simp

/-- COLLECT (R70, R71). -/
theorem execCollect_cases {b : Byte} {s t : State} (h : execCollect b s = .next t) :
    ((s.phase = .built ∨ s.phase = .ready) ∧ t = raise .sequenceError (encode (.collect b)) s) ∨
    ((s.phase = .empty ∨ s.phase = .collect) ∧ s.total.toNat = countMax s.params ∧
      t = raise .countOverflow (encode (.collect b)) s) ∨
    ((s.phase = .empty ∨ s.phase = .collect) ∧ s.total.toNat ≠ countMax s.params ∧
      t = complete { s with
        freq := Memory.write 0 s.freq b.toNat (count s.params ((freqAt s b).toNat + 1))
        total := count s.params (s.total.toNat + 1)
        phase := .collect }) := by
  unfold execCollect at h
  split_ifs at h with hphase hfull <;> cases h
  · exact .inl ⟨hphase, rfl⟩
  · exact .inr (.inl ⟨(not_built_or_ready_iff _).1 hphase, hfull, rfl⟩)
  · exact .inr (.inr ⟨(not_built_or_ready_iff _).1 hphase, hfull, rfl⟩)

/-- BUILD (R75). -/
theorem execBuild_cases {s t : State} (h : execBuild s = .next t) :
    (s.phase = .empty ∧ t = raise .emptyInput 0 s) ∨
    ((s.phase = .built ∨ s.phase = .ready) ∧ t = raise .sequenceError (encode .build) s) ∨
    (s.phase = .collect ∧ t = complete { s with node := buildArena s, root := buildRoot s, phase := .built }) := by
  unfold execBuild at h
  split_ifs at h with hempty hdone <;> cases h
  · exact .inl ⟨hempty, rfl⟩
  · exact .inr (.inl ⟨hdone, rfl⟩)
  · exact .inr (.inr ⟨((not_built_or_ready_iff _).1 hdone).resolve_left hempty, rfl⟩)

/-- DERIVE (R87, R89). -/
theorem execDerive_cases {s t : State} (h : execDerive s = .next t) :
    (s.phase ≠ .built ∧ t = raise .sequenceError (encode .derive) s) ∨
    (s.phase = .built ∧ (nodeAt s s.root.toNat).leaf = true ∧
      t = complete { recordCode (nodeAt s s.root.toNat).sym [false] s with phase := .ready }) ∨
    (s.phase = .built ∧ (nodeAt s s.root.toNat).leaf = false ∧
      t = complete { recordLeaves s s.node with phase := .ready }) := by
  unfold execDerive at h
  split_ifs at h with hphase hleaf <;> cases h
  · exact .inl ⟨hphase, rfl⟩
  · exact .inr (.inl ⟨not_not.1 hphase, hleaf, rfl⟩)
  · exact .inr (.inr ⟨not_not.1 hphase, Bool.eq_false_iff.2 hleaf, rfl⟩)

/-- The lookup pass reads CLEN alone, so clearing the output does not change it. -/
@[simp] theorem firstUnknown_clearEncoded (s : State) (j : Nat) (bs : List Byte) :
    firstUnknown (clearEncoded s) j bs = firstUnknown s j bs := by
  induction bs generalizing j with
  | nil => rfl
  | cons b bs ih => simp only [firstUnknown, ih]; rfl

/-- ENCODE (R94, R95): OBUF and OLEN are cleared on every path. -/
theorem execEncode_cases {s t : State} (h : execEncode s = .next t) :
    (s.phase ≠ .ready ∧ t = raise .sequenceError (encode .encode) (clearEncoded s)) ∨
    (s.phase = .ready ∧ s.params.maxWord < s.wlen.toNat ∧
      t = raise .lengthRange (s.wlen.setWidth 32) (clearEncoded s)) ∨
    (∃ j b, s.phase = .ready ∧ s.wlen.toNat ≤ s.params.maxWord ∧ firstUnknown s 0 (wordBytes s) = some (j, b) ∧
      t = raise .unknownSymbol (unknownInfo j b) (clearEncoded s)) ∨
    (s.phase = .ready ∧ s.wlen.toNat ≤ s.params.maxWord ∧ firstUnknown s 0 (wordBytes s) = none ∧
      s.params.maxBits < encodedLength s (wordBytes s) ∧
      t = raise .outputOverflow (BitVec.ofNat 32 (encodedLength s (wordBytes s))) (clearEncoded s)) ∨
    (s.phase = .ready ∧ s.wlen.toNat ≤ s.params.maxWord ∧ firstUnknown s 0 (wordBytes s) = none ∧
      encodedLength s (wordBytes s) ≤ s.params.maxBits ∧
      t = complete { s with
        obuf := Memory.writeList false [] 0 (encodedBits s (wordBytes s))
        olen := BitVec.ofNat 16 (encodedLength s (wordBytes s)) }) := by
  have hword : wordBytes (clearEncoded s) = wordBytes s := rfl
  simp only [execEncode, clearEncoded_phase, clearEncoded_params, clearEncoded_wlen, hword,
    firstUnknown_clearEncoded] at h
  split at h
  · rename_i hphase
    cases h
    exact .inl ⟨hphase, rfl⟩
  rename_i hphase
  rw [ne_eq, not_not] at hphase
  split at h
  · rename_i hlen
    cases h
    exact .inr (.inl ⟨hphase, hlen, rfl⟩)
  rename_i hlen
  rw [Nat.not_lt] at hlen
  split at h
  · rename_i j b hunknown
    cases h
    exact .inr (.inr (.inl ⟨j, b, hphase, hlen, hunknown, rfl⟩))
  · rename_i hknown
    split at h <;> rename_i hroom <;> cases h
    · exact .inr (.inr (.inr (.inl ⟨hphase, hlen, hknown, hroom, rfl⟩)))
    · exact .inr (.inr (.inr (.inr ⟨hphase, hlen, hknown, Nat.not_lt.1 hroom, rfl⟩)))

/-- The walk reads NODE and ROOT alone, so clearing the output does not change it. -/
@[simp] theorem walk_clearDecoded (s : State) (i : Nat) (c : Cursor) (bits : List Bool) :
    walk (clearDecoded s) i c bits = walk s i c bits := by
  induction bits generalizing i c with
  | nil => rfl
  | cons bit bits ih =>
    have hbit : walkBit (clearDecoded s) i bit c = walkBit s i bit c := rfl
    simp only [walk, hbit, ih]

/-- DECODE (R102, R107): DBUF and DLEN are cleared on every path. -/
theorem execDecode_cases {s t : State} (h : execDecode s = .next t) :
    ((s.phase = .empty ∨ s.phase = .collect) ∧ t = raise .sequenceError (encode .decode) (clearDecoded s)) ∨
    ((s.phase = .built ∨ s.phase = .ready) ∧ s.params.maxBits < s.ilen.toNat ∧
      t = raise .lengthRange (s.ilen.setWidth 32) (clearDecoded s)) ∨
    (∃ i, (s.phase = .built ∨ s.phase = .ready) ∧ s.ilen.toNat ≤ s.params.maxBits ∧
      walk s 0 (walkStart s) (inputBits s) = .error i ∧
      t = raise .invalidCode (BitVec.ofNat 32 i) (clearDecoded s)) ∨
    (∃ c, (s.phase = .built ∨ s.phase = .ready) ∧ s.ilen.toNat ≤ s.params.maxBits ∧
      walk s 0 (walkStart s) (inputBits s) = .ok c ∧ c.cur ≠ s.root ∧
      t = raise .truncatedCode (BitVec.ofNat 32 c.start) (clearDecoded s)) ∨
    (∃ c, (s.phase = .built ∨ s.phase = .ready) ∧ s.ilen.toNat ≤ s.params.maxBits ∧
      walk s 0 (walkStart s) (inputBits s) = .ok c ∧ c.cur = s.root ∧
      t = complete { s with dbuf := Memory.writeList 0 [] 0 c.out, dlen := BitVec.ofNat 16 c.out.length }) := by
  have late : ¬ (s.phase ≠ .built ∧ s.phase ≠ .ready) → s.phase = .built ∨ s.phase = .ready :=
    fun h => not_not.1 (mt not_or.1 h)
  have hbits : inputBits (clearDecoded s) = inputBits s := rfl
  have hstart : walkStart (clearDecoded s) = walkStart s := rfl
  simp only [execDecode, clearDecoded_phase, clearDecoded_params, clearDecoded_ilen, hbits, hstart,
    walk_clearDecoded] at h
  split_ifs at h with hphase hlen
  · cases h
    exact .inl ⟨(not_built_or_ready_iff _).1 (not_or.2 hphase), rfl⟩
  · cases h
    exact .inr (.inl ⟨late hphase, hlen, rfl⟩)
  · split at h
    · rename_i i hwalk
      cases h
      exact .inr (.inr (.inl ⟨i, late hphase, Nat.not_lt.1 hlen, hwalk, rfl⟩))
    · rename_i c hwalk
      split at h <;> rename_i hcur <;> cases h
      · exact .inr (.inr (.inr (.inl ⟨c, late hphase, Nat.not_lt.1 hlen, hwalk, hcur, rfl⟩)))
      · exact .inr (.inr (.inr (.inr ⟨c, late hphase, Nat.not_lt.1 hlen, hwalk, not_not.1 hcur, rfl⟩)))

end Sys2Proof.Machine
end

section
/-! PROOFS. Sizes: how many symbols, bits and bytes a command handles at most. -/

namespace Sys2Proof.Machine

/-- R7, R25: there are at most 256 symbols. -/
theorem nsym_le (s : State) : nsym s ≤ 256 := by
  calc nsym s ≤ alphabet.length := List.length_filter_le _ _
    _ = 256 := by simp [alphabet]

/-- A code has CLEN bits (R29). -/
@[simp] theorem length_codeOf (s : State) (b : Byte) : (codeOf s b).length = (clenAt s b).toNat := by simp [codeOf]

/-- The packing pass writes as many bits as the lookup pass has counted (R94). -/
@[simp] theorem length_encodedBits (s : State) (bs : List Byte) : (encodedBits s bs).length = encodedLength s bs := by
  simp [encodedBits, encodedLength, List.length_flatMap]

/-- There are ILEN bits to decode (R102). -/
@[simp] theorem length_inputBits (s : State) : (inputBits s).length = s.ilen.toNat := by simp [inputBits]

/-- One bit decodes to at most one byte (R102). -/
theorem length_out_walkBit {s : State} {i : Nat} {bit : Bool} {c c' : Cursor} (h : walkBit s i bit c = some c') :
    c'.out.length ≤ c.out.length + 1 := by
  simp only [walkBit] at h
  split_ifs at h <;> cases h <;> simp

/-- A walk decodes at most one byte a bit (R102, R108). -/
theorem length_out_walk {s : State} {i : Nat} {c c' : Cursor} {bits : List Bool} (h : walk s i c bits = .ok c') :
    c'.out.length ≤ c.out.length + bits.length := by
  induction bits generalizing i c with
  | nil => cases h; simp
  | cons bit bits ih =>
    simp only [walk] at h
    split at h
    · cases h
    · rename_i c1 hbit
      have h1 := length_out_walkBit hbit
      have h2 := ih h
      simp only [List.length_cons]
      omega

end Sys2Proof.Machine
end

section
/-! PROOFS. The arena BUILD writes is canonical and has at most 511 records. -/

namespace Sys2Proof.Machine

/-- An arena in canonical form and inside its bound (R28). -/
def ArenaOk (nodes : Memory Node) : Prop := Memory.wf Node.zero nodes ∧ Memory.within Config.nNode nodes

/-- A write of a record inside the bound. -/
theorem ArenaOk.write {nodes : Memory Node} (h : ArenaOk nodes) {k : Nat} (hk : k < Config.nNode) (r : Node) :
    ArenaOk (Memory.write Node.zero nodes k r) :=
  ⟨Memory.wf_write _ _ h.1 k r, Memory.within_write _ _ _ h.2 k hk r⟩

theorem ArenaOk.placeLeaves {freq : Byte → Word} {bs : List Byte} {nodes : Memory Node} (h : ArenaOk nodes) {k : Nat}
    (hk : k + bs.length ≤ Config.nNode) : ArenaOk (placeLeaves freq nodes k bs) := by
  induction bs generalizing nodes k with
  | nil => exact h
  | cons b bs ih =>
    rw [List.length_cons] at hk
    exact ih (h.write (by omega) _) (by omega)

/-- A merge takes two nodes off the queue, in the order `PopMin` gives them, and writes and enqueues their parent
(R78, R79). -/
theorem mergeOne_eq_some {p : Params} {m : Nat} {nodes nodes' : Memory Node} {q q' : List Nat}
    (h : mergeOne p m nodes q = some (nodes', q')) :
    ∃ a q1 c q2, popMin (fun k => (recordAt nodes k).f) q = some (a, q1) ∧
      popMin (fun k => (recordAt nodes k).f) q1 = some (c, q2) ∧
      nodes' = Memory.write Node.zero nodes m
        (Node.mkInternal a c (count p ((recordAt nodes a).f.toNat + (recordAt nodes c).f.toNat))) ∧
      q' = q2 ++ [m] := by
  unfold mergeOne at h
  split at h
  · cases h
  · rename_i a q1 ha
    split at h
    · cases h
    · rename_i c q2 hc
      cases h
      exact ⟨a, q1, c, q2, ha, hc, rfl, rfl⟩

theorem ArenaOk.mergeLoop {p : Params} {steps m : Nat} {nodes : Memory Node} {q : List Nat} (h : ArenaOk nodes)
    (hm : m + steps ≤ Config.nNode) : ArenaOk (mergeLoop p steps m nodes q) := by
  induction steps generalizing m nodes q with
  | zero => exact h
  | succ steps ih =>
    simp only [Machine.mergeLoop]
    split
    · exact h
    · rename_i nodes' q' hmerge
      obtain ⟨_, _, _, _, -, -, rfl, -⟩ := mergeOne_eq_some hmerge
      exact ih (h.write (by omega) _) (by omega)

/-- `n` leaves and `n − 1` merges fill at most 511 records (R75, R83). -/
theorem ArenaOk.buildArena {s : State} (h : ArenaOk s.node) : ArenaOk (buildArena s) := by
  have hn := nsym_le s
  have hleaves : 0 + (symbols s).length ≤ Config.nNode := by
    change 0 + nsym s ≤ 511
    omega
  have hmerges : nsym s + (nsym s - 1) ≤ Config.nNode := by
    change _ ≤ 511
    omega
  exact (h.placeLeaves hleaves).mergeLoop hmerges

end Sys2Proof.Machine
end

section
/-! PROOFS. Every event keeps the memories canonical and inside their bounds. -/

namespace Sys2Proof.Machine

variable {s : State}

/-! ## The shared operations -/

theorem MemoriesOk.complete (h : MemoriesOk s) : MemoriesOk (complete s) := { h with }

theorem MemoriesOk.raise (h : MemoriesOk s) (e : ErrCode) (w : Word) : MemoriesOk (raise e w s) := { h with }

theorem MemoriesOk.accept (h : MemoriesOk s) (w : Word) : MemoriesOk (accept w s) := { h with }

theorem MemoriesOk.advance (h : MemoriesOk s) : MemoriesOk (advance s) := { h with }

theorem MemoriesOk.respond (h : MemoriesOk s) (r : Response) : MemoriesOk (respond r s) := { h with }

theorem MemoriesOk.stepMaddr (h : MemoriesOk s) : MemoriesOk (stepMaddr s) := { h with }

theorem MemoriesOk.clearEncoded (h : MemoriesOk s) : MemoriesOk (clearEncoded s) :=
  { h with obuf := ⟨Memory.wf_nil _, List.forall_mem_nil _⟩ }

theorem MemoriesOk.clearDecoded (h : MemoriesOk s) : MemoriesOk (clearDecoded s) :=
  { h with dbuf := ⟨Memory.wf_nil _, List.forall_mem_nil _⟩ }

/-- A code is recorded at a byte value, which is below 256. -/
theorem MemoriesOk.recordCode (h : MemoriesOk s) (b : Byte) (p : List Bool) : MemoriesOk (recordCode b p s) :=
  { h with
    clen := ⟨Memory.wf_write _ _ h.clen.1 _ _, Memory.within_write _ _ _ h.clen.2 _ b.isLt _⟩
    cbits := ⟨Memory.wf_write _ _ h.cbits.1 _ _, Memory.within_write _ _ _ h.cbits.2 _ b.isLt _⟩ }

theorem MemoriesOk.recordLeaves (h : MemoriesOk s) (cells : Memory Node) : MemoriesOk (recordLeaves s cells) := by
  induction cells generalizing s with
  | nil => exact h
  | cons c cells ih =>
    simp only [Machine.recordLeaves]
    split
    · exact ih (h.recordCode _ _)
    · exact ih h

/-- All memories are empty after a reset with legal parameters (R132). -/
theorem memoriesOk_resetOf {p : Params} (hp : p.legal = true) (agenda : List Event) (free fill : Nat) :
    MemoriesOk (State.resetOf p agenda free fill) where
  params := hp
  freq := ⟨Memory.wf_nil _, List.forall_mem_nil _⟩
  node := ⟨Memory.wf_nil _, List.forall_mem_nil _⟩
  clen := ⟨Memory.wf_nil _, List.forall_mem_nil _⟩
  cbits := ⟨Memory.wf_nil _, List.forall_mem_nil _⟩
  wbuf := ⟨List.Pairwise.nil, List.forall_mem_nil _⟩
  obuf := ⟨Memory.wf_nil _, List.forall_mem_nil _⟩
  ibuf := ⟨List.Pairwise.nil, List.forall_mem_nil _⟩
  dbuf := ⟨Memory.wf_nil _, List.forall_mem_nil _⟩

theorem MemoriesOk.hardReset (h : MemoriesOk s) : MemoriesOk (hardReset s) := memoriesOk_resetOf h.params _ _ _

/-! ## Bus transactions -/

/-- A store through the window stays below the capacity (R51). -/
theorem MemoriesOk.storeWindow (h : MemoriesOk s) (v : Word) : MemoriesOk (storeWindow v s) := by
  obtain ⟨-, hstore⟩ | ⟨-, hstore⟩ | ⟨-, -, hstore⟩ := storeWindow_cases v s <;> rw [hstore]
  · exact { h with wbuf := ⟨Memory.rising_putList _ _ _ h.wbuf.1 _, Memory.within_putList _ _ _ h.wbuf.2 _⟩ }
  · exact { h with ibuf := ⟨Memory.rising_putList _ _ _ h.ibuf.1 _, Memory.within_putList _ _ _ h.ibuf.2 _⟩ }
  · exact h

theorem MemoriesOk.readEffect (h : MemoriesOk s) (r : Reg) : MemoriesOk (readEffect s r) := by
  cases r
  case mdata => exact h.stepMaddr
  all_goals exact h

theorem MemoriesOk.writeEffect (h : MemoriesOk s) (v : Word) (r : Reg) : MemoriesOk (writeEffect v s r) := by
  cases r
  case cmd => exact h.accept v
  case mdata => exact (h.storeWindow v).stepMaddr
  all_goals exact { h with }

theorem MemoriesOk.busRead (h : MemoriesOk s) (addr : BitVec 8) : MemoriesOk (busRead addr s) := by
  obtain ⟨-, hread⟩ | ⟨-, -, hread⟩ | ⟨r, -, -, -, -, hread⟩ | ⟨r, -, -, -, hread⟩ := busRead_cases addr s <;> rw [hread]
  · exact h.respond _
  · exact h.respond _
  · exact { h with }
  · exact (h.readEffect r).respond _

theorem MemoriesOk.busWrite (h : MemoriesOk s) (addr : BitVec 8) (v : Word) : MemoriesOk (busWrite addr v s) := by
  obtain ⟨-, hwrite⟩ | ⟨-, -, hwrite⟩ | ⟨-, -, -, hwrite⟩ | ⟨r, -, -, -, hwrite⟩ := busWrite_cases addr v s <;> rw [hwrite]
  · exact h.respond _
  · exact { h with }
  · exact h.respond _
  · exact (h.writeEffect v r).respond _

/-! ## Commands -/

variable {t : State}

theorem MemoriesOk.endSession (h : MemoriesOk s) : MemoriesOk (endSession s) :=
  { memoriesOk_resetOf h.params s.agenda s.free s.fill with wbuf := h.wbuf, ibuf := h.ibuf }

theorem MemoriesOk.execCollect (h : MemoriesOk s) {b : Byte} (ht : execCollect b s = .next t) : MemoriesOk t := by
  obtain ⟨-, rfl⟩ | ⟨-, -, rfl⟩ | ⟨-, -, rfl⟩ := execCollect_cases ht
  · exact h.raise _ _
  · exact h.raise _ _
  · exact { h with freq := ⟨Memory.wf_write _ _ h.freq.1 _ _, Memory.within_write _ _ _ h.freq.2 _ b.isLt _⟩ }

theorem MemoriesOk.execBuild (h : MemoriesOk s) (ht : execBuild s = .next t) : MemoriesOk t := by
  obtain ⟨-, rfl⟩ | ⟨-, rfl⟩ | ⟨-, rfl⟩ := execBuild_cases ht
  · exact h.raise _ _
  · exact h.raise _ _
  · exact { h with node := ArenaOk.buildArena h.node }

theorem MemoriesOk.execDerive (h : MemoriesOk s) (ht : execDerive s = .next t) : MemoriesOk t := by
  obtain ⟨-, rfl⟩ | ⟨-, -, rfl⟩ | ⟨-, -, rfl⟩ := execDerive_cases ht
  · exact h.raise _ _
  · exact { h.recordCode (nodeAt s s.root.toNat).sym [false] with }
  · exact { h.recordLeaves s.node with }

theorem MemoriesOk.execEncode (h : MemoriesOk s) (ht : execEncode s = .next t) : MemoriesOk t := by
  obtain ⟨-, rfl⟩ | ⟨-, -, rfl⟩ | ⟨j, b, -, -, -, rfl⟩ | ⟨-, -, -, -, rfl⟩ | ⟨-, -, -, hroom, rfl⟩ := execEncode_cases ht
  · exact h.clearEncoded.raise _ _
  · exact h.clearEncoded.raise _ _
  · exact h.clearEncoded.raise _ _
  · exact h.clearEncoded.raise _ _
  · have hfits : 0 + (encodedBits s (wordBytes s)).length ≤ s.params.maxBits := by simpa using hroom
    exact { h with
      obuf := ⟨Memory.wf_writeList _ _ _ (Memory.wf_nil _) _,
        Memory.within_writeList _ _ _ _ (List.forall_mem_nil _) _ hfits⟩ }

theorem MemoriesOk.execDecode (h : MemoriesOk s) (ht : execDecode s = .next t) : MemoriesOk t := by
  obtain ⟨-, rfl⟩ | ⟨-, -, rfl⟩ | ⟨i, -, -, -, rfl⟩ | ⟨c, -, -, -, -, rfl⟩ | ⟨c, -, hlen, hwalk, -, rfl⟩ :=
    execDecode_cases ht
  · exact h.clearDecoded.raise _ _
  · exact h.clearDecoded.raise _ _
  · exact h.clearDecoded.raise _ _
  · exact h.clearDecoded.raise _ _
  · have hfits : 0 + c.out.length ≤ s.params.maxBits := by
      have hout := length_out_walk hwalk
      simp only [walkStart, List.length_nil, length_inputBits] at hout
      omega
    exact { h with
      dbuf := ⟨Memory.wf_writeList _ _ _ (Memory.wf_nil _) _,
        Memory.within_writeList _ _ _ _ (List.forall_mem_nil _) _ hfits⟩ }

theorem MemoriesOk.exec (h : MemoriesOk s) {i : Instr} (ht : exec i s = .next t) : MemoriesOk t := by
  cases i with
  | nop => cases ht; exact h.complete
  | reset => cases ht; exact h.endSession.complete
  | collect b => exact h.execCollect ht
  | build => exact h.execBuild ht
  | derive => exact h.execDerive ht
  | encode => exact h.execEncode ht
  | decode => exact h.execDecode ht
  | ack => cases ht; exact h.complete

/-- Settles O56: `step_cases` names the six things a step can do, and each keeps `MemoriesOk`. -/
theorem everyStepKeepsTheMemories : Obligations.EveryStepKeepsTheMemories := by
  intro s t h ht
  obtain ⟨-, -, rfl⟩ | ⟨w, i, -, -, -, hexec⟩ | ⟨w, e, -, -, -, rfl⟩ | ⟨addr, -, rfl⟩ | ⟨addr, v, -, rfl⟩ | ⟨-, rfl⟩ :=
    step_cases s t ht
  · exact h.advance
  · exact h.advance.exec hexec
  · exact h.advance.raise .illegalCommand w
  · exact h.advance.busRead addr
  · exact h.advance.busWrite addr v
  · exact h.advance.hardReset

end Sys2Proof.Machine
end

section
/-! PROOFS. The state after a hardware reset (R131, R132). -/

namespace Sys2Proof.Machine

theorem step_hardReset {s : State} (h : nextEvent s = .hardReset) : step s = .next (hardReset (advance s)) := by
  simp only [step, h]

/-- STATUS reads 0 after a reset (R132). -/
@[simp] theorem statusWord_resetOf (p : Params) (agenda : List Event) (free fill : Nat) :
    statusWord (State.resetOf p agenda free fill) = 0 := by
  simp [statusWord, busy, State.resetOf, Phase.code, ErrCode.code]

/-- With no count in FREQ there is no symbol (R25). -/
theorem nsym_eq_zero_of_freq_nil {s : State} (h : s.freq = []) : nsym s = 0 := by
  simp [nsym, symbols, freqAt, h]

@[simp] theorem nsym_resetOf (p : Params) (agenda : List Event) (free fill : Nat) :
    nsym (State.resetOf p agenda free fill) = 0 := nsym_eq_zero_of_freq_nil rfl

/-- Settles O53: the step is `hardReset`, whose memories list no cell, so that each reads its reset value. -/
theorem hardwareResetValues : Obligations.HardwareResetValues := by
  refine ⟨fun s h => ⟨hardReset (advance s), step_hardReset h, rfl, ?status, ?symbols, ?nodes, ?wbuf, ?ibuf⟩,
    statusWord_resetOf _ _ _ _, nsym_resetOf _ _ _ _, rfl⟩
  case status => exact statusWord_resetOf _ _ _ _
  case symbols => exact nsym_resetOf _ _ _ _
  all_goals exact fun _ => rfl

end Sys2Proof.Machine
end

section
/-! PROOFS. A word that decodes is the word of its command (R63, R64). -/

namespace Sys2Proof

/-- The three fields make up the word (R61). -/
theorem wordOfFields_cmdFields (w : Word) : wordOfFields (cmdFields w) = w := by
  apply BitVec.eq_of_getLsbD_eq
  intro i hi
  simp only [wordOfFields, cmdFields, BitVec.getLsbD_append, BitVec.getLsbD_extractLsb']
  split_ifs
  · simp [*]
  · simp only [show i - 8 < 8 by omega, decide_true, Bool.true_and, show 8 + (i - 8) = i by omega]
  · simp only [show i - 8 - 8 < 16 by omega, decide_true, Bool.true_and, show 16 + (i - 8 - 8) = i by omega]

/-- An opcode selects the command that has it, which takes no argument (R63). -/
theorem plainCommand_eq_some {op : BitVec 8} {i : Instr} (h : plainCommand op = some i) :
    i.opcode = op ∧ i.argument = 0 := by
  unfold plainCommand at h
  split at h <;> cases h <;> rename_i hop <;> exact ⟨(BitVec.eq_of_toNat_eq hop).symm, rfl⟩

/-- A word that passes the tests of R64 has its command's fields, since each test fixes the field it looks at. -/
theorem fields_of_decode {w : Word} {i : Instr} (h : decode w = .ok i) : i.fields = cmdFields w := by
  generalize hf : cmdFields w = f
  obtain ⟨op, arg, rsv⟩ := f
  simp only [decode, hf] at h
  split_ifs at h with hrsv hop harg
  · cases h
    simp only [Instr.fields, Instr.opcode, Instr.argument, hop, not_not.1 hrsv]
  · split at h
    · rename_i j hplain
      cases h
      obtain ⟨hopcode, hargument⟩ := plainCommand_eq_some hplain
      simp only [Instr.fields, hopcode, hargument, not_not.1 hrsv, not_not.1 harg]
    · cases h

/-- R63, R64: a word that decodes is the word of its command. -/
theorem encode_eq_of_decode {w : Word} {i : Instr} (h : decode w = .ok i) : encode i = w := by
  rw [encode, fields_of_decode h, wordOfFields_cmdFields]

end Sys2Proof
end

section
/-! PROOFS. Frames: what each command and each host access leaves unchanged. -/

namespace Sys2Proof.Machine

variable {s t : State}

/-! ## Commands -/

/-- Recording codes writes CLEN and CBITS alone (R87). -/
theorem recordLeaves_frame (s : State) (cells : Memory Node) :
    recordLeaves s cells = { s with clen := (recordLeaves s cells).clen, cbits := (recordLeaves s cells).cbits } := by
  induction cells generalizing s with
  | nil => rfl
  | cons c cells ih =>
    simp only [recordLeaves]
    split
    · exact ih (recordCode _ _ s)
    · exact ih s

/-- COLLECT writes FREQ, TOTAL, PHASE and the outcome (R70). -/
theorem execCollect_frame {b : Byte} (h : execCollect b s = .next t) :
    t = { s with freq := t.freq, total := t.total, phase := t.phase, err := t.err, ecode := t.ecode,
                 errinfo := t.errinfo, pend := none } := by
  obtain ⟨-, rfl⟩ | ⟨-, -, rfl⟩ | ⟨-, -, rfl⟩ := execCollect_cases h <;> rfl

/-- BUILD writes NODE, ROOT, PHASE and the outcome (R75). -/
theorem execBuild_frame (h : execBuild s = .next t) :
    t = { s with node := t.node, root := t.root, phase := t.phase, err := t.err, ecode := t.ecode,
                 errinfo := t.errinfo, pend := none } := by
  obtain ⟨-, rfl⟩ | ⟨-, rfl⟩ | ⟨-, rfl⟩ := execBuild_cases h <;> rfl

/-- DERIVE writes CLEN, CBITS, PHASE and the outcome (R87). -/
theorem execDerive_frame (h : execDerive s = .next t) :
    t = { s with clen := t.clen, cbits := t.cbits, phase := t.phase, err := t.err, ecode := t.ecode,
                 errinfo := t.errinfo, pend := none } := by
  obtain ⟨-, rfl⟩ | ⟨-, -, rfl⟩ | ⟨-, -, rfl⟩ := execDerive_cases h
  · rfl
  · rfl
  · rw [recordLeaves_frame]
    rfl

/-- ENCODE writes OBUF, OLEN and the outcome (R94, R100). -/
theorem execEncode_frame (h : execEncode s = .next t) :
    t = { s with obuf := t.obuf, olen := t.olen, err := t.err, ecode := t.ecode, errinfo := t.errinfo,
                 pend := none } := by
  obtain ⟨-, rfl⟩ | ⟨-, -, rfl⟩ | ⟨j, b, -, -, -, rfl⟩ | ⟨-, -, -, -, rfl⟩ | ⟨-, -, -, -, rfl⟩ :=
    execEncode_cases h <;> rfl

/-- DECODE writes DBUF, DLEN and the outcome (R102, R111). -/
theorem execDecode_frame (h : execDecode s = .next t) :
    t = { s with dbuf := t.dbuf, dlen := t.dlen, err := t.err, ecode := t.ecode, errinfo := t.errinfo,
                 pend := none } := by
  obtain ⟨-, rfl⟩ | ⟨-, -, rfl⟩ | ⟨i, -, -, -, rfl⟩ | ⟨c, -, -, -, -, rfl⟩ | ⟨c, -, -, -, -, rfl⟩ :=
    execDecode_cases h <;> rfl

/-- `s` with the fields that command `i` may write taken from `t`; RESET writes fixed values. -/
def withWritesOf (i : Instr) (s t : State) : State :=
  match i with
  | .nop => complete s
  | .ack => complete s
  | .reset => complete (endSession s)
  | .collect _ => { s with freq := t.freq, total := t.total, phase := t.phase, err := t.err, ecode := t.ecode,
                           errinfo := t.errinfo, pend := none }
  | .build => { s with node := t.node, root := t.root, phase := t.phase, err := t.err, ecode := t.ecode,
                       errinfo := t.errinfo, pend := none }
  | .derive => { s with clen := t.clen, cbits := t.cbits, phase := t.phase, err := t.err, ecode := t.ecode,
                        errinfo := t.errinfo, pend := none }
  | .encode => { s with obuf := t.obuf, olen := t.olen, err := t.err, ecode := t.ecode, errinfo := t.errinfo,
                        pend := none }
  | .decode => { s with dbuf := t.dbuf, dlen := t.dlen, err := t.err, ecode := t.ecode, errinfo := t.errinfo,
                        pend := none }

/-- Every command writes its own results and nothing else. -/
theorem exec_frame {i : Instr} (h : exec i s = .next t) : t = withWritesOf i s t := by
  cases i with
  | nop => cases h; rfl
  | reset => cases h; rfl
  | collect b => exact execCollect_frame h
  | build => exact execBuild_frame h
  | derive => exact execDerive_frame h
  | encode => exact execEncode_frame h
  | decode => exact execDecode_frame h
  | ack => cases h; rfl

/-- What no command writes: the parameters, HAZ (R22), WBUF and IBUF (R115). -/
theorem exec_keeps_fixtures {i : Instr} (h : exec i s = .next t) :
    t.params = s.params ∧ t.haz = s.haz ∧ t.wbuf = s.wbuf ∧ t.ibuf = s.ibuf := by
  rw [exec_frame h]
  cases i <;> exact ⟨rfl, rfl, rfl, rfl⟩

/-- RESET is the only command that writes a register the host loads (R35, R37, R39). -/
theorem exec_keeps_loaded {i : Instr} (h : exec i s = .next t) (hreset : i ≠ .reset) :
    t.wlen = s.wlen ∧ t.ilen = s.ilen ∧ t.msel = s.msel ∧ t.maddr = s.maddr := by
  rw [exec_frame h]
  cases i
  case reset => exact absurd rfl hreset
  all_goals exact ⟨rfl, rfl, rfl, rfl⟩

/-- The tree is BUILD's (R26, R28). -/
theorem exec_keeps_tree {i : Instr} (h : exec i s = .next t) (hreset : i ≠ .reset) (hbuild : i ≠ .build) :
    t.node = s.node ∧ t.root = s.root := by
  rw [exec_frame h]
  cases i
  case reset => exact absurd rfl hreset
  case build => exact absurd rfl hbuild
  all_goals exact ⟨rfl, rfl⟩

/-- The code book is DERIVE's (R29, R30). -/
theorem exec_keeps_book {i : Instr} (h : exec i s = .next t) (hreset : i ≠ .reset) (hderive : i ≠ .derive) :
    t.clen = s.clen ∧ t.cbits = s.cbits := by
  rw [exec_frame h]
  cases i
  case reset => exact absurd rfl hreset
  case derive => exact absurd rfl hderive
  all_goals exact ⟨rfl, rfl⟩

/-- The encoder's output is ENCODE's (R32, R36). -/
theorem exec_keeps_encoded {i : Instr} (h : exec i s = .next t) (hreset : i ≠ .reset) (hencode : i ≠ .encode) :
    t.obuf = s.obuf ∧ t.olen = s.olen := by
  rw [exec_frame h]
  cases i
  case reset => exact absurd rfl hreset
  case encode => exact absurd rfl hencode
  all_goals exact ⟨rfl, rfl⟩

/-- The decoder's output is DECODE's (R34, R38). -/
theorem exec_keeps_decoded {i : Instr} (h : exec i s = .next t) (hreset : i ≠ .reset) (hdecode : i ≠ .decode) :
    t.dbuf = s.dbuf ∧ t.dlen = s.dlen := by
  rw [exec_frame h]
  cases i
  case reset => exact absurd rfl hreset
  case decode => exact absurd rfl hdecode
  all_goals exact ⟨rfl, rfl⟩

/-- PHASE moves on a successful COLLECT, BUILD or DERIVE, and on RESET (R20). -/
theorem exec_phase {i : Instr} (h : exec i s = .next t) (hphase : t.phase ≠ s.phase) :
    t.ecode = .ok ∧
      ((i = .reset ∧ t.phase = .empty) ∨
       (∃ b, i = .collect b ∧ s.phase = .empty ∧ t.phase = .collect) ∨
       (i = .build ∧ s.phase = .collect ∧ t.phase = .built) ∨
       (i = .derive ∧ s.phase = .built ∧ t.phase = .ready)) := by
  cases i with
  | nop => cases h; exact absurd rfl hphase
  | reset => cases h; exact ⟨rfl, .inl ⟨rfl, rfl⟩⟩
  | collect b =>
    obtain ⟨-, rfl⟩ | ⟨-, -, rfl⟩ | ⟨hearly, -, rfl⟩ := execCollect_cases h
    · exact absurd rfl hphase
    · exact absurd rfl hphase
    · exact ⟨rfl, .inr (.inl ⟨b, rfl, hearly.resolve_right (Ne.symm hphase), rfl⟩)⟩
  | build =>
    obtain ⟨-, rfl⟩ | ⟨-, rfl⟩ | ⟨hcollect, rfl⟩ := execBuild_cases h
    · exact absurd rfl hphase
    · exact absurd rfl hphase
    · exact ⟨rfl, .inr (.inr (.inl ⟨rfl, hcollect, rfl⟩))⟩
  | derive =>
    obtain ⟨-, rfl⟩ | ⟨hbuilt, -, rfl⟩ | ⟨hbuilt, -, rfl⟩ := execDerive_cases h
    · exact absurd rfl hphase
    · exact ⟨rfl, .inr (.inr (.inr ⟨rfl, hbuilt, rfl⟩))⟩
    · exact ⟨rfl, .inr (.inr (.inr ⟨rfl, hbuilt, rfl⟩))⟩
  | encode =>
    rw [execEncode_frame h] at hphase
    exact absurd rfl hphase
  | decode =>
    rw [execDecode_frame h] at hphase
    exact absurd rfl hphase
  | ack => cases h; exact absurd rfl hphase

/-! ## Outcomes -/

theorem outcomeOk_complete (s : State) : OutcomeOk (complete s) := ⟨rfl, fun _ => rfl⟩

theorem outcomeOk_raise (w : Word) (s : State) {e : ErrCode} (he : e ≠ .ok) : OutcomeOk (raise e w s) :=
  ⟨(decide_eq_true he).symm, fun h => absurd h he⟩

/-- Every command ends with `complete`, or with a `raise` of a code other than 0 (R9, R21, R23). -/
theorem OutcomeOk.exec {i : Instr} (h : exec i s = .next t) : OutcomeOk t := by
  cases i with
  | nop => cases h; exact outcomeOk_complete _
  | reset => cases h; exact outcomeOk_complete _
  | collect b =>
    obtain ⟨-, rfl⟩ | ⟨-, -, rfl⟩ | ⟨-, -, rfl⟩ := execCollect_cases h
    exacts [outcomeOk_raise _ _ nofun, outcomeOk_raise _ _ nofun, outcomeOk_complete _]
  | build =>
    obtain ⟨-, rfl⟩ | ⟨-, rfl⟩ | ⟨-, rfl⟩ := execBuild_cases h
    exacts [outcomeOk_raise _ _ nofun, outcomeOk_raise _ _ nofun, outcomeOk_complete _]
  | derive =>
    obtain ⟨-, rfl⟩ | ⟨-, -, rfl⟩ | ⟨-, -, rfl⟩ := execDerive_cases h
    exacts [outcomeOk_raise _ _ nofun, outcomeOk_complete _, outcomeOk_complete _]
  | encode =>
    obtain ⟨-, rfl⟩ | ⟨-, -, rfl⟩ | ⟨j, b, -, -, -, rfl⟩ | ⟨-, -, -, -, rfl⟩ | ⟨-, -, -, -, rfl⟩ := execEncode_cases h
    exacts [outcomeOk_raise _ _ nofun, outcomeOk_raise _ _ nofun, outcomeOk_raise _ _ nofun,
      outcomeOk_raise _ _ nofun, outcomeOk_complete _]
  | decode =>
    obtain ⟨-, rfl⟩ | ⟨-, -, rfl⟩ | ⟨i, -, -, -, rfl⟩ | ⟨c, -, -, -, -, rfl⟩ | ⟨c, -, -, -, -, rfl⟩ :=
      execDecode_cases h
    exacts [outcomeOk_raise _ _ nofun, outcomeOk_raise _ _ nofun, outcomeOk_raise _ _ nofun,
      outcomeOk_raise _ _ nofun, outcomeOk_complete _]
  | ack => cases h; exact outcomeOk_complete _

/-! ## Host accesses -/

/-- `t` agrees with `s` on everything a command reports or computes. -/
structure SameResults (s t : State) : Prop where
  params  : t.params = s.params
  phase   : t.phase = s.phase
  err     : t.err = s.err
  ecode   : t.ecode = s.ecode
  errinfo : t.errinfo = s.errinfo
  total   : t.total = s.total
  root    : t.root = s.root
  olen    : t.olen = s.olen
  dlen    : t.dlen = s.dlen
  freq    : t.freq = s.freq
  node    : t.node = s.node
  clen    : t.clen = s.clen
  cbits   : t.cbits = s.cbits
  obuf    : t.obuf = s.obuf
  dbuf    : t.dbuf = s.dbuf

theorem SameResults.advance (s : State) : SameResults s (advance s) := by constructor <;> rfl

/-- A read moves MADDR at most (R49, R55). -/
theorem SameResults.busRead (addr : BitVec 8) (s : State) : SameResults s (busRead addr s) := by
  obtain ⟨-, hread⟩ | ⟨-, -, hread⟩ | ⟨r, -, -, -, -, hread⟩ | ⟨r, -, -, -, hread⟩ :=
    busRead_cases addr s <;> rw [hread]
  · constructor <;> rfl
  · constructor <;> rfl
  · constructor <;> rfl
  · cases r <;> constructor <;> rfl

/-- The window stores in WBUF or IBUF alone (R51). -/
theorem storeWindow_frame (v : Word) (s : State) :
    storeWindow v s = { s with wbuf := (storeWindow v s).wbuf, ibuf := (storeWindow v s).ibuf } := by
  obtain ⟨-, hstore⟩ | ⟨-, hstore⟩ | ⟨-, -, hstore⟩ := storeWindow_cases v s <;> rw [hstore]

/-- A write loads the input, or sets PEND and HAZ (R46, R51, R134, R136). -/
theorem SameResults.busWrite (addr : BitVec 8) (v : Word) (s : State) : SameResults s (busWrite addr v s) := by
  obtain ⟨-, hwrite⟩ | ⟨-, -, hwrite⟩ | ⟨-, -, -, hwrite⟩ | ⟨r, -, -, -, hwrite⟩ :=
    busWrite_cases addr v s <;> rw [hwrite]
  · constructor <;> rfl
  · constructor <;> rfl
  · constructor <;> rfl
  · cases r
    case mdata => rw [writeEffect, storeWindow_frame]; constructor <;> rfl
    all_goals constructor <;> rfl

end Sys2Proof.Machine
end

section
/-! PROOFS. What a step does to the results of the commands, and to the registers and buffers a host loads. -/

namespace Sys2Proof.Machine

variable {s t : State}

/-- A step completes a command or an illegal word, resets the hardware, or leaves all results as they are. -/
theorem step_results (h : step s = .next t) :
    (∃ i, nextEvent s = .engine ∧ s.pend = some (encode i) ∧ exec i (advance s) = .next t) ∨
    (∃ w, nextEvent s = .engine ∧ s.pend = some w ∧ t = raise .illegalCommand w (advance s)) ∨
    (nextEvent s = .hardReset ∧ t = hardReset (advance s)) ∨
    (nextEvent s ≠ .hardReset ∧ (nextEvent s = .engine → s.pend = none) ∧ SameResults (advance s) t) := by
  obtain ⟨he, hpend, rfl⟩ | ⟨w, i, he, hpend, hdecode, hexec⟩ | ⟨w, e, he, hpend, -, rfl⟩ | ⟨addr, he, rfl⟩ |
    ⟨addr, v, he, rfl⟩ | ⟨he, rfl⟩ := step_cases s t h
  · exact .inr (.inr (.inr ⟨by simp [he], fun _ => hpend, by constructor <;> rfl⟩))
  · exact .inl ⟨i, he, by rw [hpend, encode_eq_of_decode hdecode], hexec⟩
  · exact .inr (.inl ⟨w, he, hpend, rfl⟩)
  · exact .inr (.inr (.inr ⟨by simp [he], by simp [he], SameResults.busRead addr _⟩))
  · exact .inr (.inr (.inr ⟨by simp [he], by simp [he], SameResults.busWrite addr v _⟩))
  · exact .inr (.inr (.inl ⟨he, rfl⟩))

/-! ## The offset of a register -/

/-- Each register has one offset (R14). -/
theorem eq_offsetOf_of_regAt {addr : BitVec 8} {r : Reg} (h : regAt addr = some r) : addr = offsetOf r := by
  unfold regAt at h
  split at h <;> cases h <;> rename_i haddr <;> exact BitVec.eq_of_toNat_eq haddr

/-- The two low bits of an offset are its remainder by 4 (R44). -/
theorem aligned_iff (addr : BitVec 8) : aligned addr = true ↔ addr.toNat % 4 = 0 := by
  simp [aligned, ← BitVec.toNat_inj]

theorem busy_eq_false_iff (s : State) : busy s = false ↔ s.pend = none := by simp [busy]

/-- A bus read is MDATA's on an idle block, which moves MADDR, or leaves the host's registers and buffers as they are
(R49, R55, R137). -/
theorem busRead_inputs (addr : BitVec 8) (s : State) :
    (s.pend = none ∧ addr = 0x40 ∧ busRead addr s = respond (.read (regValue s .mdata) false) (stepMaddr s)) ∨
    ∃ r free, busRead addr s = { s with rsp := r, free := free } := by
  obtain ⟨-, hread⟩ | ⟨-, -, hread⟩ | ⟨r, -, -, -, -, hread⟩ | ⟨r, -, hr, hidle, hread⟩ := busRead_cases addr s <;>
    rw [hread]
  · exact .inr ⟨_, _, rfl⟩
  · exact .inr ⟨_, _, rfl⟩
  · exact .inr ⟨_, _, rfl⟩
  · cases r
    case mdata =>
      exact .inl ⟨(busy_eq_false_iff s).1 (hidle.resolve_right nofun), eq_offsetOf_of_regAt hr, rfl⟩
    all_goals exact .inr ⟨_, _, rfl⟩

/-- A bus write is a register's on an idle block, or writes HAZ and the response alone (R44, R45, R136). -/
theorem busWrite_inputs (addr : BitVec 8) (v : Word) (s : State) :
    (∃ r, s.pend = none ∧ addr = offsetOf r ∧ busWrite addr v s = respond (.write false) (writeEffect v s r)) ∨
    ∃ r haz, busWrite addr v s = { s with rsp := r, haz := haz } := by
  obtain ⟨-, hwrite⟩ | ⟨-, -, hwrite⟩ | ⟨-, -, -, hwrite⟩ | ⟨r, -, hidle, hr, hwrite⟩ := busWrite_cases addr v s <;>
    rw [hwrite]
  · exact .inr ⟨_, _, rfl⟩
  · exact .inr ⟨_, _, rfl⟩
  · exact .inr ⟨_, _, rfl⟩
  · exact .inl ⟨r, (busy_eq_false_iff s).1 hidle, eq_offsetOf_of_regAt hr, rfl⟩

/-- `t` agrees with `s` on the buffers and registers a host loads (R31, R33, R35, R37, R39). -/
structure SameInputs (s t : State) : Prop where
  wbuf  : t.wbuf = s.wbuf
  ibuf  : t.ibuf = s.ibuf
  wlen  : t.wlen = s.wlen
  ilen  : t.ilen = s.ilen
  msel  : t.msel = s.msel
  maddr : t.maddr = s.maddr

/-- A step resets the block, reads or writes a register on an idle block, or leaves the host's buffers and registers as
they are. -/
theorem step_inputs (h : step s = .next t) :
    (nextEvent s = .hardReset) ∨
    (nextEvent s = .engine ∧ s.pend = some (encode .reset) ∧ t.wbuf = s.wbuf ∧ t.ibuf = s.ibuf) ∨
    (s.pend = none ∧ nextEvent s = .read 0x40 ∧ SameInputs (stepMaddr s) t) ∨
    (∃ r v, s.pend = none ∧ nextEvent s = .write (offsetOf r) v ∧ SameInputs (writeEffect v (advance s) r) t) ∨
    SameInputs s t := by
  obtain ⟨-, -, rfl⟩ | ⟨w, i, he, hpend, hdecode, hexec⟩ | ⟨w, e, -, -, -, rfl⟩ | ⟨addr, he, rfl⟩ |
    ⟨addr, v, he, rfl⟩ | ⟨he, -⟩ := step_cases s t h
  · exact .inr (.inr (.inr (.inr (by constructor <;> rfl))))
  · obtain ⟨-, -, hwbuf, hibuf⟩ := exec_keeps_fixtures hexec
    by_cases hreset : i = .reset
    · subst hreset
      exact .inr (.inl ⟨he, by rw [hpend, encode_eq_of_decode hdecode], hwbuf, hibuf⟩)
    · obtain ⟨hwlen, hilen, hmsel, hmaddr⟩ := exec_keeps_loaded hexec hreset
      exact .inr (.inr (.inr (.inr ⟨hwbuf, hibuf, hwlen, hilen, hmsel, hmaddr⟩)))
  · exact .inr (.inr (.inr (.inr (by constructor <;> rfl))))
  · obtain ⟨hidle, rfl, hread⟩ | ⟨r, free, hread⟩ := busRead_inputs addr (advance s) <;> rw [hread]
    · exact .inr (.inr (.inl ⟨hidle, he, by constructor <;> rfl⟩))
    · exact .inr (.inr (.inr (.inr (by constructor <;> rfl))))
  · obtain ⟨r, hidle, rfl, hwrite⟩ | ⟨r, haz, hwrite⟩ := busWrite_inputs addr v (advance s) <;> rw [hwrite]
    · exact .inr (.inr (.inr (.inl ⟨r, v, hidle, he, by constructor <;> rfl⟩)))
    · exact .inr (.inr (.inr (.inr (by constructor <;> rfl))))
  · exact .inl he

/-! ## Reads and writes at a register's offset -/

/-- Bits a register does not name read 0 (R14): its value zero-extended is zeros before it. -/
theorem zero_append_eq_setWidth {m n : Nat} (x : BitVec n) : 0#m ++ x = x.setWidth (m + n) := by
  apply BitVec.eq_of_toNat_eq
  simp [Nat.mod_eq_of_lt (Nat.lt_of_lt_of_le x.isLt (Nat.pow_le_pow_right (by decide) (Nat.le_add_left n m)))]

/-- While BUSY = 0 every register reads its value (R46, R50, R55). -/
theorem busRead_idle (h : s.pend = none) (r : Reg) :
    busRead (offsetOf r) s = respond (.read (regValue s r) false) (readEffect s r) := by
  obtain ⟨hreg, haligned⟩ := regAt_offsetOf r
  simp [busRead, hreg, haligned, (busy_eq_false_iff s).2 h]

/-- ID, the parameters, CMD and STATUS read their value busy or not (R137). -/
theorem busRead_readable {r : Reg} (h : readableWhileBusy r = true) (s : State) :
    busRead (offsetOf r) s = respond (.read (regValue s r) false) (readEffect s r) := by
  obtain ⟨hreg, haligned⟩ := regAt_offsetOf r
  simp [busRead, hreg, haligned, h]

/-- While BUSY = 0 every write reaches its register (R46, R51, R134). -/
theorem busWrite_idle (h : s.pend = none) (r : Reg) (v : Word) :
    busWrite (offsetOf r) v s = respond (.write false) (writeEffect v s r) := by
  obtain ⟨hreg, haligned⟩ := regAt_offsetOf r
  simp [busWrite, hreg, haligned, (busy_eq_false_iff s).2 h]

/-! ## Which register's write changes what -/

/-- WBUF and IBUF change by an MDATA write alone, with the buffer selected (R31, R33, R51). -/
theorem writeEffect_buffers (v : Word) (s : State) (r : Reg) :
    ((writeEffect v s r).wbuf ≠ s.wbuf → r = .mdata ∧ s.msel = 4) ∧
    ((writeEffect v s r).ibuf ≠ s.ibuf → r = .mdata ∧ s.msel = 6) := by
  cases r
  case mdata =>
    rw [writeEffect]
    obtain ⟨hmsel, hstore⟩ | ⟨hmsel, hstore⟩ | ⟨-, -, hstore⟩ := storeWindow_cases v s <;> rw [hstore]
    · exact ⟨fun _ => ⟨rfl, hmsel⟩, absurd rfl⟩
    · exact ⟨absurd rfl, fun _ => ⟨rfl, hmsel⟩⟩
    · exact ⟨absurd rfl, absurd rfl⟩
  all_goals exact ⟨absurd rfl, absurd rfl⟩

/-- A register that a host loads changes by its own write alone, and MADDR by an MDATA write too (R35, R37, R48,
R49). -/
theorem writeEffect_registers (v : Word) (s : State) (r : Reg) :
    ((writeEffect v s r).wlen ≠ s.wlen → r = .wlen) ∧ ((writeEffect v s r).ilen ≠ s.ilen → r = .ilen) ∧
    ((writeEffect v s r).msel ≠ s.msel → r = .msel) ∧
    ((writeEffect v s r).maddr ≠ s.maddr → r = .mdata ∨ r = .maddr) := by
  cases r
  case mdata =>
    rw [writeEffect, storeWindow_frame]
    exact ⟨absurd rfl, absurd rfl, absurd rfl, fun _ => .inl rfl⟩
  case wlen => exact ⟨fun _ => rfl, absurd rfl, absurd rfl, absurd rfl⟩
  case ilen => exact ⟨absurd rfl, fun _ => rfl, absurd rfl, absurd rfl⟩
  case msel => exact ⟨absurd rfl, absurd rfl, fun _ => rfl, absurd rfl⟩
  case maddr => exact ⟨absurd rfl, absurd rfl, absurd rfl, fun _ => .inr rfl⟩
  all_goals exact ⟨absurd rfl, absurd rfl, absurd rfl, absurd rfl⟩

/-- The acceptance of ACK or RESET is the one register write that changes HAZ (R22, R134). -/
theorem writeEffect_haz (v : Word) (s : State) (r : Reg) :
    (writeEffect v s r).haz = if r = .cmd ∧ clearsHazard v = true then false else s.haz := by
  cases r
  case cmd => simp [writeEffect]
  case mdata => rw [writeEffect, storeWindow_frame]; rfl
  all_goals rfl

end Sys2Proof.Machine
end

section
/-! PROOFS. The status flags and the identification over all events (R16, R20 to R23). -/

namespace Sys2Proof.Machine

/-- Settles O46: ID and the parameters read busy or not (R137), and neither a command nor a host access writes them. -/
theorem identificationIsConstant : Obligations.IdentificationIsConstant := by
  refine ⟨fun s => ⟨?id, ?maxword, ?maxbits, ?cntw⟩, fun s t h => ?const⟩
  case id => exact busRead_readable (r := .id) rfl s
  case maxword =>
    rw [zero_append_eq_setWidth]
    exact busRead_readable (r := .maxword) rfl s
  case maxbits =>
    rw [zero_append_eq_setWidth]
    exact busRead_readable (r := .maxbits) rfl s
  case cntw =>
    rw [zero_append_eq_setWidth]
    exact busRead_readable (r := .cntw) rfl s
  case const =>
    obtain ⟨i, -, -, hexec⟩ | ⟨w, -, -, rfl⟩ | ⟨-, rfl⟩ | ⟨-, -, hsame⟩ := step_results h
    · exact (exec_keeps_fixtures hexec).1
    · rfl
    · rfl
    · exact hsame.params

/-- Settles O47: the commands that move PHASE are `exec_phase`'s, and no host access does. -/
theorem onlyStagesMoveThePhase : Obligations.OnlyStagesMoveThePhase := by
  refine ⟨rfl, rfl, rfl, rfl, fun s t h hphase => ?_⟩
  obtain ⟨i, he, hpend, hexec⟩ | ⟨w, -, -, rfl⟩ | ⟨he, rfl⟩ | ⟨-, -, hsame⟩ := step_results h
  · obtain ⟨hok, ⟨rfl, ht⟩ | ⟨b, rfl, hs, ht⟩ | ⟨rfl, hs, ht⟩ | ⟨rfl, hs, ht⟩⟩ := exec_phase hexec hphase
    · exact .inr ⟨he, hok, .inl ⟨hpend, ht⟩⟩
    · exact .inr ⟨he, hok, .inr (.inl ⟨b, hpend, hs, ht⟩)⟩
    · exact .inr ⟨he, hok, .inr (.inr (.inl ⟨hpend, hs, ht⟩))⟩
    · exact .inr ⟨he, hok, .inr (.inr (.inr ⟨hpend, hs, ht⟩))⟩
  · exact absurd rfl hphase
  · exact .inl ⟨he, rfl⟩
  · exact absurd hsame.phase hphase

/-- Settles O48: a completion is a command's or an illegal word's, and both end with a consistent outcome. -/
theorem completionsWriteTheOutcome : Obligations.CompletionsWriteTheOutcome := by
  intro s t h
  obtain ⟨i, he, hpend, hexec⟩ | ⟨w, he, hpend, rfl⟩ | ⟨he, rfl⟩ | ⟨hne, hidle, hsame⟩ := step_results h
  · obtain ⟨herr, hinfo⟩ := OutcomeOk.exec hexec
    exact .inl ⟨he, by simp [hpend], herr, hinfo⟩
  · obtain ⟨herr, hinfo⟩ := outcomeOk_raise w (advance s) (e := .illegalCommand) nofun
    exact .inl ⟨he, by simp [hpend], herr, hinfo⟩
  · exact .inr (.inl ⟨he, rfl, rfl, rfl⟩)
  · exact .inr (.inr ⟨hne, hidle, hsame.err, hsame.ecode, hsame.errinfo⟩)

/-- HAZ after a bus write (R22, R134, R136). -/
theorem busWrite_haz (a : BitVec 8) (v : Word) (s : State) :
    (busWrite a v s).haz =
      if a.toNat % 4 ≠ 0 then s.haz
      else if s.pend.isSome then true
      else if a = 0x10 ∧ (v = 0x00000007 ∨ v = 0x00000001) then false
      else s.haz := by
  obtain ⟨ha, hwrite⟩ | ⟨ha, hbusy, hwrite⟩ | ⟨ha, hidle, hr, hwrite⟩ | ⟨r, ha, hidle, hr, hwrite⟩ :=
    busWrite_cases a v s <;> rw [hwrite] <;> simp only [ne_eq, ← aligned_iff, ha]
  · simp
  · simp [show s.pend.isSome = true from hbusy]
  · have hcmd : a ≠ 0x10 := by rintro rfl; cases hr
    simp only [respond_haz, show s.pend.isSome = false from hidle, hcmd, false_and, not_true, if_false,
      Bool.false_eq_true]
  · have hcmd : r = .cmd ↔ a = 0x10 :=
      ⟨fun h => by rw [eq_offsetOf_of_regAt hr, h]; rfl, by rintro rfl; exact (Option.some.inj hr).symm⟩
    have hclears : clearsHazard v = true ↔ v = 0x00000007 ∨ v = 0x00000001 := by simp [clearsHazard]
    simp only [respond_haz, writeEffect_haz, show s.pend.isSome = false from hidle, hcmd, hclears, not_true, if_false,
      Bool.false_eq_true]

/-- Settles O49. -/
theorem hazardFlagIsSticky : Obligations.HazardFlagIsSticky := by
  intro s t h
  obtain ⟨he, -, rfl⟩ | ⟨w, i, he, -, -, hexec⟩ | ⟨w, e, he, -, -, rfl⟩ | ⟨addr, he, rfl⟩ | ⟨addr, v, he, rfl⟩ |
    ⟨he, rfl⟩ := step_cases s t h <;> rw [he]
  · rfl
  · exact (exec_keeps_fixtures hexec).2.1
  · rfl
  · obtain ⟨-, -, hread⟩ | ⟨r, free, hread⟩ := busRead_inputs addr (advance s) <;> rw [hread] <;> rfl
  · exact busWrite_haz addr v (advance s)
  · rfl

/-! ## Who writes each memory and register -/

variable {s t : State}

/-- What every command but `i` and RESET keeps, and a host access too, changes by `i` or a reset alone. -/
theorem written_by_command (h : step s = .next t) (i : Instr) {Kept : State → State → Prop}
    (hchanged : ¬ Kept (advance s) t)
    (hexec : ∀ {j}, exec j (advance s) = .next t → j ≠ .reset → j ≠ i → Kept (advance s) t)
    (hillegal : ∀ w, Kept (advance s) (raise .illegalCommand w (advance s)))
    (hsame : SameResults (advance s) t → Kept (advance s) t) :
    IsReset s ∨ nextEvent s = .engine ∧ s.pend = some (encode i) := by
  obtain ⟨j, he, hpend, hj⟩ | ⟨w, -, -, rfl⟩ | ⟨he, -⟩ | ⟨-, -, hs⟩ := step_results h
  · by_cases hreset : j = .reset
    · exact .inl (.inr ⟨he, hreset ▸ hpend⟩)
    · by_cases hi : j = i
      · exact .inr ⟨he, hi ▸ hpend⟩
      · exact absurd (hexec hj hreset hi) hchanged
  · exact absurd (hillegal w) hchanged
  · exact .inl (.inl he)
  · exact absurd (hsame hs) hchanged

/-- A buffer or register that a host loads changes by an access to it on an idle block, or by a reset. -/
theorem step_loaded (h : step s = .next t) :
    (t.wbuf ≠ s.wbuf → nextEvent s = .hardReset ∨ s.pend = none ∧ s.msel = 4 ∧ ∃ v, nextEvent s = .write 0x40 v) ∧
    (t.ibuf ≠ s.ibuf → nextEvent s = .hardReset ∨ s.pend = none ∧ s.msel = 6 ∧ ∃ v, nextEvent s = .write 0x40 v) ∧
    (t.wlen ≠ s.wlen → IsReset s ∨ s.pend = none ∧ ∃ v, nextEvent s = .write 0x28 v) ∧
    (t.ilen ≠ s.ilen → IsReset s ∨ s.pend = none ∧ ∃ v, nextEvent s = .write 0x30 v) ∧
    (t.msel ≠ s.msel → IsReset s ∨ s.pend = none ∧ ∃ v, nextEvent s = .write 0x38 v) ∧
    (t.maddr ≠ s.maddr → IsReset s ∨ s.pend = none ∧
      (nextEvent s = .read 0x40 ∨ ∃ v, nextEvent s = .write 0x40 v ∨ nextEvent s = .write 0x3C v)) := by
  obtain he | ⟨he, hpend, hwbuf, hibuf⟩ | ⟨hidle, he, hsame⟩ | ⟨r, v, hidle, he, hsame⟩ | hsame := step_inputs h
  · have hreset : IsReset s := .inl he
    simp only [he, hreset, true_or, implies_true, and_self]
  · have hreset : IsReset s := .inr ⟨he, hpend⟩
    simp only [hwbuf, hibuf, hreset, ne_eq, not_true, true_or, implies_true, false_implies, and_self]
  · obtain ⟨hwbuf, hibuf, hwlen, hilen, hmsel, -⟩ := hsame
    exact ⟨absurd hwbuf, absurd hibuf, absurd hwlen, absurd hilen, absurd hmsel, fun _ => .inr ⟨hidle, .inl he⟩⟩
  · obtain ⟨hwbuf, hibuf, hwlen, hilen, hmsel, hmaddr⟩ := hsame
    obtain ⟨hofWbuf, hofIbuf⟩ := writeEffect_buffers v (advance s) r
    obtain ⟨hofWlen, hofIlen, hofMsel, hofMaddr⟩ := writeEffect_registers v (advance s) r
    rw [hwbuf, hibuf, hwlen, hilen, hmsel, hmaddr]
    refine ⟨fun hne => ?wbuf, fun hne => ?ibuf, fun hne => ?wlen, fun hne => ?ilen, fun hne => ?msel, fun hne => ?maddr⟩
    case wbuf =>
      obtain ⟨rfl, hsel⟩ := hofWbuf hne
      exact .inr ⟨hidle, hsel, v, he⟩
    case ibuf =>
      obtain ⟨rfl, hsel⟩ := hofIbuf hne
      exact .inr ⟨hidle, hsel, v, he⟩
    case wlen => exact .inr ⟨hidle, v, by rw [he, hofWlen hne]; rfl⟩
    case ilen => exact .inr ⟨hidle, v, by rw [he, hofIlen hne]; rfl⟩
    case msel => exact .inr ⟨hidle, v, by rw [he, hofMsel hne]; rfl⟩
    case maddr =>
      obtain rfl | rfl := hofMaddr hne
      · exact .inr ⟨hidle, .inr ⟨v, .inl he⟩⟩
      · exact .inr ⟨hidle, .inr ⟨v, .inr he⟩⟩
  · obtain ⟨hwbuf, hibuf, hwlen, hilen, hmsel, hmaddr⟩ := hsame
    exact ⟨absurd hwbuf, absurd hibuf, absurd hwlen, absurd hilen, absurd hmsel, absurd hmaddr⟩

/-- Settles O50: a command's results are in its frame alone, and a host access reaches its register alone. -/
theorem onlyTheirWritersChangeTheMemories : Obligations.OnlyTheirWritersChangeTheMemories := by
  intro s t h
  refine ⟨fun hne => ?tree, fun hne => ?book, fun hne => ?encoded, fun hne => ?decoded, step_loaded h⟩
  case tree =>
    exact written_by_command h .build (Kept := fun s t => t.node = s.node ∧ t.root = s.root) (not_and_or.2 hne)
      exec_keeps_tree (fun w => ⟨rfl, rfl⟩) (fun hs => ⟨hs.node, hs.root⟩)
  case book =>
    exact written_by_command h .derive (Kept := fun s t => t.clen = s.clen ∧ t.cbits = s.cbits) (not_and_or.2 hne)
      exec_keeps_book (fun w => ⟨rfl, rfl⟩) (fun hs => ⟨hs.clen, hs.cbits⟩)
  case encoded =>
    exact written_by_command h .encode (Kept := fun s t => t.obuf = s.obuf ∧ t.olen = s.olen) (not_and_or.2 hne)
      exec_keeps_encoded (fun w => ⟨rfl, rfl⟩) (fun hs => ⟨hs.obuf, hs.olen⟩)
  case decoded =>
    exact written_by_command h .decode (Kept := fun s t => t.dbuf = s.dbuf ∧ t.dlen = s.dlen) (not_and_or.2 hne)
      exec_keeps_decoded (fun w => ⟨rfl, rfl⟩) (fun hs => ⟨hs.dbuf, hs.dlen⟩)

end Sys2Proof.Machine
end

section
/-! PROOFS. The registers' values and the STATUS word (R14, R18, R117). -/

namespace Sys2Proof.Machine

/-- NSYM counts the byte values with a count (R25). -/
theorem nsym_eq_countP (s : State) :
    nsym s = (List.range 256).countP (fun b => freqAt s (BitVec.ofNat 8 b) != 0) := by
  rw [nsym, symbols, ← List.countP_eq_length_filter, alphabet, List.countP_map]
  rfl

/-- Settles O42: on an idle block each access is its register's, and a stored value is the word's low bits. -/
theorem writableRegistersStoreTheirBits : Obligations.WritableRegistersStoreTheirBits := by
  intro s v h
  simp only [zero_append_eq_setWidth, ← nsym_eq_countP, ← BitVec.setWidth_eq_extractLsb' (show 16 ≤ 32 by decide),
    ← BitVec.setWidth_eq_extractLsb' (show 4 ≤ 32 by decide)]
  exact ⟨busWrite_idle h .wlen v, busWrite_idle h .ilen v, busWrite_idle h .msel v, busWrite_idle h .maddr v,
    busRead_idle h .wlen, busRead_idle h .ilen, busRead_idle h .msel, busRead_idle h .maddr, busRead_idle h .errinfo,
    busRead_idle h .total, busRead_idle h .nsym, busRead_idle h .root, busRead_idle h .olen, busRead_idle h .dlen⟩

/-- The bits of the STATUS word (R18). -/
theorem getLsbD_statusWord (s : State) (i : Nat) :
    (statusWord s).getLsbD i =
      if i = 0 then s.pend.isSome else if i < 3 then s.phase.code.getLsbD (i - 1) else if i = 3 then s.err
      else if i < 8 then s.ecode.code.getLsbD (i - 4) else decide (i = 8) && s.haz := by
  simp only [statusWord, busy, BitVec.getLsbD_append]
  obtain rfl | hphase | rfl | hecode | rfl | hrest :
    i = 0 ∨ (0 < i ∧ i < 3) ∨ i = 3 ∨ (3 < i ∧ i < 8) ∨ i = 8 ∨ 8 < i := by omega
  · simp
  · simp [hphase.2, show i ≠ 0 by omega, show i - 1 < 2 by omega]
  · simp
  · simp only [Nat.sub_sub]
    simp [hecode.2, show i ≠ 0 by omega, show ¬ i - 1 < 2 by omega, show ¬ i - 3 < 1 by omega, show i - 4 < 4 by omega,
      show ¬ i < 3 by omega, show i ≠ 3 by omega]
  · simp
  · simp only [Nat.sub_sub]
    simp [show i ≠ 0 by omega, show ¬ i - 1 < 2 by omega, show ¬ i - 3 < 1 by omega, show ¬ i - 4 < 4 by omega,
      show ¬ i - 8 < 1 by omega, show ¬ i < 3 by omega, show i ≠ 3 by omega, show i ≠ 8 by omega, show ¬ i < 8 by omega]

/-- The fields of the STATUS word (R18). -/
theorem statusWord_fields (s : State) :
    (statusWord s).getLsbD 0 = s.pend.isSome ∧ (statusWord s).extractLsb' 1 2 = s.phase.code ∧
    (statusWord s).getLsbD 3 = s.err ∧ (statusWord s).extractLsb' 4 4 = s.ecode.code ∧
    (statusWord s).getLsbD 8 = s.haz ∧ (statusWord s).extractLsb' 9 23 = 0 := by
  refine ⟨getLsbD_statusWord s 0, ?phase, getLsbD_statusWord s 3, ?ecode, (getLsbD_statusWord s 8).trans (by simp),
    ?zero⟩
  all_goals
    apply BitVec.eq_of_getLsbD_eq
    intro i hi
    rw [BitVec.getLsbD_extractLsb', getLsbD_statusWord]
  case phase => simp [hi, show 1 + i < 3 by omega]
  case ecode => simp [hi, show ¬ 4 + i < 3 by omega, show 4 + i ≠ 3 by omega, show 4 + i < 8 by omega]
  case zero =>
    simp [hi, show ¬ 9 + i < 3 by omega, show 9 + i ≠ 3 by omega, show ¬ 9 + i < 8 by omega, show 9 + i ≠ 8 by omega]

/-- Settles O45: the numbers by evaluation, the fields by `statusWord_fields`. -/
theorem statusWordLayout : Obligations.StatusWordLayout := by
  refine ⟨⟨rfl, rfl, rfl, rfl⟩, ⟨rfl, rfl, rfl, rfl, rfl, rfl, rfl, rfl, rfl, rfl⟩, fun e => by cases e <;> decide,
    statusWord_fields, fun s => ?read, fun s v h => ?write⟩
  case read => exact busRead_readable (r := .status) rfl s
  case write => exact busWrite_idle h .status v

end Sys2Proof.Machine
end

section
/-! PROOFS. The outputs, the counts and the stages' tables over all events (R21, R23, R41, R72). -/

namespace Sys2Proof.Machine

variable {s t : State}

/-- The legal ranges of R6 that bound a width. -/
theorem legal_bounds {p : Params} (h : p.legal = true) : 1 ≤ p.wCnt ∧ p.wCnt ≤ 32 ∧ p.maxBits ≤ 65535 := by
  simp only [Params.legal, Bool.and_eq_true, decide_eq_true_eq] at h
  omega

/-! ## Outcome and outputs -/

theorem OutcomeOk.advance (h : OutcomeOk s) : OutcomeOk (advance s) := { h with }

theorem OutcomeOk.congr (hs : OutcomeOk s) (h : SameResults s t) : OutcomeOk t :=
  ⟨by rw [h.err, h.ecode, hs.err], fun hok => by rw [h.errinfo, hs.errinfo (h.ecode ▸ hok)]⟩

/-- The outputs' part depends on the parameters and the two outputs alone. -/
theorem OutputsOk.congr (hs : OutputsOk s) (hp : t.params = s.params) (he : t.obuf = s.obuf ∧ t.olen = s.olen)
    (hd : t.dbuf = s.dbuf ∧ t.dlen = s.dlen) : OutputsOk t := by
  obtain ⟨hob, hol⟩ := he
  obtain ⟨hdb, hdl⟩ := hd
  refine ⟨fun i hi => ?_, fun j hj => ?_, by rw [hol, hp]; exact hs.olen, by rw [hdl, hp]; exact hs.dlen⟩
  · rw [obufAt, hob]
    exact hs.obuf i (hol ▸ hi)
  · rw [dbufAt, hdb]
    exact hs.dbuf j (hdl ▸ hj)

/-- A failed ENCODE leaves an empty OBUF (R95). -/
theorem OutputsOk.clearEncoded (h : OutputsOk s) : OutputsOk (clearEncoded s) :=
  ⟨fun _ _ => rfl, h.dbuf, Nat.zero_le _, h.dlen⟩

/-- A failed DECODE leaves an empty DBUF (R107). -/
theorem OutputsOk.clearDecoded (h : OutputsOk s) : OutputsOk (clearDecoded s) :=
  ⟨h.obuf, fun _ _ => rfl, h.olen, Nat.zero_le _⟩

theorem OutputsOk.raise (h : OutputsOk s) (e : ErrCode) (w : Word) : OutputsOk (raise e w s) := { h with }

theorem OutputsOk.advance (h : OutputsOk s) : OutputsOk (advance s) := { h with }

theorem outputsOk_resetOf (p : Params) (agenda : List Event) (free fill : Nat) :
    OutputsOk (State.resetOf p agenda free fill) :=
  ⟨fun _ _ => rfl, fun _ _ => rfl, Nat.zero_le _, Nat.zero_le _⟩

/-- A list written into an empty memory reads as that list, and nothing stands behind it (R99, R109). -/
theorem read_writeList_nil {α : Type} [DecidableEq α] (z : α) (xs : List α) (j : Nat) :
    Memory.read z (Memory.writeList z [] 0 xs) j = xs.getD j z := by
  rw [Memory.read_writeList z xs [] (Memory.wf_nil z)]
  split_ifs with h
  · rfl
  · rw [Memory.read_nil, List.getD_eq_default _ _ (by omega)]

/-- A successful ENCODE fills OBUF up to OLEN (R98, R99). -/
theorem OutputsOk.execEncode (h : OutputsOk s) (hm : MemoriesOk s) (ht : execEncode s = .next t) : OutputsOk t := by
  obtain ⟨-, rfl⟩ | ⟨-, -, rfl⟩ | ⟨j, b, -, -, -, rfl⟩ | ⟨-, -, -, -, rfl⟩ | ⟨-, -, -, hroom, rfl⟩ :=
    execEncode_cases ht
  · exact h.clearEncoded.raise _ _
  · exact h.clearEncoded.raise _ _
  · exact h.clearEncoded.raise _ _
  · exact h.clearEncoded.raise _ _
  · obtain ⟨-, -, hbits⟩ := legal_bounds hm.params
    have holen : (BitVec.ofNat 16 (encodedLength s (wordBytes s))).toNat = encodedLength s (wordBytes s) :=
      Nat.mod_eq_of_lt (by omega)
    refine ⟨fun i hi => ?_, h.dbuf, holen.trans_le hroom, h.dlen⟩
    refine (read_writeList_nil false _ i).trans (List.getD_eq_default _ _ ?_)
    rw [length_encodedBits]
    exact holen.symm.trans_le hi

/-- A successful DECODE fills DBUF up to DLEN (R102, R109). -/
theorem OutputsOk.execDecode (h : OutputsOk s) (hm : MemoriesOk s) (ht : execDecode s = .next t) : OutputsOk t := by
  obtain ⟨-, rfl⟩ | ⟨-, -, rfl⟩ | ⟨i, -, -, -, rfl⟩ | ⟨c, -, -, -, -, rfl⟩ | ⟨c, -, hlen, hwalk, -, rfl⟩ :=
    execDecode_cases ht
  · exact h.clearDecoded.raise _ _
  · exact h.clearDecoded.raise _ _
  · exact h.clearDecoded.raise _ _
  · exact h.clearDecoded.raise _ _
  · obtain ⟨-, -, hbits⟩ := legal_bounds hm.params
    have hroom : c.out.length ≤ s.params.maxBits := by
      have hout := length_out_walk hwalk
      simp only [walkStart, List.length_nil, length_inputBits] at hout
      omega
    have hdlen : (BitVec.ofNat 16 c.out.length).toNat = c.out.length := Nat.mod_eq_of_lt (by omega)
    refine ⟨h.obuf, fun j hj => ?_, h.olen, hdlen.trans_le hroom⟩
    exact (read_writeList_nil 0 _ j).trans (List.getD_eq_default _ _ (hdlen.symm.trans_le hj))

theorem OutputsOk.exec (h : OutputsOk s) (hm : MemoriesOk s) {i : Instr} (ht : exec i s = .next t) : OutputsOk t := by
  cases i
  case reset => cases ht; exact outputsOk_resetOf s.params s.agenda s.free s.fill |>.congr rfl ⟨rfl, rfl⟩ ⟨rfl, rfl⟩
  case encode => exact h.execEncode hm ht
  case decode => exact h.execDecode hm ht
  all_goals
    exact h.congr (exec_keeps_fixtures ht).1 (exec_keeps_encoded ht nofun nofun) (exec_keeps_decoded ht nofun nofun)

/-- Settles O57: ENCODE and DECODE fill their buffer up to its length, and no other command writes an output. -/
theorem everyStepKeepsTheOutputs : Obligations.EveryStepKeepsTheOutputs := by
  intro s t hm hc ho h
  obtain ⟨i, -, -, hexec⟩ | ⟨w, -, -, rfl⟩ | ⟨-, rfl⟩ | ⟨-, -, hsame⟩ := step_results h
  · exact ⟨OutcomeOk.exec hexec, ho.advance.exec hm.advance hexec⟩
  · exact ⟨outcomeOk_raise w _ nofun, ho.advance.raise _ w⟩
  · exact ⟨⟨rfl, fun _ => rfl⟩, outputsOk_resetOf _ _ _ _⟩
  · exact ⟨hc.advance.congr hsame,
      ho.advance.congr hsame.params ⟨hsame.obuf, hsame.olen⟩ ⟨hsame.dbuf, hsame.dlen⟩⟩

/-! ## Counts -/

theorem nodup_alphabet : alphabet.Nodup := by
  refine (List.nodup_range).map_on fun a ha b hb hab => ?_
  have := congrArg BitVec.toNat hab
  simp only [List.mem_range] at ha hb
  simpa [Nat.mod_eq_of_lt ha, Nat.mod_eq_of_lt hb] using this

@[simp] theorem mem_alphabet (b : Byte) : b ∈ alphabet :=
  List.mem_map.2 ⟨b.toNat, List.mem_range.2 b.isLt, by simp⟩

/-- The sum of all counts as a sum over the set of byte values (R72). -/
theorem countSum_eq (s : State) : countSum s = ∑ b ∈ alphabet.toFinset, (freqAt s b).toNat :=
  (List.sum_toFinset _ nodup_alphabet).symm

/-- Every count is at most the sum (R71). -/
theorem freqAt_le_countSum (s : State) (b : Byte) : (freqAt s b).toNat ≤ countSum s := by
  rw [countSum_eq]
  exact Finset.single_le_sum (f := fun b => (freqAt s b).toNat) (fun _ _ => Nat.zero_le _) (by simp)

/-- One more of one byte makes the sum one more (R72). -/
theorem countSum_succ {b : Byte}
    (h : ∀ c, (freqAt t c).toNat = if c = b then (freqAt s c).toNat + 1 else (freqAt s c).toNat) :
    countSum t = countSum s + 1 := by
  have hsplit : ∀ c, (freqAt t c).toNat = (freqAt s c).toNat + if c = b then 1 else 0 := fun c => by
    rw [h]; split <;> rfl
  simp [countSum_eq, hsplit, Finset.sum_add_distrib]

/-- A write into FREQ is read back at its byte alone. -/
theorem freqAt_collect (hm : MemoriesOk s) (b c : Byte) (v : Word) :
    Memory.read 0 (Memory.write 0 s.freq b.toNat v) c.toNat = if c = b then v else freqAt s c := by
  rw [Memory.read_write 0 _ hm.freq.1.1]
  simp [← BitVec.toNat_inj, freqAt]

/-- A successful COLLECT counts one more, and no addition wraps (R70, R71). -/
theorem collect_counts (hm : MemoriesOk s) (hc : CountsOk s) (hroom : s.total.toNat ≠ countMax s.params) (b : Byte) :
    (count s.params (s.total.toNat + 1)).toNat = s.total.toNat + 1 ∧ s.total.toNat + 1 < 2 ^ s.params.wCnt ∧
    (count s.params ((freqAt s b).toNat + 1)).toNat = (freqAt s b).toNat + 1 := by
  obtain ⟨-, hw, -⟩ := legal_bounds hm.params
  have htotal := hc.width
  have hfreq := freqAt_le_countSum s b
  rw [← hc.sum] at hfreq
  simp only [countMax] at hroom
  exact ⟨toNat_count _ hw _ (by omega), by omega, toNat_count _ hw _ (by omega)⟩

/-- The counts are COLLECT's (R24, R27). -/
theorem exec_keeps_counts {i : Instr} (h : exec i s = .next t) (hreset : i ≠ .reset) (hcollect : ∀ b, i ≠ .collect b) :
    t.freq = s.freq ∧ t.total = s.total := by
  rw [exec_frame h]
  cases i
  case reset => exact absurd rfl hreset
  case collect b => exact absurd rfl (hcollect b)
  all_goals exact ⟨rfl, rfl⟩

/-- The counts' part speaks of PHASE only as EMPTY or not. -/
theorem CountsOk.of_phase (hs : CountsOk s) (hp : t.params = s.params) (hf : t.freq = s.freq ∧ t.total = s.total)
    (hphase : t.phase = .empty ↔ s.phase = .empty) : CountsOk t := by
  obtain ⟨hfreq, htotal⟩ := hf
  refine ⟨?_, by rw [htotal, hp]; exact hs.width, by rw [hphase, htotal]; exact hs.phase⟩
  simpa only [countSum, freqAt, hfreq, htotal] using hs.sum

/-- Only COLLECT leaves PHASE EMPTY, and only RESET returns to it (R20). -/
theorem exec_empty_iff {i : Instr} (h : exec i s = .next t) (hreset : i ≠ .reset) (hcollect : ∀ b, i ≠ .collect b) :
    t.phase = .empty ↔ s.phase = .empty := by
  by_cases hphase : t.phase = s.phase
  · rw [hphase]
  · obtain ⟨-, ⟨hi, -⟩ | ⟨b, hi, -⟩ | ⟨-, hs, ht⟩ | ⟨-, hs, ht⟩⟩ := exec_phase h hphase
    · exact absurd hi hreset
    · exact absurd hi (hcollect b)
    · simp [hs, ht]
    · simp [hs, ht]

theorem countsOk_resetOf (p : Params) (agenda : List Event) (free fill : Nat) :
    CountsOk (State.resetOf p agenda free fill) := by
  refine ⟨?_, Nat.two_pow_pos _, iff_of_true rfl rfl⟩
  simp [countSum, freqAt, State.resetOf]

theorem CountsOk.execCollect (h : CountsOk s) (hm : MemoriesOk s) {b : Byte} (ht : execCollect b s = .next t) :
    CountsOk t := by
  obtain ⟨-, rfl⟩ | ⟨-, -, rfl⟩ | ⟨-, hroom, rfl⟩ := execCollect_cases ht
  · exact h.congr rfl rfl rfl rfl
  · exact h.congr rfl rfl rfl rfl
  · obtain ⟨htotal, hwidth, hfreq⟩ := collect_counts hm h hroom b
    refine ⟨htotal.trans ?_, htotal.trans_lt hwidth, iff_of_false nofun fun h0 => ?_⟩
    · rw [h.sum]
      refine (countSum_succ (b := b) fun c => ?_).symm
      refine (congrArg BitVec.toNat (freqAt_collect hm b c _)).trans ?_
      split_ifs with hcb
      · rw [hfreq, hcb]
      · rfl
    · have hzero := congrArg BitVec.toNat h0
      exact absurd (htotal.symm.trans hzero) (Nat.succ_ne_zero _)

theorem CountsOk.exec (h : CountsOk s) (hm : MemoriesOk s) {i : Instr} (ht : exec i s = .next t) : CountsOk t := by
  cases i
  case reset => cases ht; exact (countsOk_resetOf s.params s.agenda s.free s.fill).congr rfl rfl rfl rfl
  case collect b => exact h.execCollect hm ht
  all_goals
    exact h.of_phase (exec_keeps_fixtures ht).1 (exec_keeps_counts ht nofun nofun) (exec_empty_iff ht nofun nofun)

/-! ## Stages -/

/-- The stages' part depends on PHASE, NODE, the code book and the lengths alone. -/
theorem StagesOk.congr (hs : StagesOk s) (hp : t.phase = s.phase) (hn : t.node = s.node)
    (hb : t.clen = s.clen ∧ t.cbits = s.cbits) (ho : t.olen = s.olen) (hd : t.dlen = s.dlen) : StagesOk t := by
  obtain ⟨hl, hc⟩ := hb
  constructor
  · rw [hp, hn]; exact hs.noTree
  · rw [hp, hl, hc]; exact hs.noBook
  · rw [hp, ho]; exact hs.noEncoded
  · rw [hp, hd]; exact hs.noDecoded

theorem StagesOk.raise (h : StagesOk s) (e : ErrCode) (w : Word) : StagesOk (raise e w s) := { h with }

theorem StagesOk.clearEncoded (h : StagesOk s) : StagesOk (clearEncoded s) := { h with noEncoded := fun _ => rfl }

theorem StagesOk.clearDecoded (h : StagesOk s) : StagesOk (clearDecoded s) := { h with noDecoded := fun _ => rfl }

theorem stagesOk_resetOf (p : Params) (agenda : List Event) (free fill : Nat) :
    StagesOk (State.resetOf p agenda free fill) :=
  ⟨fun _ => rfl, fun _ => ⟨rfl, rfl⟩, fun _ => rfl, fun _ => rfl⟩

theorem StagesOk.execCollect (h : StagesOk s) {b : Byte} (ht : execCollect b s = .next t) : StagesOk t := by
  obtain ⟨-, rfl⟩ | ⟨-, -, rfl⟩ | ⟨hearly, -, rfl⟩ := execCollect_cases ht
  · exact h.raise _ _
  · exact h.raise _ _
  · have hready : s.phase ≠ .ready := by obtain hp | hp := hearly <;> simp [hp]
    exact ⟨fun _ => h.noTree hearly, fun _ => h.noBook hready, fun _ => h.noEncoded hready, fun _ => h.noDecoded hearly⟩

theorem StagesOk.execBuild (h : StagesOk s) (ht : execBuild s = .next t) : StagesOk t := by
  obtain ⟨-, rfl⟩ | ⟨-, rfl⟩ | ⟨hcollect, rfl⟩ := execBuild_cases ht
  · exact h.raise _ _
  · exact h.raise _ _
  · have hready : s.phase ≠ .ready := by simp [hcollect]
    exact ⟨fun hp => absurd hp (by simp), fun _ => h.noBook hready, fun _ => h.noEncoded hready,
      fun hp => absurd hp (by simp)⟩

/-- PHASE READY, which DERIVE enters, bars nothing. -/
theorem stagesOk_of_ready (h : t.phase = .ready) : StagesOk t := by
  constructor <;> simp [h]

theorem StagesOk.execDerive (h : StagesOk s) (ht : execDerive s = .next t) : StagesOk t := by
  obtain ⟨-, rfl⟩ | ⟨-, -, rfl⟩ | ⟨-, -, rfl⟩ := execDerive_cases ht
  · exact h.raise _ _
  · exact stagesOk_of_ready rfl
  · exact stagesOk_of_ready rfl

theorem StagesOk.execEncode (h : StagesOk s) (ht : execEncode s = .next t) : StagesOk t := by
  obtain ⟨-, rfl⟩ | ⟨-, -, rfl⟩ | ⟨j, b, -, -, -, rfl⟩ | ⟨-, -, -, -, rfl⟩ | ⟨hready, -, -, -, rfl⟩ :=
    execEncode_cases ht
  · exact h.clearEncoded.raise _ _
  · exact h.clearEncoded.raise _ _
  · exact h.clearEncoded.raise _ _
  · exact h.clearEncoded.raise _ _
  · exact stagesOk_of_ready hready

theorem StagesOk.execDecode (h : StagesOk s) (ht : execDecode s = .next t) : StagesOk t := by
  obtain ⟨-, rfl⟩ | ⟨-, -, rfl⟩ | ⟨i, -, -, -, rfl⟩ | ⟨c, -, -, -, -, rfl⟩ | ⟨c, hlate, -, -, -, rfl⟩ :=
    execDecode_cases ht
  · exact h.clearDecoded.raise _ _
  · exact h.clearDecoded.raise _ _
  · exact h.clearDecoded.raise _ _
  · exact h.clearDecoded.raise _ _
  · exact { h with noDecoded := fun hearly => absurd hlate ((not_built_or_ready_iff s.phase).2 hearly) }

theorem StagesOk.exec (h : StagesOk s) {i : Instr} (ht : exec i s = .next t) : StagesOk t := by
  cases i with
  | nop => cases ht; exact { h with }
  | reset => cases ht; exact { stagesOk_resetOf s.params s.agenda s.free s.fill with }
  | collect b => exact h.execCollect ht
  | build => exact h.execBuild ht
  | derive => exact h.execDerive ht
  | encode => exact h.execEncode ht
  | decode => exact h.execDecode ht
  | ack => cases ht; exact { h with }

theorem CountsOk.advance (h : CountsOk s) : CountsOk (advance s) := h.congr rfl rfl rfl rfl

theorem StagesOk.advance (h : StagesOk s) : StagesOk (advance s) := { h with }

/-- Settles O58: COLLECT counts one byte once, and each stage writes its tables when it enters its phase. -/
theorem everyStepKeepsTheCounts : Obligations.EveryStepKeepsTheCounts := by
  intro s t hm hc hs h
  obtain ⟨i, -, -, hexec⟩ | ⟨w, -, -, rfl⟩ | ⟨-, rfl⟩ | ⟨-, -, hsame⟩ := step_results h
  · exact ⟨hc.advance.exec hm.advance hexec, hs.advance.exec hexec⟩
  · exact ⟨hc.congr rfl rfl rfl rfl, hs.advance.raise _ w⟩
  · exact ⟨countsOk_resetOf _ _ _ _, stagesOk_resetOf _ _ _ _⟩
  · exact ⟨hc.congr hsame.params hsame.phase hsame.total hsame.freq,
      hs.congr hsame.phase hsame.node ⟨hsame.clen, hsame.cbits⟩ hsame.olen hsame.dlen⟩

/-! ## After a reset -/

theorem inv_resetOf {p : Params} (hp : p.legal = true) (agenda : List Event) (free fill : Nat) :
    Inv (State.resetOf p agenda free fill) where
  memories := memoriesOk_resetOf hp agenda free fill
  outcome := ⟨rfl, fun _ => rfl⟩
  outputs := outputsOk_resetOf p agenda free fill
  counts := countsOk_resetOf p agenda free fill
  stages := stagesOk_resetOf p agenda free fill
  tree := fun h => absurd h (by simp [State.resetOf])
  book := nofun

/-- Settles O55: after a reset no count, no table and no output is listed. -/
theorem resetStateMeetsTheInvariant : Obligations.ResetStateMeetsTheInvariant :=
  ⟨fun _ agenda free fill hp => inv_resetOf hp agenda free fill, inv_resetOf (by decide) [] 1 0⟩

end Sys2Proof.Machine
end

section
/-! PROOFS. The priority queue of BUILD (R76). -/

namespace Sys2Proof.Machine

variable {f g : Nat → Word} {a b c k : Nat} {q q' : List Nat}

/-- Queue order, over natural numbers (R76). -/
theorem queueLess_iff :
    queueLess f a b = true ↔ (f a).toNat < (f b).toNat ∨ ((f a).toNat = (f b).toNat ∧ a < b) := by
  simp [queueLess, BitVec.lt_def, BitVec.toNat_inj]

theorem queueLess_trans (hab : queueLess f a b = true) (hbc : queueLess f b c = true) : queueLess f a c = true := by
  rw [queueLess_iff] at *
  omega

/-- Queue order is total: distinct indices never tie (R76). -/
theorem queueLess_total (f : Nat → Word) (a b : Nat) : a = b ∨ queueLess f a b = true ∨ queueLess f b a = true := by
  simp only [queueLess_iff]
  omega

/-- Queue order looks at the two frequencies alone. -/
theorem queueLess_congr (ha : f a = g a) (hb : f b = g b) : queueLess f a b = queueLess g a b := by
  simp only [queueLess, ha, hb]

/-- The least index stands in the queue, before every other. -/
theorem leastIndex_spec (f : Nat → Word) (x : Nat) (ys : List Nat) :
    leastIndex f x ys ∈ x :: ys ∧
    ∀ j ∈ x :: ys, j = leastIndex f x ys ∨ queueLess f (leastIndex f x ys) j = true := by
  induction ys generalizing x with
  | nil => simp [leastIndex]
  | cons y ys ih =>
    simp only [leastIndex]
    by_cases hyx : queueLess f y x = true
    · rw [if_pos hyx]
      obtain ⟨hmem, hleast⟩ := ih y
      refine ⟨List.mem_cons_of_mem _ hmem, List.forall_mem_cons.2 ⟨.inr ?_, hleast⟩⟩
      obtain hy | hy := hleast y List.mem_cons_self
      · rwa [← hy]
      · exact queueLess_trans hy hyx
    · rw [if_neg hyx]
      obtain ⟨hmem, hleast⟩ := ih x
      obtain ⟨hx, hys⟩ := List.forall_mem_cons.1 hleast
      refine ⟨List.mem_cons.2 ((List.mem_cons.1 hmem).imp id (List.mem_cons_of_mem _)),
        List.forall_mem_cons.2 ⟨hx, List.forall_mem_cons.2 ⟨?_, hys⟩⟩⟩
      obtain rfl | hxy := (queueLess_total f x y).imp id (Or.resolve_right · hyx)
      · exact hx
      · obtain hx | hx := hx
        · exact .inr (hx ▸ hxy)
        · exact .inr (queueLess_trans hx hxy)

/-- R76: `PopMin` removes the least index. -/
theorem popMin_eq_some (h : popMin f q = some (k, q')) :
    k ∈ q ∧ q' = q.erase k ∧ ∀ j ∈ q, j = k ∨ queueLess f k j = true := by
  cases q with
  | nil => cases h
  | cons x xs =>
    cases h
    obtain ⟨hmem, hleast⟩ := leastIndex_spec f x xs
    exact ⟨hmem, rfl, hleast⟩

theorem exists_popMin (hq : q ≠ []) : ∃ k q', popMin f q = some (k, q') := by
  cases q with
  | nil => exact absurd rfl hq
  | cons x xs => exact ⟨_, _, rfl⟩

/-- A merge of a queue of two or more nodes joins its two least, in order, and leaves the rest (R78). -/
theorem exists_mergeOne (p : Params) (m : Nat) (nodes : Memory Node) (hq : q.Nodup) (hlen : 2 ≤ q.length) :
    ∃ a c rest, q.Perm (a :: c :: rest) ∧ queueLess (fun k => (recordAt nodes k).f) a c = true ∧
      (∀ j ∈ rest, queueLess (fun k => (recordAt nodes k).f) c j = true) ∧
      mergeOne p m nodes q = some
        (Memory.write Node.zero nodes m
          (Node.mkInternal a c (count p ((recordAt nodes a).f.toNat + (recordAt nodes c).f.toNat))), rest ++ [m]) := by
  have hlen0 : 0 < q.length := by omega
  obtain ⟨a, q1, ha⟩ := exists_popMin (f := fun k => (recordAt nodes k).f) (List.ne_nil_of_length_pos hlen0)
  obtain ⟨hamem, rfl, haleast⟩ := popMin_eq_some ha
  have hlen1 : 0 < (q.erase a).length := by
    rw [List.length_erase_of_mem hamem]
    omega
  obtain ⟨c, rest, hc⟩ := exists_popMin (f := fun k => (recordAt nodes k).f) (List.ne_nil_of_length_pos hlen1)
  obtain ⟨hcmem, rfl, hcleast⟩ := popMin_eq_some hc
  have hperm : q.Perm (a :: c :: (q.erase a).erase c) :=
    (List.perm_cons_erase hamem).trans ((List.perm_cons_erase hcmem).cons a)
  obtain ⟨hafresh, hcfresh⟩ := (List.nodup_cons.1 (hperm.nodup hq)).imp id List.nodup_cons.1
  refine ⟨a, c, _, hperm, ?_, fun j hj => ?_, by simp only [mergeOne, ha, hc]⟩
  · exact (haleast c (List.mem_of_mem_erase hcmem)).resolve_left fun h => hafresh (h ▸ List.mem_cons_self)
  · exact (hcleast j (List.mem_of_mem_erase hj)).resolve_left fun h => hcfresh.1 (h ▸ hj)

/-- What each merge keeps stands after all of them. -/
theorem mergeLoop_induction {p : Params} {bound : Nat} {P : Nat → Memory Node → List Nat → Prop}
    (hmerge : ∀ m nodes q, m < bound → P m nodes q →
      ∃ nodes' q', mergeOne p m nodes q = some (nodes', q') ∧ P (m + 1) nodes' q')
    {steps m : Nat} {nodes : Memory Node} {q : List Nat} (h : P m nodes q) (hm : m + steps ≤ bound) :
    ∃ q', P (m + steps) (mergeLoop p steps m nodes q) q' := by
  induction steps generalizing m nodes q with
  | zero => exact ⟨q, h⟩
  | succ steps ih =>
    obtain ⟨nodes', q', heq, h'⟩ := hmerge m nodes q (by omega) h
    simp only [mergeLoop, heq]
    rw [← Nat.succ_add_eq_add_succ]
    exact ih h' (by omega)

end Sys2Proof.Machine
end

section
/-! PROOFS. The leaves BUILD places (R77), and the symbols they stand for. -/

namespace Sys2Proof.Machine

variable {s : State}

theorem recordAt_write {nodes : Memory Node} (h : ArenaOk nodes) (m : Nat) (r : Node) (k : Nat) :
    recordAt (Memory.write Node.zero nodes m r) k = if k = m then r else recordAt nodes k :=
  Memory.read_write Node.zero nodes h.1.1 m r k

/-- Placing leaves writes no record before the first or after the last of them. -/
theorem recordAt_placeLeaves_outside {freq : Byte → Word} {bs : List Byte} {nodes : Memory Node} (h : ArenaOk nodes)
    {k : Nat} (hk : k + bs.length ≤ Config.nNode) {j : Nat} (hj : j < k ∨ k + bs.length ≤ j) :
    recordAt (placeLeaves freq nodes k bs) j = recordAt nodes j := by
  induction bs generalizing nodes k with
  | nil => rfl
  | cons b bs ih =>
    simp only [List.length_cons] at hk hj
    rw [placeLeaves, ih (h.write (by omega) _) (by omega) (by omega), recordAt_write h, if_neg (by omega)]

/-- The `i`-th leaf placed is the `i`-th byte's (R77). -/
theorem recordAt_placeLeaves {freq : Byte → Word} {bs : List Byte} {nodes : Memory Node} (h : ArenaOk nodes) {k : Nat}
    (hk : k + bs.length ≤ Config.nNode) {i : Nat} (hi : i < bs.length) :
    recordAt (placeLeaves freq nodes k bs) (k + i) = Node.mkLeaf bs[i] (freq bs[i]) := by
  induction bs generalizing nodes k i with
  | nil => cases hi
  | cons b bs ih =>
    simp only [List.length_cons] at hk hi
    have harena := h.write (by omega : k < Config.nNode) (Node.mkLeaf b (freq b))
    cases i with
    | zero =>
      rw [placeLeaves, recordAt_placeLeaves_outside harena (by omega) (by omega), recordAt_write h]
      simp
    | succ i =>
      rw [placeLeaves, show k + (i + 1) = k + 1 + i by omega, ih harena (by omega) (by omega)]
      rfl

theorem mem_symbols (b : Byte) : b ∈ symbols s ↔ freqAt s b ≠ 0 := by simp [symbols]

theorem nodup_symbols (s : State) : (symbols s).Nodup := nodup_alphabet.filter _

/-- The bytes without a count add nothing to the sum. -/
theorem sum_symbols (s : State) : ((symbols s).map (fun b => (freqAt s b).toNat)).sum = countSum s := by
  unfold symbols countSum
  induction alphabet with
  | nil => rfl
  | cons b bs ih =>
    rw [List.filter_cons]
    split_ifs with hb
    · simp only [List.map_cons, List.sum_cons, ih]
    · have hzero : freqAt s b = 0 := by simpa using hb
      simp [hzero, ← ih]

/-- A count makes a symbol (R25, R41). -/
theorem nsym_pos (h : CountsOk s) (hphase : s.phase ≠ .empty) : 1 ≤ nsym s := by
  rw [Nat.one_le_iff_ne_zero]
  intro hn
  have hsum := sum_symbols s
  rw [List.eq_nil_of_length_eq_zero hn, ← h.sum] at hsum
  exact hphase (h.phase.2 (BitVec.eq_of_toNat_eq hsum.symm))

end Sys2Proof.Machine
end

section
/-! PROOFS. What BUILD's merges keep: a forest whose roots are the queue (R78 to R83). -/

namespace Sys2Proof.Machine

variable {s : State}

/-- Where a parent can stand when the records below `n` are leaves, those from `n` to `m` internal nodes, and the rest
empty: among the internal nodes, after its children. -/
theorem isParent_bounds {n m : Nat} (leaves : ∀ k, k < n → (nodeAt s k).leaf = true)
    (inner : ∀ j, n ≤ j → j < m → InternalOk s j) (rest : ∀ k, m ≤ k → nodeAt s k = Node.zero) {j k : Nat}
    (h : IsParent s j k) : n ≤ j ∧ j < m ∧ k < j := by
  obtain ⟨hvalid, hinner, hchild⟩ := h
  have hn : n ≤ j := by
    by_contra hlt
    simp [leaves j (Nat.not_le.1 hlt)] at hinner
  have hm : j < m := by
    by_contra hge
    simp [rest j (Nat.not_lt.1 hge), Node.zero] at hvalid
  have hj := inner j hn hm
  refine ⟨hn, hm, ?_⟩
  obtain rfl | rfl := hchild
  · exact hj.left
  · exact hj.right

/-- The arena before merge `m`: the leaves and the internal nodes below `m` form a forest, and the queue holds its
roots, node `m − 1` among them, with the whole of TOTAL between them. -/
structure Forest (s : State) (m : Nat) (q : List Nat) : Prop where
  arena  : ArenaOk s.node
  start  : nsym s ≤ m
  leaves : ∀ k, (h : k < nsym s) → nodeAt s k = Node.mkLeaf ((symbols s)[k]'h) (freqAt s ((symbols s)[k]'h))
  inner  : ∀ j, nsym s ≤ j → j < m → InternalOk s j
  rest   : ∀ k, m ≤ k → nodeAt s k = Node.zero
  nodup  : q.Nodup
  below  : ∀ k ∈ q, k < m
  size   : q.length + m = 2 * nsym s
  last   : m - 1 ∈ q
  roots  : ∀ k ∈ q, ∀ j, ¬ IsParent s j k
  joined : ∀ k, k < m → k ∉ q → ∃ j, IsParent s j k ∧ ∀ j', IsParent s j' k → j' = j
  sum    : (q.map (fun k => (nodeAt s k).f.toNat)).sum = countSum s

theorem Forest.isParent_bounds {m : Nat} {q : List Nat} (h : Forest s m q) {j k : Nat} (hp : IsParent s j k) :
    nsym s ≤ j ∧ j < m ∧ k < j :=
  Machine.isParent_bounds (fun k hk => by rw [h.leaves k hk]; rfl) h.inner h.rest hp

/-- The leaves alone are a forest (R77). -/
theorem forest_leaves (hpos : 1 ≤ nsym s) (hnode : s.node = placeLeaves (freqAt s) [] 0 (symbols s)) :
    Forest s (nsym s) (List.range (nsym s)) := by
  have hempty : ArenaOk [] := ⟨Memory.wf_nil _, List.forall_mem_nil _⟩
  have hbound : 0 + (symbols s).length ≤ Config.nNode := by
    have hn := nsym_le s
    change 0 + nsym s ≤ 511
    omega
  have hleaf : ∀ k, (h : k < nsym s) →
      nodeAt s k = Node.mkLeaf ((symbols s)[k]'h) (freqAt s ((symbols s)[k]'h)) := fun k hk => by
    rw [nodeAt, hnode]
    simpa using recordAt_placeLeaves (freq := freqAt s) hempty hbound hk
  have hrest : ∀ k, nsym s ≤ k → nodeAt s k = Node.zero := fun k hk => by
    rw [nodeAt, hnode]
    exact recordAt_placeLeaves_outside hempty hbound (.inr (by rwa [Nat.zero_add]))
  have hinner : ∀ j, nsym s ≤ j → j < nsym s → InternalOk s j := fun j h1 h2 => absurd h2 (Nat.not_lt.2 h1)
  have hfreqs : (List.range (nsym s)).map (fun k => (nodeAt s k).f.toNat) =
      (symbols s).map (fun b => (freqAt s b).toNat) := by
    refine List.ext_getElem (by simp [nsym]) fun k hk _ => ?_
    simp only [List.length_map, List.length_range] at hk
    simp only [List.getElem_map, List.getElem_range, hleaf k hk]
    rfl
  exact {
    arena := hnode ▸ hempty.placeLeaves hbound
    start := le_rfl
    leaves := hleaf
    inner := hinner
    rest := hrest
    nodup := List.nodup_range
    below := fun k hk => List.mem_range.1 hk
    size := by rw [List.length_range]; omega
    last := List.mem_range.2 (by omega)
    roots := fun k _ j hp => by
      obtain ⟨h1, h2, -⟩ := isParent_bounds (fun k hk => by rw [hleaf k hk]; rfl) hinner hrest hp
      omega
    joined := fun k hk hq => absurd (List.mem_range.2 hk) hq
    sum := by rw [hfreqs, sum_symbols] }

/-- The invariant of an internal node depends on the records up to it alone. -/
theorem InternalOk.congr {t : State} {m : Nat} (h : InternalOk s m) (heq : ∀ k, k ≤ m → nodeAt t k = nodeAt s k) :
    InternalOk t m := by
  have hm := heq m le_rfl
  have hl := heq _ h.left.le
  have hr := heq _ h.right.le
  constructor
  · rw [hm]; exact h.valid
  · rw [hm]; exact h.inner
  · rw [hm]; exact h.sym
  · rw [hm]; exact h.left
  · rw [hm]; exact h.right
  · rw [hm, queueLess_congr (g := fun k => (nodeAt s k).f) (congrArg Node.f hl) (congrArg Node.f hr)]; exact h.order
  · rw [hm, hl, hr]; exact h.sum

/-- The node that joins `a` and `c` (R78, R79). -/
def joinOf (s : State) (a c : Nat) : Node :=
  Node.mkInternal a c (count s.params ((nodeAt s a).f.toNat + (nodeAt s c).f.toNat))

/-- The state after merge `m` of nodes `a` and `c` (R78). -/
def mergedAt (s : State) (m a c : Nat) : State := { s with node := Memory.write Node.zero s.node m (joinOf s a c) }

section
variable {m a c : Nat} {q rest : List Nat}

theorem nodeAt_mergedAt (h : ArenaOk s.node) (k : Nat) :
    nodeAt (mergedAt s m a c) k = if k = m then joinOf s a c else nodeAt s k := recordAt_write h m (joinOf s a c) k

/-- Merge `m` gives `a` and `c` a parent and no other node (R78). -/
theorem isParent_mergedAt (h : ArenaOk s.node) (ha : a < 512) (hc : c < 512) (j k : Nat) :
    IsParent (mergedAt s m a c) j k ↔ (j = m ∧ (a = k ∨ c = k)) ∨ (j ≠ m ∧ IsParent s j k) := by
  unfold IsParent
  rw [nodeAt_mergedAt h]
  by_cases hj : j = m
  · simp [hj, joinOf, Node.mkInternal, Nat.mod_eq_of_lt ha, Nat.mod_eq_of_lt hc]
  · simp [hj]

/-- The node merge `m` makes is an internal node of a Huffman tree: no sum of two counts wraps (R79, R82). -/
theorem internalOk_mergedAt (h : ArenaOk s.node) (hm : m < 512) (ha : a < m) (hc : c < m)
    (hless : queueLess (fun k => (nodeAt s k).f) a c = true) (hw : s.params.wCnt ≤ 32)
    (hfit : (nodeAt s a).f.toNat + (nodeAt s c).f.toNat < 2 ^ s.params.wCnt) : InternalOk (mergedAt s m a c) m := by
  have hnew : nodeAt (mergedAt s m a c) m = joinOf s a c := (nodeAt_mergedAt h m).trans (if_pos rfl)
  have hold : ∀ k, k < m → nodeAt (mergedAt s m a c) k = nodeAt s k := fun k hk =>
    (nodeAt_mergedAt h k).trans (if_neg (by omega))
  have hleft : (nodeAt (mergedAt s m a c) m).left.toNat = a := by
    rw [hnew]
    exact Nat.mod_eq_of_lt (by omega)
  have hright : (nodeAt (mergedAt s m a c) m).right.toNat = c := by
    rw [hnew]
    exact Nat.mod_eq_of_lt (by omega)
  refine ⟨by rw [hnew]; rfl, by rw [hnew]; rfl, by rw [hnew]; rfl, by rwa [hleft], by rwa [hright], ?order, ?sum⟩
  case order =>
    rwa [hleft, hright, queueLess_congr (g := fun k => (nodeAt s k).f) (congrArg Node.f (hold a ha))
      (congrArg Node.f (hold c hc))]
  case sum =>
    rw [hleft, hright, hold a ha, hold c hc, hnew]
    exact toNat_count _ hw _ hfit

/-! ### One merge of two roots: the queue holds `a`, `c` and the rest -/

variable (h : Forest s m q) (hperm : q.Perm (a :: c :: rest))
include h hperm

/-- Two roots are left only before the last record is written (R78, R83). -/
theorem Forest.room : m < 511 := by
  have hn := nsym_le s
  have hsize := h.size
  have hlen := hperm.length_eq
  simp only [List.length_cons] at hlen
  omega

theorem Forest.below_of_perm : a < m ∧ c < m ∧ ∀ k ∈ rest, k < m := by
  simpa [hperm.mem_iff, or_imp, forall_and] using h.below

theorem Forest.nodup_of_perm : a ∉ rest ∧ c ∉ rest ∧ rest.Nodup := by
  have hnodup := hperm.nodup h.nodup
  simp only [List.nodup_cons, List.mem_cons, not_or] at hnodup
  exact ⟨hnodup.1.2, hnodup.2⟩

theorem Forest.isParent_merge (j k : Nat) :
    IsParent (mergedAt s m a c) j k ↔ (j = m ∧ (a = k ∨ c = k)) ∨ (j ≠ m ∧ IsParent s j k) := by
  have hroom := h.room hperm
  obtain ⟨ha, hc, -⟩ := h.below_of_perm hperm
  exact isParent_mergedAt h.arena (by omega) (by omega) j k

/-- The roots after the merge are the other roots and the new node. -/
theorem Forest.roots_merge {k : Nat} (hk : k ∈ rest ++ [m]) (j : Nat) : ¬ IsParent (mergedAt s m a c) j k := by
  obtain ⟨ha, hc, hrest⟩ := h.below_of_perm hperm
  obtain ⟨hafresh, hcfresh, -⟩ := h.nodup_of_perm hperm
  rw [h.isParent_merge hperm]
  obtain hk | hk := List.mem_append.1 hk
  · rintro (⟨-, rfl | rfl⟩ | ⟨-, hp⟩)
    · exact hafresh hk
    · exact hcfresh hk
    · exact h.roots k (hperm.mem_iff.2 (List.mem_cons_of_mem _ (List.mem_cons_of_mem _ hk))) j hp
  · obtain rfl := List.mem_singleton.1 hk
    rintro (⟨-, hchild⟩ | ⟨-, hp⟩)
    · omega
    · obtain ⟨-, hjm, hkj⟩ := h.isParent_bounds hp
      omega

/-- The two nodes joined get their parent, and every other node keeps its own. -/
theorem Forest.joined_merge {k : Nat} (hk : k < m + 1) (hq : k ∉ rest ++ [m]) :
    ∃ j, IsParent (mergedAt s m a c) j k ∧ ∀ j', IsParent (mergedAt s m a c) j' k → j' = j := by
  simp only [h.isParent_merge hperm]
  obtain ⟨hkrest, hkm⟩ : k ∉ rest ∧ k ≠ m := by simpa using hq
  by_cases hchild : a = k ∨ c = k
  · have hkq : k ∈ q := by
      rw [hperm.mem_iff]
      obtain rfl | rfl := hchild <;> simp
    refine ⟨m, .inl ⟨rfl, hchild⟩, ?_⟩
    rintro j' (⟨hj', -⟩ | ⟨-, hp⟩)
    · exact hj'
    · exact absurd hp (h.roots k hkq j')
  · have hkq : k ∉ q := by
      rw [hperm.mem_iff]
      simpa [eq_comm, hkrest, not_or] using hchild
    obtain ⟨j, hj, hunique⟩ := h.joined k (by omega) hkq
    obtain ⟨-, hjm, -⟩ := h.isParent_bounds hj
    refine ⟨j, .inr ⟨hjm.ne, hj⟩, ?_⟩
    rintro j' (⟨-, hp⟩ | ⟨-, hp⟩)
    · exact absurd hp hchild
    · exact hunique j' hp

theorem Forest.sum_of_perm :
    (nodeAt s a).f.toNat + ((nodeAt s c).f.toNat + (rest.map (fun k => (nodeAt s k).f.toNat)).sum) = countSum s := by
  rw [← h.sum, (hperm.map _).sum_eq]
  rfl

/-- A merge of two roots in queue order keeps the forest (R78 to R83). -/
theorem Forest.merge (hcounts : countSum s < 2 ^ s.params.wCnt) (hw : s.params.wCnt ≤ 32)
    (hless : queueLess (fun k => (nodeAt s k).f) a c = true) : Forest (mergedAt s m a c) (m + 1) (rest ++ [m]) := by
  have hroom := h.room hperm
  have hstart := h.start
  obtain ⟨ha, hc, hrest⟩ := h.below_of_perm hperm
  obtain ⟨-, -, hnodup⟩ := h.nodup_of_perm hperm
  have hsum := h.sum_of_perm hperm
  have hfit : (nodeAt s a).f.toNat + (nodeAt s c).f.toNat < 2 ^ s.params.wCnt := by omega
  have hold : ∀ k, k < m → nodeAt (mergedAt s m a c) k = nodeAt s k := fun k hk =>
    (nodeAt_mergedAt h.arena k).trans (if_neg hk.ne)
  refine {
    arena := h.arena.write hroom (joinOf s a c)
    start := Nat.le_succ_of_le hstart
    leaves := fun k hk => (hold k (Nat.lt_of_lt_of_le hk hstart)).trans (h.leaves k hk)
    inner := fun j h1 h2 => ?inner
    rest := fun k hk => (nodeAt_mergedAt h.arena k).trans ((if_neg (by omega)).trans (h.rest k (by omega)))
    nodup := hnodup.append (List.nodup_singleton m) (by simpa using fun hk => (hrest m hk).ne rfl)
    below := by simpa [or_imp, forall_and] using fun k hk => Nat.lt_succ_of_lt (hrest k hk)
    size := ?size
    last := by simp
    roots := fun k hk j => h.roots_merge hperm hk j
    joined := fun k hk hq => h.joined_merge hperm hk hq
    sum := ?sum }
  case inner =>
    obtain hj | rfl := Nat.lt_succ_iff_lt_or_eq.1 h2
    · exact (h.inner j h1 hj).congr fun k hk => hold k (by omega)
    · exact internalOk_mergedAt h.arena (by omega) ha hc hless hw hfit
  case size =>
    have hlen := hperm.length_eq
    have hsize := h.size
    simp only [List.length_cons, List.length_append, List.length_nil] at hlen ⊢
    change _ = 2 * nsym s
    omega
  case sum =>
    have hkeep : rest.map (fun k => (nodeAt (mergedAt s m a c) k).f.toNat) = rest.map (fun k => (nodeAt s k).f.toNat) :=
      List.map_congr_left fun k hk => by rw [hold k (hrest k hk)]
    have hroot : (nodeAt (mergedAt s m a c) m).f.toNat = (nodeAt s a).f.toNat + (nodeAt s c).f.toNat := by
      rw [(nodeAt_mergedAt h.arena m).trans (if_pos rfl)]
      exact toNat_count _ hw _ hfit
    rw [List.map_append, List.sum_append, hkeep, List.map_singleton, List.sum_singleton, hroot]
    change _ = countSum s
    omega

end

/-! ## The whole of BUILD -/

/-- Before each merge two roots are left, and the merge joins the two least (R78). -/
theorem Forest.exists_merge {m : Nat} {q : List Nat} (h : Forest s m q) (hcounts : countSum s < 2 ^ s.params.wCnt)
    (hw : s.params.wCnt ≤ 32) (hm : m < 2 * nsym s - 1) :
    ∃ nodes q', mergeOne s.params m s.node q = some (nodes, q') ∧ Forest { s with node := nodes } (m + 1) q' := by
  have hsize := h.size
  obtain ⟨a, c, rest, hperm, hless, -, hmerge⟩ := exists_mergeOne s.params m s.node h.nodup (by omega)
  exact ⟨_, _, hmerge, h.merge hperm hcounts hw hless⟩

/-- BUILD's loop merges until one root is left (R75, R83). -/
theorem forest_buildArena (hm : MemoriesOk s) (hc : CountsOk s) (hpos : 1 ≤ nsym s) (hnode : s.node = [])
    (root : BitVec 9) : ∃ q, Forest { s with node := buildArena s, root := root } (2 * nsym s - 1) q := by
  obtain ⟨-, hw, -⟩ := legal_bounds hm.params
  have hcounts : countSum s < 2 ^ s.params.wCnt := hc.sum ▸ hc.width
  have hleaves : Forest { s with node := placeLeaves (freqAt s) s.node 0 (symbols s), root := root } (nsym s)
      (List.range (nsym s)) := forest_leaves hpos (by rw [hnode]; rfl)
  have hall := mergeLoop_induction (p := s.params) (bound := 2 * nsym s - 1) (steps := nsym s - 1)
    (P := fun m nodes q => Forest { s with node := nodes, root := root } m q)
    (fun m nodes q hlt hforest => hforest.exists_merge hcounts hw hlt) hleaves (by omega)
  rwa [show nsym s + (nsym s - 1) = 2 * nsym s - 1 by omega] at hall

/-- A forest of one root is a tree, with the whole of TOTAL at its root (R80, R83). -/
theorem Forest.treeOk {q : List Nat} (h : Forest s (2 * nsym s - 1) q) (hpos : 1 ≤ nsym s)
    (hroot : s.root.toNat = 2 * nsym s - 2) (htotal : s.total.toNat = countSum s) : TreeOk s := by
  have honly : q = [2 * nsym s - 2] := by
    have hsize := h.size
    obtain ⟨k, rfl⟩ := List.length_eq_one_iff.1 (show q.length = 1 by omega)
    rw [← List.mem_singleton.1 h.last, Nat.sub_sub]
  have hsum := h.sum
  subst honly
  rw [List.map_singleton, List.sum_singleton, ← htotal] at hsum
  exact {
    size := hpos
    leaves := h.leaves
    inner := h.inner
    rest := h.rest
    root := hroot
    parents := fun k hk => h.joined k (by omega) (by rw [List.mem_singleton]; omega)
    total := by rw [hroot]; exact BitVec.eq_of_toNat_eq hsum }

/-- R80, R81: the root is the last node. -/
theorem toNat_buildRoot (hpos : 1 ≤ nsym s) : (buildRoot s).toNat = 2 * nsym s - 2 := by
  have hn := nsym_le s
  unfold buildRoot
  split_ifs with hone
  · simp [hone]
  · exact Nat.mod_eq_of_lt (by omega)

/-- R77 to R83: BUILD writes a Huffman tree over the symbols. -/
theorem treeOk_build (hm : MemoriesOk s) (hc : CountsOk s) (hs : StagesOk s) (hphase : s.phase = .collect) :
    TreeOk { s with node := buildArena s, root := buildRoot s } := by
  have hpos : 1 ≤ nsym s := nsym_pos hc (by simp [hphase])
  obtain ⟨q, hforest⟩ := forest_buildArena hm hc hpos (hs.noTree (.inr hphase)) (buildRoot s)
  exact hforest.treeOk hpos (toNat_buildRoot hpos) hc.sum

end Sys2Proof.Machine
end

section
/-! PROOFS. The codes DERIVE records (R87): one write a leaf, at the leaf's own byte. -/

namespace Sys2Proof.Machine

variable {s t : State} {b c : Byte} {p : List Bool}

/-- Byte `b` has the code `p`, and the bits behind it are 0; with no bits, `b` has no code. -/
structure HoldsCode (s : State) (b : Byte) (p : List Bool) : Prop where
  length : (clenAt s b).toNat = p.length
  bits   : ∀ i, (cbitsAt s b).getLsbD i = p.getD i false

theorem HoldsCode.codeOf_eq (h : HoldsCode s b p) : codeOf s b = p := by
  refine List.ext_getElem (by rw [length_codeOf, h.length]) fun i _ hi => ?_
  simp [codeOf, h.bits, hi]

theorem HoldsCode.tail (h : HoldsCode s b p) {i : Nat} (hi : (clenAt s b).toNat ≤ i) :
    (cbitsAt s b).getLsbD i = false := by
  rw [h.bits, List.getD_eq_default _ _ (h.length ▸ hi)]

theorem HoldsCode.eq_zero (h : HoldsCode s b []) : clenAt s b = 0 ∧ cbitsAt s b = 0 :=
  ⟨BitVec.eq_of_toNat_eq h.length, BitVec.eq_of_getLsbD_eq fun i _ => by simpa using h.bits i⟩

/-- Before DERIVE no byte has a code (R41). -/
theorem holdsCode_nil (hl : s.clen = []) (hb : s.cbits = []) (b : Byte) : HoldsCode s b [] := by
  constructor <;> simp [clenAt, cbitsAt, hl, hb]

theorem clenAt_recordCode (hm : MemoriesOk s) :
    clenAt (recordCode b p s) c = if c = b then BitVec.ofNat 8 p.length else clenAt s c := by
  rw [clenAt, recordCode_clen, Memory.read_write 0 _ hm.clen.1.1]
  simp only [BitVec.toNat_inj, clenAt]

theorem cbitsAt_recordCode (hm : MemoriesOk s) :
    cbitsAt (recordCode b p s) c = if c = b then writeBits (cbitsAt s b) 0 p else cbitsAt s c := by
  rw [cbitsAt, recordCode_cbits, Memory.read_write 0 _ hm.cbits.1.1]
  simp only [BitVec.toNat_inj, cbitsAt]

/-- A code of at most 255 bits is recorded as it is (R29, R30, R87). -/
theorem HoldsCode.recordCode_same (h : HoldsCode s b []) (hm : MemoriesOk s) (hp : p.length ≤ 255) :
    HoldsCode (recordCode b p s) b p := by
  refine ⟨?_, fun i => ?_⟩
  · rw [clenAt_recordCode hm, if_pos rfl]
    exact Nat.mod_eq_of_lt (by omega)
  · rw [cbitsAt_recordCode hm, if_pos rfl, getLsbD_writeBits]
    split_ifs with hi
    · rfl
    · rw [h.bits, List.getD_nil, List.getD_eq_default _ _ (by omega)]

theorem HoldsCode.recordCode_of_ne {q : List Bool} (h : HoldsCode s c q) (hm : MemoriesOk s) (hne : c ≠ b) :
    HoldsCode (recordCode b p s) c q := by
  refine ⟨?_, fun i => ?_⟩
  · rw [clenAt_recordCode hm, if_neg hne, h.length]
  · rw [cbitsAt_recordCode hm, if_neg hne, h.bits]

/-- Recording the leaves of other bytes leaves a byte's code as it is. -/
theorem HoldsCode.recordLeaves_other {cells : Memory Node} (h : HoldsCode s b p) (hm : MemoriesOk s)
    (hother : ∀ k r, (k, r) ∈ cells → (r.valid && r.leaf) = true → r.sym ≠ b) :
    HoldsCode (recordLeaves s cells) b p := by
  induction cells generalizing s with
  | nil => exact h
  | cons cell cells ih =>
    obtain ⟨k, r⟩ := cell
    have htail : ∀ k r, (k, r) ∈ cells → (r.valid && r.leaf) = true → r.sym ≠ b := fun k r hmem =>
      hother k r (List.mem_cons_of_mem _ hmem)
    simp only [recordLeaves]
    split_ifs with hleaf
    · exact ih (h.recordCode_of_ne hm (hother k r List.mem_cons_self hleaf).symm) (hm.recordCode _ _) htail
    · exact ih h hm htail

/-- Recording the leaves gives a byte the path of its leaf, when it has one leaf (R87). -/
theorem HoldsCode.recordLeaves_leaf {cells : Memory Node} {k : Nat} {r : Node} (h : HoldsCode s b [])
    (hm : MemoriesOk s) (hrising : Memory.rising cells) (hmem : (k, r) ∈ cells) (hleaf : (r.valid && r.leaf) = true)
    (hsym : r.sym = b) (hunique : ∀ k' r', (k', r') ∈ cells → (r'.valid && r'.leaf) = true → r'.sym = b → k' = k)
    (hpath : (path s k).length ≤ 255) : HoldsCode (recordLeaves s cells) b (path s k) := by
  induction cells generalizing s with
  | nil => cases hmem
  | cons cell cells ih =>
    obtain ⟨k', r'⟩ := cell
    obtain ⟨hbelow, hrising'⟩ := List.pairwise_cons.1 hrising
    have hunique' : ∀ k' r', (k', r') ∈ cells → (r'.valid && r'.leaf) = true → r'.sym = b → k' = k :=
      fun k' r' hmem' => hunique k' r' (List.mem_cons_of_mem _ hmem')
    by_cases hhere : (r'.valid && r'.leaf) = true ∧ r'.sym = b
    · obtain ⟨hleaf', rfl⟩ := hhere
      obtain rfl := hunique k' r' List.mem_cons_self hleaf' rfl
      rw [recordLeaves, if_pos hleaf']
      refine (h.recordCode_same hm hpath).recordLeaves_other (hm.recordCode _ _) fun k2 r2 hmem2 hleaf2 hsym2 => ?_
      exact absurd (hunique' k2 r2 hmem2 hleaf2 hsym2) (hbelow _ hmem2).ne'
    · have hmem' : (k, r) ∈ cells := by
        refine (List.mem_cons.1 hmem).resolve_left fun heq => hhere ?_
        cases heq
        exact ⟨hleaf, hsym⟩
      rw [recordLeaves]
      split_ifs with hleaf'
      · have hne : b ≠ r'.sym := fun heq => hhere ⟨hleaf', heq.symm⟩
        exact ih (h.recordCode_of_ne hm hne) (hm.recordCode _ _) hrising' hmem' hunique' hpath
      · exact ih h hm hrising' hmem' hunique' hpath

end Sys2Proof.Machine
end

section
/-! PROOFS. The leaves and the paths of a tree (R83, R88, R89). -/

namespace Sys2Proof.Machine

variable {s : State}

/-- In a rising memory each listed cell is the one found at its index. -/
theorem Memory.cell?_of_mem {α : Type} {m : Memory α} (hm : Memory.rising m) {k : Nat} {v : α} (h : (k, v) ∈ m) :
    Memory.cell? m k = some v := by
  induction m with
  | nil => cases h
  | cons c m ih =>
    obtain ⟨a, w⟩ := c
    obtain ⟨hbelow, hm'⟩ := List.pairwise_cons.1 hm
    rw [Memory.cell?_cons]
    obtain heq | hmem := List.mem_cons.1 h
    · cases heq
      rw [if_pos rfl]
    · rw [if_neg (hbelow _ hmem).ne, ih hm' hmem]

theorem nodeAt_of_mem (hm : MemoriesOk s) {k : Nat} {r : Node} (h : (k, r) ∈ s.node) : nodeAt s k = r := by
  rw [nodeAt, recordAt, Memory.read, Memory.cell?_of_mem hm.node.1.1 h]
  rfl

theorem mem_of_nodeAt_ne_zero {k : Nat} (h : nodeAt s k ≠ Node.zero) : (k, nodeAt s k) ∈ s.node := by
  unfold nodeAt recordAt Memory.read at *
  cases hcell : Memory.cell? s.node k with
  | none => simp [hcell] at h
  | some r => exact Memory.mem_of_cell? s.node k r hcell

/-- The parent R88 climbs to is a parent. -/
theorem parentOf_eq_some {cells : Memory Node} {k m : Nat} {bit : Bool} (h : parentOf k cells = some (m, bit)) :
    ∃ r, (m, r) ∈ cells ∧ r.valid = true ∧ r.leaf = false ∧ (r.left.toNat = k ∨ r.right.toNat = k) := by
  induction cells with
  | nil => cases h
  | cons cell cells ih =>
    obtain ⟨m', r'⟩ := cell
    rw [parentOf] at h
    split_ifs at h with hleft hright
    · cases h
      simp only [Bool.and_eq_true, Bool.not_eq_true', beq_iff_eq] at hleft
      obtain ⟨⟨hvalid, hinner⟩, hchild⟩ := hleft
      exact ⟨r', List.mem_cons_self, hvalid, hinner, .inl hchild⟩
    · cases h
      simp only [Bool.and_eq_true, Bool.not_eq_true', beq_iff_eq] at hright
      obtain ⟨⟨hvalid, hinner⟩, hchild⟩ := hright
      exact ⟨r', List.mem_cons_self, hvalid, hinner, .inr hchild⟩
    · obtain ⟨r, hmem, hr⟩ := ih h
      exact ⟨r, List.mem_cons_of_mem _ hmem, hr⟩

theorem isParent_of_parentOf (hm : MemoriesOk s) {k m : Nat} {bit : Bool} (h : parentOf k s.node = some (m, bit)) :
    IsParent s m k := by
  obtain ⟨r, hmem, hr⟩ := parentOf_eq_some h
  rwa [IsParent, nodeAt_of_mem hm hmem]

theorem TreeOk.isParent_bounds (h : TreeOk s) {m k : Nat} (hp : IsParent s m k) :
    nsym s ≤ m ∧ m < 2 * nsym s - 1 ∧ k < m :=
  Machine.isParent_bounds (fun k hk => by rw [h.leaves k hk]; rfl) h.inner h.rest hp

/-- A climb passes internal nodes of rising index alone, so it ends within `n − 1` steps (R89). -/
theorem TreeOk.length_pathOf_le (h : TreeOk s) (hm : MemoriesOk s) (root fuel k : Nat) :
    (pathOf s.node root fuel k).length ≤ 2 * nsym s - 2 - max k (nsym s - 1) := by
  induction fuel generalizing k with
  | zero => exact Nat.zero_le _
  | succ fuel ih =>
    rw [pathOf]
    split_ifs
    · exact Nat.zero_le _
    · split
      · exact Nat.zero_le _
      · rename_i m bit hparent
        obtain ⟨hn, hlast, hk⟩ := h.isParent_bounds (isParent_of_parentOf hm hparent)
        have hm := ih m
        rw [List.length_append, List.length_singleton]
        omega

/-- R89: a path has at most `n − 1` steps. -/
theorem TreeOk.length_path_le (h : TreeOk s) (hm : MemoriesOk s) (k : Nat) : (path s k).length ≤ nsym s - 1 := by
  have hle := h.length_pathOf_le hm s.root.toNat Config.nNode k
  rw [path]
  omega

/-- The leaves are the records below `n`, one a symbol (R77). -/
theorem TreeOk.leaf_cell (h : TreeOk s) (hm : MemoriesOk s) {k : Nat} {r : Node} (hmem : (k, r) ∈ s.node)
    (hleaf : (r.valid && r.leaf) = true) : ∃ hk : k < nsym s, r.sym = (symbols s)[k]'hk := by
  obtain ⟨hvalid, hleaf⟩ := Bool.and_eq_true_iff.1 hleaf
  have hr := nodeAt_of_mem hm hmem
  have hk : k < nsym s := by
    by_contra hge
    by_cases hlast : k < 2 * nsym s - 1
    · have hinner := (h.inner k (Nat.not_lt.1 hge) hlast).inner
      simp [hr, hleaf] at hinner
    · have hzero := h.rest k (Nat.not_lt.1 hlast)
      simp [← hr, hzero, Node.zero] at hvalid
  refine ⟨hk, ?_⟩
  rw [← hr, h.leaves k hk]
  rfl

/-- Only the tree of one symbol has a leaf as its root (R81). -/
theorem TreeOk.leaf_root_iff (h : TreeOk s) : (nodeAt s s.root.toNat).leaf = true ↔ nsym s = 1 := by
  have hpos := h.size
  rw [h.root]
  by_cases hone : nsym s = 1
  · refine iff_of_true ?_ hone
    rw [h.leaves (2 * nsym s - 2) (by omega)]
    rfl
  · refine iff_of_false ?_ hone
    simp [(h.inner (2 * nsym s - 2) (by omega) (by omega)).inner]

end Sys2Proof.Machine
end

section
/-! PROOFS. DERIVE writes the tree's code book (R87 to R89). -/

namespace Sys2Proof.Machine

variable {s t : State}

theorem leafCode_of_one (h : nsym s = 1) (k : Nat) : leafCode s k = [false] := if_pos h

theorem leafCode_of_ne_one (h : nsym s ≠ 1) (k : Nat) : leafCode s k = path s k := if_neg h

/-- A code book from what each byte holds, in a state with the same counts and the same tree. -/
theorem bookOk_of_holdsCode (hf : t.freq = s.freq) (hn : t.node = s.node) (hr : t.root = s.root)
    (hcodes : ∀ k, (h : k < nsym s) → HoldsCode t ((symbols s)[k]'h) (leafCode s k))
    (habsent : ∀ b, freqAt s b = 0 → HoldsCode t b []) : BookOk t := by
  have hall : ∀ b, ∃ p, HoldsCode t b p := fun b => by
    by_cases hb : freqAt s b = 0
    · exact ⟨_, habsent b hb⟩
    · obtain ⟨k, hk, rfl⟩ := List.getElem_of_mem ((mem_symbols b).2 hb)
      exact ⟨_, hcodes k hk⟩
  have htail : ∀ b i, (clenAt t b).toNat ≤ i → (cbitsAt t b).getLsbD i = false := fun b i hi => by
    obtain ⟨p, hp⟩ := hall b
    exact hp.tail hi
  cases s; cases t
  simp only at hf hn hr
  subst hf hn hr
  exact ⟨fun k hk => (hcodes k hk).codeOf_eq, fun b hb => (habsent b hb).eq_zero, htail⟩

/-- The code "0" of the only symbol (R89). -/
theorem bookOk_recordCode (hm : MemoriesOk s) (htree : TreeOk s) (hnew : ∀ b, HoldsCode s b []) (hone : nsym s = 1) :
    BookOk (recordCode (nodeAt s s.root.toNat).sym [false] s) := by
  have hroot : (nodeAt s s.root.toNat).sym = (symbols s)[0]'htree.size := by
    rw [htree.root, show 2 * nsym s - 2 = 0 by omega, htree.leaves 0 htree.size]
    rfl
  rw [hroot]
  refine bookOk_of_holdsCode (s := s) rfl rfl rfl (fun k hk => ?_) fun b hb => ?_
  · obtain rfl : k = 0 := by omega
    rw [leafCode_of_one hone]
    exact (hnew _).recordCode_same hm (by decide)
  · refine (hnew b).recordCode_of_ne hm ?_
    rintro rfl
    exact (mem_symbols _).1 (List.getElem_mem _) hb

/-- The paths of the leaves of a tree of two or more (R88). -/
theorem bookOk_recordLeaves (hm : MemoriesOk s) (htree : TreeOk s) (hnew : ∀ b, HoldsCode s b []) (hone : nsym s ≠ 1) :
    BookOk (recordLeaves s s.node) := by
  obtain ⟨hfreq, hnode, hroot⟩ : (recordLeaves s s.node).freq = s.freq ∧ (recordLeaves s s.node).node = s.node ∧
      (recordLeaves s s.node).root = s.root := by
    rw [recordLeaves_frame]
    exact ⟨rfl, rfl, rfl⟩
  refine bookOk_of_holdsCode hfreq hnode hroot (fun k hk => ?codes) fun b hb => ?absent
  case codes =>
    have hleaf := htree.leaves k hk
    have hmem : (k, nodeAt s k) ∈ s.node :=
      mem_of_nodeAt_ne_zero (by rw [hleaf]; exact fun h => absurd (congrArg Node.valid h) nofun)
    have hpath : (path s k).length ≤ 255 := by
      have hle := htree.length_path_le hm k
      have hn := nsym_le s
      omega
    rw [leafCode_of_ne_one hone]
    refine (hnew _).recordLeaves_leaf hm hm.node.1.1 hmem (by rw [hleaf]; rfl) (by rw [hleaf]; rfl) ?_ hpath
    intro k' r' hmem' hleaf' hsym
    obtain ⟨hk', hsym'⟩ := htree.leaf_cell hm hmem' hleaf'
    exact (nodup_symbols s).getElem_inj_iff.1 (hsym'.symm.trans hsym)
  case absent =>
    refine (hnew b).recordLeaves_other hm fun k r hmem hleaf hsym => ?_
    obtain ⟨hk, hsym'⟩ := htree.leaf_cell hm hmem hleaf
    exact (mem_symbols b).1 (by rw [← hsym, hsym']; exact List.getElem_mem _) hb

/-- R87 to R89: DERIVE in PHASE BUILT writes the code book of the tree. -/
theorem bookOk_derive (hm : MemoriesOk s) (hs : StagesOk s) (htree : TreeOk s) (hphase : s.phase = .built)
    (ht : execDerive s = .next t) : BookOk t := by
  obtain ⟨hclen, hcbits⟩ := hs.noBook (by simp [hphase])
  have hnew := holdsCode_nil hclen hcbits
  obtain ⟨hbuilt, -⟩ | ⟨-, hleaf, rfl⟩ | ⟨-, hinner, rfl⟩ := execDerive_cases ht
  · exact absurd hphase hbuilt
  · exact (bookOk_recordCode hm htree hnew (htree.leaf_root_iff.1 hleaf)).congr rfl rfl rfl rfl rfl
  · have hone : nsym s ≠ 1 := fun h => by simp [htree.leaf_root_iff.2 h] at hinner
    exact (bookOk_recordLeaves hm htree hnew hone).congr rfl rfl rfl rfl rfl

end Sys2Proof.Machine
end

section
/-! PROOFS. Every step keeps the whole invariant (R41, R72, R83, R89). -/

namespace Sys2Proof.Machine

variable {s t : State}

/-- A command other than BUILD and DERIVE that ends with a tree in place has left PHASE and every table as they were. -/
theorem exec_keeps_tables {i : Instr} (ht : exec i s = .next t) (hlate : t.phase = .built ∨ t.phase = .ready)
    (hbuild : i ≠ .build) (hderive : i ≠ .derive) :
    t.phase = s.phase ∧ (t.freq = s.freq ∧ t.total = s.total) ∧ (t.node = s.node ∧ t.root = s.root) ∧
      t.clen = s.clen ∧ t.cbits = s.cbits := by
  cases i
  case build => exact absurd rfl hbuild
  case derive => exact absurd rfl hderive
  case reset => cases ht; exact absurd hlate (by simp)
  case collect b =>
    obtain ⟨-, rfl⟩ | ⟨-, -, rfl⟩ | ⟨-, -, rfl⟩ := execCollect_cases ht
    · exact ⟨rfl, ⟨rfl, rfl⟩, ⟨rfl, rfl⟩, rfl, rfl⟩
    · exact ⟨rfl, ⟨rfl, rfl⟩, ⟨rfl, rfl⟩, rfl, rfl⟩
    · exact absurd hlate (by simp)
  all_goals
    rw [exec_frame ht]
    exact ⟨rfl, ⟨rfl, rfl⟩, ⟨rfl, rfl⟩, rfl, rfl⟩

/-- After a command, a tree stands in PHASE BUILT and READY: BUILD's new one, or the one that stood before. -/
theorem Inv.exec_tree (h : Inv s) {i : Instr} (ht : exec i s = .next t) (hlate : t.phase = .built ∨ t.phase = .ready) :
    TreeOk t := by
  by_cases hbuild : i = .build
  · subst hbuild
    obtain ⟨-, rfl⟩ | ⟨-, rfl⟩ | ⟨hcollect, rfl⟩ := execBuild_cases ht
    · exact (h.tree hlate).congr rfl rfl rfl rfl
    · exact (h.tree hlate).congr rfl rfl rfl rfl
    · exact (treeOk_build h.memories h.counts h.stages hcollect).congr rfl rfl rfl rfl
  by_cases hderive : i = .derive
  · subst hderive
    have hbuilt : s.phase = .built ∨ s.phase = .ready := by
      obtain ⟨-, rfl⟩ | ⟨hbuilt, -, -⟩ | ⟨hbuilt, -, -⟩ := execDerive_cases ht
      exacts [hlate, .inl hbuilt, .inl hbuilt]
    obtain ⟨hfreq, htotal⟩ := exec_keeps_counts ht nofun nofun
    obtain ⟨hnode, hroot⟩ := exec_keeps_tree ht nofun nofun
    exact (h.tree hbuilt).congr hfreq hnode hroot htotal
  · obtain ⟨hphase, ⟨hfreq, htotal⟩, ⟨hnode, hroot⟩, -, -⟩ := exec_keeps_tables ht hlate hbuild hderive
    exact (h.tree (hphase ▸ hlate)).congr hfreq hnode hroot htotal

/-- After a command, a code book stands in PHASE READY: DERIVE's new one, or the one that stood before. -/
theorem Inv.exec_book (h : Inv s) {i : Instr} (ht : exec i s = .next t) (hready : t.phase = .ready) : BookOk t := by
  by_cases hbuild : i = .build
  · subst hbuild
    obtain ⟨-, rfl⟩ | ⟨-, rfl⟩ | ⟨-, rfl⟩ := execBuild_cases ht
    · exact (h.book hready).congr rfl rfl rfl rfl rfl
    · exact (h.book hready).congr rfl rfl rfl rfl rfl
    · exact absurd hready (by simp)
  by_cases hderive : i = .derive
  · subst hderive
    by_cases hbuilt : s.phase = .built
    · exact bookOk_derive h.memories h.stages (h.tree (.inl hbuilt)) hbuilt ht
    · obtain ⟨-, rfl⟩ | ⟨hphase, -, -⟩ | ⟨hphase, -, -⟩ := execDerive_cases ht
      · exact (h.book hready).congr rfl rfl rfl rfl rfl
      · exact absurd hphase hbuilt
      · exact absurd hphase hbuilt
  · obtain ⟨hphase, ⟨hfreq, -⟩, ⟨hnode, hroot⟩, hclen, hcbits⟩ :=
      exec_keeps_tables ht (.inr hready) hbuild hderive
    exact (h.book (hphase ▸ hready)).congr hfreq hnode hroot hclen hcbits

theorem Inv.advance (h : Inv s) : Inv (advance s) where
  memories := h.memories.advance
  outcome := h.outcome.advance
  outputs := h.outputs.advance
  counts := h.counts.advance
  stages := h.stages.advance
  tree hlate := (h.tree hlate).congr rfl rfl rfl rfl
  book hready := (h.book hready).congr rfl rfl rfl rfl rfl

/-- After a step a tree and a code book stand where their phase asks for them. -/
theorem Inv.step_tables (h : Inv s) (ht : step s = .next t) :
    (t.phase = .built ∨ t.phase = .ready → TreeOk t) ∧ (t.phase = .ready → BookOk t) := by
  obtain ⟨i, -, -, hexec⟩ | ⟨w, -, -, rfl⟩ | ⟨-, rfl⟩ | ⟨-, -, hsame⟩ := step_results ht
  · exact ⟨h.advance.exec_tree hexec, h.advance.exec_book hexec⟩
  · exact ⟨fun hlate => (h.tree hlate).congr rfl rfl rfl rfl, fun hready => (h.book hready).congr rfl rfl rfl rfl rfl⟩
  · exact ⟨fun hlate => absurd hlate (by simp), nofun⟩
  · refine ⟨fun hlate => ?_, fun hready => ?_⟩
    · exact (h.tree (hsame.phase ▸ hlate)).congr hsame.freq hsame.node hsame.root hsame.total
    · exact (h.book (hsame.phase ▸ hready)).congr hsame.freq hsame.node hsame.root hsame.clen hsame.cbits

/-- Settles O59: O56, O57 and O58 give the first five parts, and `Inv.step_tables` the tree and the code book. -/
theorem everyStepKeepsTheInvariant : Obligations.EveryStepKeepsTheInvariant := by
  intro s t h ht
  obtain ⟨houtcome, houtputs⟩ := everyStepKeepsTheOutputs s t h.memories h.outcome h.outputs ht
  obtain ⟨hcounts, hstages⟩ := everyStepKeepsTheCounts s t h.memories h.counts h.stages ht
  obtain ⟨htree, hbook⟩ := h.step_tables ht
  exact ⟨everyStepKeepsTheMemories s t h.memories ht, houtcome, houtputs, hcounts, hstages, htree, hbook⟩

end Sys2Proof.Machine
end

section
/-! PROOFS. A step by its event, and the bus transactions that reach no register (R44 to R46, R56, R136, R137). -/

namespace Sys2Proof.Machine

variable {s : State}

/-! ## The step by its event -/

theorem step_engine (h : nextEvent s = .engine) : step s = engineTurn (advance s) := by simp only [step, h]

theorem step_read {a : BitVec 8} (h : nextEvent s = .read a) : step s = .next (busRead a (advance s)) := by
  simp only [step, h]

theorem step_write {a : BitVec 8} {v : Word} (h : nextEvent s = .write a v) :
    step s = .next (busWrite a v (advance s)) := by
  simp only [step, h]

theorem engineTurn_idle (h : s.pend = none) : engineTurn s = .next s := by simp only [engineTurn, h]

theorem engineTurn_command {w : Word} {i : Instr} (h : s.pend = some w) (hdecode : decode w = .ok i) :
    engineTurn s = exec i s := by
  simp only [engineTurn, h, hdecode]

theorem engineTurn_illegal {w : Word} {e : IllegalWord} (h : s.pend = some w) (hdecode : decode w = .error e) :
    engineTurn s = .next (completeIllegal w s) := by
  simp only [engineTurn, h, hdecode]

/-- Settles O4: one equation of `step` an event, and one of the engine's turn a content of PEND. -/
theorem stepPerformsTheNextEvent : Obligations.StepPerformsTheNextEvent := by
  rintro s _ rfl
  exact ⟨fun w i he hpend hdecode => (step_engine he).trans (engineTurn_command hpend hdecode),
    fun w e he hpend hdecode => (step_engine he).trans (engineTurn_illegal hpend hdecode),
    fun he hpend => (step_engine he).trans (engineTurn_idle hpend),
    fun a he => step_read he, fun a v he => step_write he, step_hardReset⟩

/-! ## Transactions that reach no register -/

theorem busRead_misaligned {a : BitVec 8} (h : aligned a = false) (s : State) :
    busRead a s = respond (.read 0 true) s := if_pos h

theorem busWrite_misaligned {a : BitVec 8} (h : aligned a = false) (v : Word) (s : State) :
    busWrite a v s = respond (.write true) s := if_pos h

/-- Settles O39. -/
theorem misalignedAccessIsRefused : Obligations.MisalignedAccessIsRefused := by
  intro s a v h
  have ha : aligned a = false := by simpa [aligned] using h
  exact ⟨busRead_misaligned ha s, busWrite_misaligned ha v s⟩

/-- No register stands from 0x44 on (R14). -/
theorem regAt_eq_none {a : BitVec 8} (h : 0x44 ≤ a.toNat) : regAt a = none := by
  by_contra hne
  obtain ⟨r, hr⟩ := Option.ne_none_iff_exists'.1 hne
  have hbelow : (offsetOf r).toNat < 0x44 := by cases r <;> decide
  rw [eq_offsetOf_of_regAt hr] at h
  omega

/-- An aligned write that no register takes sets HAZ while BUSY, and nothing else (R45, R46, R136). -/
theorem busWrite_ignored {a : BitVec 8} (ha : aligned a = true) (v : Word) (s : State)
    (hkeep : ∀ r, regAt a = some r → writeEffect v s r = s) :
    busWrite a v s = { s with haz := s.haz || busy s, rsp := some (.write false) } := by
  obtain ⟨hmis, -⟩ | ⟨-, hbusy, hwrite⟩ | ⟨-, hidle, -, hwrite⟩ | ⟨r, -, hidle, hr, hwrite⟩ := busWrite_cases a v s
  · simp [ha] at hmis
  · simp [hwrite, hbusy, respond]
  · simp [hwrite, hidle, respond]
  · simp [hwrite, hkeep r hr, hidle, respond]

/-- Settles O40: at a reserved offset no register stands to answer a read or to take a write. -/
theorem reservedOffsetsReadZero : Obligations.ReservedOffsetsReadZero := by
  intro s a v hmod hge
  have ha : aligned a = true := (aligned_iff a).2 hmod
  have hnone := regAt_eq_none hge
  exact ⟨by simp [busRead, ha, hnone, respond], busWrite_ignored ha v s (by simp [hnone])⟩

/-! ## Error flags -/

/-- An aligned read gives error flag 0, busy or not (R45, R46). -/
theorem busRead_rsp {a : BitVec 8} (ha : aligned a = true) (s : State) :
    ∃ d, (busRead a s).rsp = some (.read d false) := by
  obtain ⟨hmis, -⟩ | ⟨-, -, hread⟩ | ⟨r, -, -, -, -, hread⟩ | ⟨r, -, -, -, hread⟩ := busRead_cases a s
  · simp [ha] at hmis
  all_goals exact ⟨_, by rw [hread]; rfl⟩

/-- An aligned write gives error flag 0, busy or not (R45, R46, R136). -/
theorem busWrite_rsp {a : BitVec 8} (ha : aligned a = true) (v : Word) (s : State) :
    (busWrite a v s).rsp = some (.write false) := by
  obtain ⟨hmis, -⟩ | ⟨-, -, hwrite⟩ | ⟨-, -, -, hwrite⟩ | ⟨r, -, -, -, hwrite⟩ := busWrite_cases a v s
  · simp [ha] at hmis
  all_goals rw [hwrite]; rfl

/-- Settles O41: a read-only register's write has no effect to perform, and every mapped offset is aligned. -/
theorem readOnlyRegistersIgnoreWrites : Obligations.ReadOnlyRegistersIgnoreWrites := by
  intro s v
  refine ⟨fun r hr => ?readOnly, busRead_readable (r := .cmd) rfl s, fun r => ⟨?write, ?read⟩⟩
  case readOnly =>
    obtain ⟨hreg, haligned⟩ := regAt_offsetOf r
    refine busWrite_ignored haligned v s fun r' hr' => ?_
    obtain rfl : r = r' := Option.some.inj (hreg.symm.trans hr')
    fin_cases hr <;> rfl
  case write => exact busWrite_rsp (regAt_offsetOf r).2 v s
  case read => exact busRead_rsp (regAt_offsetOf r).2 s

end Sys2Proof.Machine
end

section
/-! PROOFS. The window: the words it shows, and what an MDATA access does (R49 to R54). -/

namespace Sys2Proof.Machine

variable {s : State}

/-! ## The words of the window -/

/-- The bits of a record's first word (R52). -/
theorem getLsbD_nodeWord0 (r : Node) (i : Nat) :
    (nodeWord0 r).getLsbD i =
      if i < 8 then r.sym.getLsbD i else if i < 17 then r.left.getLsbD (i - 8)
      else if i < 26 then r.right.getLsbD (i - 17) else if i < 30 then false
      else if i = 30 then r.leaf else decide (i = 31) && r.valid := by
  simp only [nodeWord0, BitVec.getLsbD_append, Nat.sub_sub, BitVec.getLsbD_ofBool, BitVec.getLsbD_zero]
  obtain h | h | h | h | rfl | h :
    i < 8 ∨ (8 ≤ i ∧ i < 17) ∨ (17 ≤ i ∧ i < 26) ∨ (26 ≤ i ∧ i < 30) ∨ i = 30 ∨ 30 < i := by omega
  · simp [h]
  · simp [h, show ¬ i < 8 by omega, show i - 8 < 9 by omega]
  · simp [h, show ¬ i < 8 by omega, show ¬ i - 8 < 9 by omega, show ¬ i < 17 by omega, show i - 17 < 9 by omega]
  · simp [h, show ¬ i < 8 by omega, show ¬ i - 8 < 9 by omega, show ¬ i < 17 by omega, show ¬ i - 17 < 9 by omega,
      show ¬ i < 26 by omega, show i - 26 < 4 by omega]
  · simp
  · simp [show ¬ i < 8 by omega, show ¬ i - 8 < 9 by omega, show ¬ i < 17 by omega, show ¬ i - 17 < 9 by omega,
      show ¬ i < 26 by omega, show ¬ i - 26 < 4 by omega, show ¬ i - 30 < 1 by omega, show ¬ i < 30 by omega,
      show i ≠ 30 by omega, show i - 31 = 0 ↔ i = 31 by omega]

/-- The fields of a record's first word (R52). -/
theorem nodeWord0_fields (r : Node) :
    (nodeWord0 r).getLsbD 31 = r.valid ∧ (nodeWord0 r).getLsbD 30 = r.leaf ∧ (nodeWord0 r).extractLsb' 26 4 = 0 ∧
    (nodeWord0 r).extractLsb' 17 9 = r.right ∧ (nodeWord0 r).extractLsb' 8 9 = r.left ∧
    (nodeWord0 r).extractLsb' 0 8 = r.sym := by
  refine ⟨(getLsbD_nodeWord0 r 31).trans (by simp), getLsbD_nodeWord0 r 30, ?zeros, ?right, ?left, ?sym⟩
  all_goals
    apply BitVec.eq_of_getLsbD_eq
    intro i hi
    rw [BitVec.getLsbD_extractLsb', getLsbD_nodeWord0]
  case zeros =>
    simp [hi, show ¬ 26 + i < 8 by omega, show ¬ 26 + i < 17 by omega, show 26 + i < 30 by omega]
  case right => simp [hi, show ¬ 17 + i < 8 by omega, show 17 + i < 26 by omega]
  case left => simp [hi, show 8 + i < 17 by omega]
  case sym => simp [hi]

/-- A packed byte sequence is 0 from its last word on (R52). -/
theorem packBytes_byteBelow (cap : Nat) (f : Nat → Byte) (k : Nat) :
    (if k < (cap + 3) / 4 then packBytes (byteBelow cap f) k else 0) = packBytes (byteBelow cap f) k := by
  split
  · rfl
  · have hzero : ∀ t, byteBelow cap f (4 * k + t) = 0 := fun t => if_neg (by omega)
    have hzero' : byteBelow cap f (4 * k) = 0 := hzero 0
    simp only [packBytes, hzero, hzero']
    rfl

/-- A packed bit sequence is 0 from its last word on (R52). -/
theorem packBits_bitBelow (cap : Nat) (f : Nat → Bool) (k : Nat) :
    (if k < (cap + 31) / 32 then packBits (bitBelow cap f) k else 0) = packBits (bitBelow cap f) k := by
  split
  · rfl
  · apply BitVec.eq_of_getLsbD_eq
    intro t ht
    rw [getLsbD_packBits, bitBelow, decide_eq_false (p := 32 * k + t < cap) (by omega)]
    simp
    
/-- Byte `t` of a window word onto a byte buffer (R53). -/
theorem extractLsb'_packBytes_byteBelow (cap : Nat) (f : Nat → Byte) (k : Nat) {t : Nat} (ht : t < 4) :
    (packBytes (byteBelow cap f) k).extractLsb' (8 * t) 8 = if 4 * k + t < cap then f (4 * k + t) else 0 :=
  byteOfWord_packBytes (byteBelow cap f) k t ht

/-- Bit `t` of a window word onto a bit buffer (R54). -/
theorem getLsbD_packBits_bitBelow (cap : Nat) (f : Nat → Bool) (k : Nat) {t : Nat} (ht : t < 32) :
    (packBits (bitBelow cap f) k).getLsbD t = (decide (32 * k + t < cap) && f (32 * k + t)) := by
  rw [getLsbD_packBits, decide_eq_true ht, bitBelow, Bool.true_and]

theorem windowWord_reserved (s : State) {sel : BitVec 4} (h : 8 ≤ sel.toNat) (k : Nat) : windowWord s sel k = 0 := by
  have hwords : windowWords s.params sel = 0 := by
    unfold windowWords
    split <;> omega
  simp [windowWord, hwords]

/-- The words of the record memory: a record's first word and its count, in turn (R52). -/
theorem windowWord_node (s : State) {k : Nat} (h : k < 511) :
    windowWord s 1 (2 * k) = nodeWord0 (nodeAt s k) ∧ windowWord s 1 (2 * k + 1) = (nodeAt s k).f := by
  constructor
  · calc windowWord s 1 (2 * k)
      _ = windowElement s 1 (2 * k) := if_pos (show 2 * k < 1022 by omega)
      _ = nodeWord0 (nodeAt s (2 * k / 2)) := if_pos (show 2 * k % 2 = 0 by omega)
      _ = nodeWord0 (nodeAt s k) := by rw [Nat.mul_div_cancel_left k (by decide)]
  · calc windowWord s 1 (2 * k + 1)
      _ = windowElement s 1 (2 * k + 1) := if_pos (show 2 * k + 1 < 1022 by omega)
      _ = (nodeAt s (2 * k / 2)).f := if_neg (show ¬ (2 * k + 1) % 2 = 0 by omega)
      _ = (nodeAt s k).f := by rw [Nat.mul_div_cancel_left k (by decide)]

/-- Settles O44: each memory's words are its elements packed, and the packing is 0 beyond the end. -/
theorem windowMapLayout : Obligations.WindowMapLayout := by
  intro s k
  have hwbuf : windowWord s 4 k = packBytes (byteBelow s.params.maxWord (wbufAt s)) k := packBytes_byteBelow _ _ _
  have hobuf : windowWord s 5 k = packBits (bitBelow s.params.maxBits (obufAt s)) k := packBits_bitBelow _ _ _
  have hibuf : windowWord s 6 k = packBits (bitBelow s.params.maxBits (ibufAt s)) k := packBits_bitBelow _ _ _
  have hdbuf : windowWord s 7 k = packBytes (byteBelow s.params.maxBits (dbufAt s)) k := packBytes_byteBelow _ _ _
  refine ⟨rfl, fun hk => ?node, fun hk => if_neg (Nat.not_lt.2 hk), ?clen, fun t ht => ?cbits,
    fun t ht => by rw [hwbuf, extractLsb'_packBytes_byteBelow _ _ _ ht],
    fun t ht => by rw [hobuf, getLsbD_packBits_bitBelow _ _ _ ht],
    fun t ht => by rw [hibuf, getLsbD_packBits_bitBelow _ _ _ ht],
    fun t ht => by rw [hdbuf, extractLsb'_packBytes_byteBelow _ _ _ ht],
    fun sel hsel => windowWord_reserved s hsel k⟩
  case node =>
    obtain ⟨hfirst, hcount⟩ := windowWord_node s hk
    obtain ⟨hvalid, hleaf, hzeros, hright, hleft, hsym⟩ := nodeWord0_fields (nodeAt s k)
    rw [hfirst]
    exact ⟨hvalid, hleaf, hzeros, hright, hleft, hsym, hcount⟩
  case clen => rw [zero_append_eq_setWidth]; rfl
  case cbits =>
    have hword : windowWord s 3 k =
        if k < 2048 then (cbitsAt s (BitVec.ofNat 8 (k / 8))).extractLsb' (32 * (k % 8)) 32 else 0 := rfl
    rw [hword]
    by_cases hk : k < 2048 <;> simp [hk, ht]

/-! ## MDATA -/

/-- Element `j` of a host-written buffer after `n` elements `g 0, g 1, …` are put from `k` on, below its capacity
(R51). -/
theorem getD_cell?_putList {α : Type} (cap : Nat) (m : Memory α) (k n : Nat) (g : Nat → α) (j : Nat) (z : α) :
    (Memory.cell? (Memory.putList cap m k ((List.range n).map g)) j).getD z =
      if k ≤ j ∧ j < k + n ∧ j < cap then g (j - k) else (Memory.cell? m j).getD z := by
  rw [Memory.cell?_putList, List.length_map, List.length_range]
  split
  · rw [List.getElem?_map, List.getElem?_range (by omega)]
    rfl
  · rfl

/-- WBUF after the store of an MDATA write (R51). -/
theorem wbufAt_storeWindow (v : Word) (s : State) (j : Nat) :
    wbufAt (storeWindow v s) j =
      if s.msel = 4 ∧ 4 * s.maddr.toNat ≤ j ∧ j < 4 * s.maddr.toNat + 4 ∧ j < s.params.maxWord
      then byteOfWord v (j - 4 * s.maddr.toNat) else wbufAt s j := by
  obtain ⟨hsel, hstore⟩ | ⟨hsel, hstore⟩ | ⟨hsel, -, hstore⟩ := storeWindow_cases v s <;> rw [hstore]
  · simp only [wbufAt, bytesOfWord, hsel, true_and]
    exact getD_cell?_putList ..
  · simp [wbufAt, hsel]
  · exact (if_neg fun h => hsel h.1).symm

/-- IBUF after the store of an MDATA write (R51). -/
theorem ibufAt_storeWindow (v : Word) (s : State) (i : Nat) :
    ibufAt (storeWindow v s) i =
      if s.msel = 6 ∧ 32 * s.maddr.toNat ≤ i ∧ i < 32 * s.maddr.toNat + 32 ∧ i < s.params.maxBits
      then v.getLsbD (i - 32 * s.maddr.toNat) else ibufAt s i := by
  obtain ⟨hsel, hstore⟩ | ⟨hsel, hstore⟩ | ⟨-, hsel, hstore⟩ := storeWindow_cases v s <;> rw [hstore]
  · simp [ibufAt, hsel]
  · simp only [ibufAt, bitsOfWord, hsel, true_and]
    exact getD_cell?_putList ..
  · exact (if_neg fun h => hsel h.1).symm

theorem busy_of_pend (h : s.pend ≠ none) : busy s = true := Option.isSome_iff_ne_none.2 h

/-- While BUSY a result register reads a free value (R137). -/
theorem busRead_busy {r : Reg} (hr : readableWhileBusy r = false) (h : s.pend ≠ none) :
    busRead (offsetOf r) s = busyResultRead s := by
  obtain ⟨hreg, haligned⟩ := regAt_offsetOf r
  simp [busRead, hreg, haligned, busy_of_pend h, hr]

/-- While BUSY every aligned write is dropped and sets HAZ (R136). -/
theorem busWrite_busy {a : BitVec 8} (ha : aligned a = true) (h : s.pend ≠ none) (v : Word) :
    busWrite a v s = respond (.write false) { s with haz := true } := by
  simp [busWrite, ha, busy_of_pend h]

/-- Settles O43: an MDATA access is the window's, with `wbufAt_storeWindow` and `ibufAt_storeWindow` for the buffers. -/
theorem windowAccessMovesTheAddress : Obligations.WindowAccessMovesTheAddress := by
  refine fun s v => ⟨fun h => ⟨busRead_idle h .mdata, _, busWrite_idle h .mdata v, ?frame, ?wbuf, ?ibuf⟩,
    fun h => ⟨busRead_busy (r := .mdata) rfl h, busWrite_busy rfl h v⟩⟩
  case frame => rw [writeEffect, storeWindow_frame]; rfl
  case wbuf => exact wbufAt_storeWindow v s
  case ibuf => exact ibufAt_storeWindow v s

end Sys2Proof.Machine
end

section
/-! PROOFS. The load statements of host assembly (R68, R69): a selection, MDATA writes from address 0 on, a length. -/

namespace Sys2Proof.Machine

variable {s : State}

/-! ## Statements in sequence -/

theorem performAll_append (s : State) (p q : List Stmt) : performAll s (p ++ q) = performAll (performAll s p) q := by
  induction p generalizing s with
  | nil => rfl
  | cons st p ih =>
    simp only [List.cons_append, performAll]
    split <;> exact ih _

/-- On an idle block `wr` is its register's write. -/
theorem performAll_wr (h : s.pend = none) (r : Reg) (v : Word) :
    performAll s [.wr r v] = respond (.write false) (writeEffect v s r) := by
  have hwrite : performAll s [.wr r v] = respond (.write false) (writeEffect v { s with rsp := none } r) :=
    busWrite_idle (s := { s with rsp := none }) h r v
  rw [hwrite]
  cases r
  case mdata =>
    simp only [writeEffect, storeWindow]
    split <;> rfl
  all_goals rfl

/-- The block with the window at address `a` of memory `sel`, right after a write. -/
def windowAt (sel : BitVec 4) (a : BitVec 16) (s : State) : State :=
  { s with msel := sel, maddr := a, rsp := some (.write false) }

/-- On an idle block `select` moves the window (R69). -/
theorem performAll_select (h : s.pend = none) (m a : Word) :
    performAll s (selectStmts m a) = windowAt (m.setWidth 4) (a.setWidth 16) s := by
  rw [selectStmts, ← List.singleton_append, performAll_append, performAll_wr h]
  exact performAll_wr (s := respond _ (writeEffect m s .msel)) h .maddr a

/-! ## MDATA writes in sequence -/

/-- The MDATA writes of the words `w 0, …, w (n - 1)`. -/
def mdataStmts (w : Nat → Word) (n : Nat) : List Stmt := (List.range n).map (fun k => .wr .mdata (w k))

theorem mdataStmts_succ (w : Nat → Word) (n : Nat) : mdataStmts w (n + 1) = mdataStmts w n ++ [.wr .mdata (w n)] := by
  simp [mdataStmts, List.range_succ]

/-- `n` MDATA writes keep the block idle and the memory selected, and move MADDR by `n` (R49). -/
theorem performAll_mdata_frame (h : s.pend = none) (w : Nat → Word) (n : Nat) :
    (performAll s (mdataStmts w n)).pend = none ∧ (performAll s (mdataStmts w n)).params = s.params ∧
    (performAll s (mdataStmts w n)).msel = s.msel ∧
    (performAll s (mdataStmts w n)).maddr = s.maddr + BitVec.ofNat 16 n := by
  induction n with
  | zero => exact ⟨h, rfl, rfl, (BitVec.add_zero _).symm⟩
  | succ n ih =>
    obtain ⟨hpend, hparams, hmsel, hmaddr⟩ := ih
    rw [mdataStmts_succ, performAll_append, performAll_wr hpend, writeEffect, storeWindow_frame]
    refine ⟨hpend, hparams, hmsel, ?_⟩
    calc (performAll s (mdataStmts w n)).maddr + 1
      _ = s.maddr + BitVec.ofNat 16 n + BitVec.ofNat 16 1 := by rw [hmaddr]; rfl
      _ = s.maddr + BitVec.ofNat 16 (n + 1) := by rw [BitVec.add_assoc, BitVec.ofNat_add]

/-- What one MDATA write does to a buffer with the elements `read` while memory `sel` is selected: it stores the `width`
parts of its word from MADDR on, those below the capacity (R51). -/
def StoresParts {α : Type} (sel : BitVec 4) (width : Nat) (cap : Params → Nat) (read : State → Nat → α)
    (part : Word → Nat → α) : Prop :=
  ∀ (v : Word) (t : State) (j : Nat), t.msel = sel →
    read (respond (.write false) (writeEffect v t .mdata)) j =
      if width * t.maddr.toNat ≤ j ∧ j < width * t.maddr.toNat + width ∧ j < cap t.params
      then part v (j - width * t.maddr.toNat) else read t j

theorem storesParts_wbuf : StoresParts 4 4 Params.maxWord wbufAt byteOfWord := fun v t j hsel =>
  (wbufAt_storeWindow v t j).trans (by simp only [hsel, true_and])

theorem storesParts_ibuf : StoresParts 6 32 Params.maxBits ibufAt BitVec.getLsbD := fun v t i hsel =>
  (ibufAt_storeWindow v t i).trans (by simp only [hsel, true_and])

/-- After `n` MDATA writes from address 0 on, element `j` is part `j mod width` of word `j div width`. -/
theorem StoresParts.read_performAll {α : Type} {width : Nat} {cap : Params → Nat} {read : State → Nat → α}
    {part : Word → Nat → α} (hstores : StoresParts s.msel width cap read part) (h : s.pend = none)
    (hstart : s.maddr = 0) (w : Nat → Word) {n : Nat} (hn : n ≤ 2 ^ 16) {j : Nat} (hj : j < width * n) (hcap : j < cap s.params) :
    read (performAll s (mdataStmts w n)) j = part (w (j / width)) (j % width) := by
  induction n with
  | zero => simp at hj
  | succ n ih =>
    obtain ⟨hpend, hparams, hmsel, hmaddr⟩ := performAll_mdata_frame h w n
    have haddr : (performAll s (mdataStmts w n)).maddr.toNat = n := by
      rw [hmaddr, hstart, show (0 : BitVec 16) = 0#16 from rfl, BitVec.zero_add, BitVec.toNat_ofNat,
        Nat.mod_eq_of_lt (by omega)]
    rw [mdataStmts_succ, performAll_append, performAll_wr hpend, hstores _ _ _ hmsel, haddr, hparams]
    rw [Nat.mul_succ] at hj
    by_cases hlast : width * n ≤ j
    · have hdiv : j / width = n := Nat.div_eq_of_lt_le (by rwa [Nat.mul_comm]) (by rwa [Nat.mul_comm, Nat.mul_succ])
      rw [if_pos ⟨hlast, hj, hcap⟩, Nat.mod_eq_sub_mul_div, hdiv]
    · rw [if_neg fun hin => hlast hin.1]
      exact ih (by omega) (by omega)

/-! ## loadword and loadbits -/

/-- A load is its length register's write after the MDATA writes at address 0 of the memory it selects. -/
theorem performAll_load (h : s.pend = none) (m : Word) (w : Nat → Word) (n : Nat) (r : Reg) (v : Word) :
    performAll s (selectStmts m 0 ++ mdataStmts w n ++ [.wr r v]) =
      respond (.write false) (writeEffect v (performAll (windowAt (m.setWidth 4) 0 s) (mdataStmts w n)) r) := by
  rw [performAll_append, performAll_append, performAll_select h]
  exact performAll_wr (performAll_mdata_frame (s := windowAt _ _ s) h w n).1 r v

/-- A length register keeps a length of 16 bits (R35, R37). -/
theorem toNat_setWidth_length {n : Nat} (h : n < 2 ^ 16) : ((BitVec.ofNat 32 n).setWidth 16).toNat = n := by
  rw [BitVec.toNat_setWidth, BitVec.toNat_ofNat]
  omega

/-- The capacities fit the length registers (R6). -/
theorem legal_capacities {p : Params} (h : p.legal = true) : p.maxWord < 2 ^ 16 ∧ p.maxBits < 2 ^ 16 := by
  simp only [Params.legal, Bool.and_eq_true, decide_eq_true_eq] at h
  omega

/-- `loadword` fills WBUF and WLEN (R69). -/
theorem performAll_loadword (h : s.pend = none) {bs : List Byte} (hlen : bs.length ≤ s.params.maxWord)
    (hmax : s.params.maxWord < 2 ^ 16) :
    (performAll s (loadwordStmts bs)).wlen.toNat = bs.length ∧
    ∀ j, (hj : j < bs.length) → wbufAt (performAll s (loadwordStmts bs)) j = bs[j]'hj := by
  have hload : performAll s (loadwordStmts bs) = _ := performAll_load h 4 _ _ .wlen _
  rw [hload]
  refine ⟨toNat_setWidth_length (by omega), fun j hj => ?_⟩
  calc wbufAt (performAll (windowAt 4 0 s) (mdataStmts (packBytes fun j => bs.getD j 0) ((bs.length + 3) / 4))) j
    _ = byteOfWord (packBytes (fun j => bs.getD j 0) (j / 4)) (j % 4) :=
      storesParts_wbuf.read_performAll (s := windowAt 4 0 s) (n := (bs.length + 3) / 4) h rfl _ (by omega) (by omega)
        (Nat.lt_of_lt_of_le hj hlen)
    _ = bs[j] := by
      rw [byteOfWord_packBytes _ _ _ (Nat.mod_lt _ (by decide)), Nat.div_add_mod, List.getD_eq_getElem _ _ hj]

/-- `loadbits` fills IBUF and ILEN (R69). -/
theorem performAll_loadbits (h : s.pend = none) {ds : List Bool} (hlen : ds.length ≤ s.params.maxBits)
    (hmax : s.params.maxBits < 2 ^ 16) :
    (performAll s (loadbitsStmts ds)).ilen.toNat = ds.length ∧
    ∀ i, (hi : i < ds.length) → ibufAt (performAll s (loadbitsStmts ds)) i = ds[i]'hi := by
  have hload : performAll s (loadbitsStmts ds) = _ := performAll_load h 6 _ _ .ilen _
  rw [hload]
  refine ⟨toNat_setWidth_length (by omega), fun i hi => ?_⟩
  calc ibufAt (performAll (windowAt 6 0 s) (mdataStmts (packBits fun i => ds.getD i false) ((ds.length + 31) / 32))) i
    _ = (packBits (fun i => ds.getD i false) (i / 32)).getLsbD (i % 32) :=
      storesParts_ibuf.read_performAll (s := windowAt 6 0 s) (n := (ds.length + 31) / 32) h rfl _ (by omega) (by omega)
        (Nat.lt_of_lt_of_le hi hlen)
    _ = ds[i] := by
      rw [getLsbD_packBits, decide_eq_true (Nat.mod_lt _ (by decide)), Bool.true_and, Nat.div_add_mod,
        List.getD_eq_getElem _ _ hi]

/-- Settles O54. -/
theorem loadStatementsFillTheBuffers : Obligations.LoadStatementsFillTheBuffers := by
  intro s h hlegal
  obtain ⟨hword, hbits⟩ := legal_capacities hlegal
  exact ⟨fun bs hlen => performAll_loadword h hlen hword, fun ds hlen => performAll_loadbits h hlen hbits⟩

end Sys2Proof.Machine
end

section
/-! PROOFS. Words and commands correspond one to one, and the rows of the opcode table match just the commands' words
(R61 to R65). -/

namespace Sys2Proof

open Machine (opcodeRows)

/-! ## The word of a command -/

/-- A command's word has the command's fields, and they are well-formed (R61, R62). -/
theorem fieldsOfEncoding (i : Instr) : Laws.FieldsOfEncoding.Statement i := by
  cases i with
  | nop => exact Laws.FieldsOfEncoding.nop
  | reset => exact Laws.FieldsOfEncoding.reset
  | collect b => exact Laws.FieldsOfEncoding.collect b
  | build => exact Laws.FieldsOfEncoding.build
  | derive => exact Laws.FieldsOfEncoding.derive
  | encode => exact Laws.FieldsOfEncoding.encode
  | decode => exact Laws.FieldsOfEncoding.decode
  | ack => exact Laws.FieldsOfEncoding.ack

/-- The tests of R64 look at the fields alone, and a command's own fields pass them. -/
theorem decode_of_fields {w : Word} {i : Instr} (h : cmdFields w = i.fields) : decode w = .ok i := by
  simp only [decode, h]
  cases i <;> rfl

theorem decode_encode (i : Instr) : decode (encode i) = .ok i := decode_of_fields (fieldsOfEncoding i).1

theorem decode_eq_ok_iff {w : Word} {i : Instr} : decode w = .ok i ↔ encode i = w :=
  ⟨encode_eq_of_decode, fun h => h ▸ decode_encode i⟩

theorem decode_eq_error_iff {w : Word} : (∃ e, decode w = .error e) ↔ ∀ i, encode i ≠ w := by
  simp only [ne_eq, ← decode_eq_ok_iff]
  cases decode w <;> simp

/-- Settles O1: the tests of R64 read the fields of the word, and these are the command's own. -/
theorem decodeInvertsEncode : Obligations.DecodeInvertsEncode :=
  fun i => ⟨(fieldsOfEncoding i).2, decode_encode i⟩

/-- Settles O3: each word is the word of its command. -/
theorem tableWordsDecode : Obligations.TableWordsDecode :=
  ⟨decode_encode .nop, decode_encode .reset, decode_encode (.collect 0x61), decode_encode (.collect 0xFF),
    decode_encode .build, decode_encode .derive, decode_encode .encode, decode_encode .decode, decode_encode .ack⟩

/-! ## The rows of the opcode table -/

theorem cmdFields_injective : Function.Injective cmdFields := Function.LeftInverse.injective wordOfFields_cmdFields

/-- The mask of COLLECT's row clears ARG and keeps OP and RSV (R63). -/
theorem cmdFields_and_collectMask (w : Word) : cmdFields (w &&& 0xFFFF00FF) = { cmdFields w with arg := 0 } := by
  have hop : (0xFFFF00FF : Word).extractLsb' 0 8 = BitVec.allOnes 8 := by decide
  have harg : (0xFFFF00FF : Word).extractLsb' 8 8 = 0#8 := by decide
  have hrsv : (0xFFFF00FF : Word).extractLsb' 16 16 = BitVec.allOnes 16 := by decide
  simp only [cmdFields, BitVec.extractLsb'_and, hop, harg, hrsv, BitVec.and_allOnes, BitVec.and_zero]
  rfl

theorem matches_collectRow_iff (w : Word) : w &&& 0xFFFF00FF = 0x00000002 ↔ ∃ b, encode (.collect b) = w := by
  have hrow : cmdFields 0x00000002 = { op := 0x02, arg := 0, rsv := 0 } := by decide
  constructor
  · intro h
    have hfields : { cmdFields w with arg := 0 } = cmdFields 0x00000002 := by rw [← cmdFields_and_collectMask, h]
    rw [hrow, CmdFields.mk.injEq] at hfields
    obtain ⟨hop, -, hrsv⟩ := hfields
    have hcollect : (Instr.collect (cmdFields w).arg).fields = cmdFields w := by
      simp only [Instr.fields, Instr.opcode, Instr.argument, ← hop, ← hrsv]
    exact ⟨_, cmdFields_injective ((fieldsOfEncoding _).1.trans hcollect)⟩
  · rintro ⟨b, rfl⟩
    apply cmdFields_injective
    rw [cmdFields_and_collectMask, (fieldsOfEncoding _).1, hrow]
    rfl

/-- The row of a command without operand matches its word alone, since its mask keeps every bit (R63). -/
theorem matches_plainRow_iff (w v : Word) : w &&& 0xFFFFFFFF = v ↔ w = v := by
  rw [show (0xFFFFFFFF : Word) = BitVec.allOnes 32 from rfl, BitVec.and_allOnes]

theorem matches_row_iff (w : Word) : (∃ row ∈ opcodeRows, w &&& row.1 = row.2) ↔ ∃ i, encode i = w := by
  constructor
  · simp only [opcodeRows, List.exists_mem_cons_iff, List.not_mem_nil, false_and, exists_false, or_false,
      matches_plainRow_iff, matches_collectRow_iff]
    rintro (rfl | rfl | ⟨b, rfl⟩ | rfl | rfl | rfl | rfl | rfl)
    exacts [⟨.nop, rfl⟩, ⟨.reset, rfl⟩, ⟨.collect b, rfl⟩, ⟨.build, rfl⟩, ⟨.derive, rfl⟩, ⟨.encode, rfl⟩,
      ⟨.decode, rfl⟩, ⟨.ack, rfl⟩]
  · rintro ⟨i, rfl⟩
    cases i
    case collect b => exact ⟨(0xFFFF00FF, 0x00000002), by decide, (matches_collectRow_iff _).2 ⟨b, rfl⟩⟩
    all_goals decide

/-- Settles O2: both the words that decode and the words a row matches are the commands' words. -/
theorem commandWordsAreTheTableRows : Obligations.CommandWordsAreTheTableRows := by
  refine fun w => ⟨fun i => encode_eq_of_decode, ?_⟩
  calc (∃ e, decode w = .error e)
    _ ↔ ¬ ∃ i, encode i = w := decode_eq_error_iff.trans not_exists.symm
    _ ↔ ¬ ∃ row ∈ opcodeRows, w &&& row.1 = row.2 := not_congr (matches_row_iff w).symm
    _ ↔ ∀ row ∈ opcodeRows, w &&& row.1 ≠ row.2 := by simp only [not_exists, not_and, ne_eq]

end Sys2Proof
end

section
/-! PROOFS. Phase admission (R67): each command against its row of the admission table. -/

namespace Sys2Proof.Machine

variable {s t : State}

/-! ## The rows of the admission table -/

theorem admission_collect (b : Byte) (p : Phase) :
    admission (.collect b) p = if p = .built ∨ p = .ready then some .sequenceError else none := by
  cases p <;> rfl

theorem admission_derive (p : Phase) : admission .derive p = if p = .built then none else some .sequenceError := by
  cases p <;> rfl

theorem admission_encode (p : Phase) : admission .encode p = if p = .ready then none else some .sequenceError := by
  cases p <;> rfl

theorem admission_decode (p : Phase) :
    admission .decode p = if p = .built ∨ p = .ready then none else some .sequenceError := by
  cases p <;> rfl

/-! ## Completion by the table -/

/-- Every way a command completes, against the command's row of the table (R67). -/
theorem exec_admission {i : Instr} (h : exec i s = .next t) :
    (∃ e, admission i s.phase = some e ∧
      t = raise e (if e = .emptyInput then 0 else encode i) (clearedFirst i s)) ∨
    (admission i s.phase = none ∧ t.ecode ≠ .sequenceError ∧ t.ecode ≠ .emptyInput) := by
  cases i with
  | nop => cases h; exact .inr ⟨rfl, nofun, nofun⟩
  | reset => cases h; exact .inr ⟨rfl, nofun, nofun⟩
  | collect b =>
    rw [admission_collect]
    obtain ⟨hlate, rfl⟩ | ⟨hearly, -, rfl⟩ | ⟨hearly, -, rfl⟩ := execCollect_cases h
    · exact .inl ⟨_, if_pos hlate, rfl⟩
    · exact .inr ⟨if_neg ((not_built_or_ready_iff _).2 hearly), nofun, nofun⟩
    · exact .inr ⟨if_neg ((not_built_or_ready_iff _).2 hearly), nofun, nofun⟩
  | build =>
    obtain ⟨hempty, rfl⟩ | ⟨hlate, rfl⟩ | ⟨hcollect, rfl⟩ := execBuild_cases h
    · exact .inl ⟨.emptyInput, by simp only [hempty, admission], rfl⟩
    · exact .inl ⟨.sequenceError, by rcases hlate with h | h <;> simp only [h, admission], rfl⟩
    · exact .inr ⟨by simp only [hcollect, admission], nofun, nofun⟩
  | derive =>
    rw [admission_derive]
    obtain ⟨hother, rfl⟩ | ⟨hbuilt, -, rfl⟩ | ⟨hbuilt, -, rfl⟩ := execDerive_cases h
    · exact .inl ⟨_, if_neg hother, rfl⟩
    · exact .inr ⟨if_pos hbuilt, nofun, nofun⟩
    · exact .inr ⟨if_pos hbuilt, nofun, nofun⟩
  | encode =>
    rw [admission_encode]
    obtain ⟨hother, rfl⟩ | ⟨hready, -, rfl⟩ | ⟨j, b, hready, -, -, rfl⟩ | ⟨hready, -, -, -, rfl⟩ |
      ⟨hready, -, -, -, rfl⟩ := execEncode_cases h
    · exact .inl ⟨_, if_neg hother, rfl⟩
    all_goals exact .inr ⟨if_pos hready, nofun, nofun⟩
  | decode =>
    rw [admission_decode]
    obtain ⟨hearly, rfl⟩ | ⟨hlate, -, rfl⟩ | ⟨i, hlate, -, -, rfl⟩ | ⟨c, hlate, -, -, -, rfl⟩ |
      ⟨c, hlate, -, -, -, rfl⟩ := execDecode_cases h
    · exact .inl ⟨_, if_neg ((not_built_or_ready_iff _).2 hearly), rfl⟩
    all_goals exact .inr ⟨if_pos hlate, nofun, nofun⟩
  | ack => cases h; exact .inr ⟨rfl, nofun, nofun⟩

/-- Settles O8: the table's answer decides which of the two ways of `exec_admission` the command took. -/
theorem phaseAdmissionTable : Obligations.PhaseAdmissionTable := by
  intro i s t h
  obtain ⟨e, hrejected, rfl⟩ | ⟨hadmitted, hecode⟩ := exec_admission h
  · refine ⟨fun e' he => ?_, fun hnone => by simp [hrejected] at hnone⟩
    obtain rfl : e = e' := Option.some.inj (hrejected.symm.trans he)
    rfl
  · exact ⟨fun e he => by simp [hadmitted] at he, fun _ => hecode⟩

end Sys2Proof.Machine
end

section
/-! PROOFS. Frequency collection (R70 to R74): what a successful COLLECT leaves, that two of them commute, and that
nothing else counts. -/

namespace Sys2Proof.Machine

variable {s t : State} {b : Byte}

/-! ## The ways COLLECT completes -/

/-- The state a successful COLLECT `b` leaves (R70). -/
def collected (b : Byte) (s : State) : State :=
  complete { s with
    freq := Memory.write 0 s.freq b.toNat (count s.params ((freqAt s b).toNat + 1))
    total := count s.params (s.total.toNat + 1)
    phase := .collect }

theorem execCollect_late (h : s.phase = .built ∨ s.phase = .ready) :
    execCollect b s = .next (raise .sequenceError (encode (.collect b)) s) := if_pos h

theorem execCollect_full (h : s.phase = .empty ∨ s.phase = .collect) (hfull : s.total.toNat = countMax s.params) :
    execCollect b s = .next (raise .countOverflow (encode (.collect b)) s) :=
  (if_neg ((not_built_or_ready_iff _).2 h)).trans (if_pos hfull)

theorem execCollect_room (h : s.phase = .empty ∨ s.phase = .collect) (hroom : s.total.toNat ≠ countMax s.params) :
    execCollect b s = .next (collected b s) :=
  (if_neg ((not_built_or_ready_iff _).2 h)).trans (if_neg hroom)

/-! ## The counts after a success -/

/-- R70, R71: TOTAL goes up by one, without a wrap. -/
theorem toNat_total_collected (hm : MemoriesOk s) (hc : CountsOk s) (hroom : s.total.toNat ≠ countMax s.params)
    (b : Byte) : (collected b s).total.toNat = s.total.toNat + 1 := (collect_counts hm hc hroom b).1

/-- The count of every byte after a success. -/
theorem freqAt_collected (hm : MemoriesOk s) (b c : Byte) :
    freqAt (collected b s) c = if c = b then count s.params ((freqAt s b).toNat + 1) else freqAt s c :=
  freqAt_collect hm b c _

/-- R70, R71: the byte's count goes up by one, without a wrap, and no other count changes. -/
theorem toNat_freqAt_collected (hm : MemoriesOk s) (hc : CountsOk s) (hroom : s.total.toNat ≠ countMax s.params)
    (b c : Byte) :
    (freqAt (collected b s) c).toNat = if c = b then (freqAt s c).toNat + 1 else (freqAt s c).toNat := by
  rw [freqAt_collected hm]
  split_ifs with hcb
  · rw [hcb]
    exact (collect_counts hm hc hroom b).2.2
  · rfl

/-- Settles O13: the three cases of R70, and each count is bounded by the sum, which is TOTAL. -/
theorem collectCountsItsByte : Obligations.CollectCountsItsByte := by
  intro s b hm hc
  refine ⟨execCollect_late, execCollect_full, fun hphase hroom => ⟨fun c => ?bound, ?width, collected b s, ?success⟩⟩
  case bound => exact (freqAt_le_countSum s c).trans_eq hc.sum.symm
  case width => exact lt_of_le_of_ne (Nat.le_sub_one_of_lt hc.width) hroom
  case success =>
    exact ⟨execCollect_room hphase hroom, rfl, toNat_total_collected hm hc hroom b,
      toNat_freqAt_collected hm hc hroom b⟩

/-! ## Order -/

/-- Writes at two indices of a canonical memory commute. -/
theorem Memory.write_comm {α : Type} [DecidableEq α] {z : α} {m : Memory α} (hm : Memory.wf z m) {j k : Nat}
    (hne : j ≠ k) (v w : α) :
    Memory.write z (Memory.write z m j v) k w = Memory.write z (Memory.write z m k w) j v := by
  have hj := Memory.wf_write z m hm j v
  have hk := Memory.wf_write z m hm k w
  refine Memory.eq_of_read_eq z _ _ (Memory.wf_write z _ hj k w) (Memory.wf_write z _ hk j v) fun i => ?_
  rw [Memory.read_write z _ hj.1, Memory.read_write z m hm.1, Memory.read_write z _ hk.1, Memory.read_write z m hm.1]
  split_ifs with hik hij
  · exact absurd (hij.symm.trans hik) hne
  all_goals rfl

/-- R73: each of two different bytes' counts is written from its own old value, and TOTAL counts both. -/
theorem collected_comm (hm : MemoriesOk s) (b c : Byte) :
    collected c (collected b s) = collected b (collected c s) := by
  obtain rfl | hne := eq_or_ne b c
  · rfl
  have hc : freqAt (collected b s) c = freqAt s c := (freqAt_collected hm b c).trans (if_neg hne.symm)
  have hb : freqAt (collected c s) b = freqAt s b := (freqAt_collected hm c b).trans (if_neg hne)
  rw [collected, collected.eq_1 b (collected c s), hc, hb]
  simp only [collected, complete, Memory.write_comm hm.freq.1 (mt BitVec.eq_of_toNat_eq hne)]

/-- Settles O14: there is room for the second byte whichever comes first, and the two updates commute. -/
theorem collectOrderIsIrrelevant : Obligations.CollectOrderIsIrrelevant := by
  intro s b c hm hc hphase htwo
  have hroom : s.total.toNat ≠ countMax s.params := by
    rw [countMax]
    omega
  have hroom' (b : Byte) : (collected b s).total.toNat ≠ countMax (collected b s).params := by
    rw [toNat_total_collected hm hc hroom b]
    exact (Nat.lt_of_succ_le htwo).ne
  refine ⟨collected b s, collected c s, collected b (collected c s), execCollect_room hphase hroom, ?_,
    execCollect_room hphase hroom, execCollect_room (.inr rfl) (hroom' c), rfl⟩
  rw [← collected_comm hm]
  exact execCollect_room (.inr rfl) (hroom' b)

/-! ## Writers of the counts -/

/-- A command that changes a count is RESET or a COLLECT that succeeds. -/
theorem exec_writes_counts {i : Instr} (h : exec i s = .next t) (hne : ¬ (t.freq = s.freq ∧ t.total = s.total)) :
    (i = .reset ∧ t.freq = [] ∧ t.total = 0) ∨
    ∃ b, i = .collect b ∧ s.total.toNat ≠ countMax s.params ∧ t = collected b s := by
  cases i
  case reset => cases h; exact .inl ⟨rfl, rfl, rfl⟩
  case collect b =>
    obtain ⟨-, rfl⟩ | ⟨-, -, rfl⟩ | ⟨-, hroom, rfl⟩ := execCollect_cases h
    · exact absurd ⟨rfl, rfl⟩ hne
    · exact absurd ⟨rfl, rfl⟩ hne
    · exact .inr ⟨b, rfl, hroom, rfl⟩
  all_goals exact absurd (exec_keeps_counts h nofun nofun) hne

/-- Settles O15: an illegal word and a host access keep the counts, and a command changes them by
`exec_writes_counts`. -/
theorem onlyCollectAndResetsWriteCounts : Obligations.OnlyCollectAndResetsWriteCounts := by
  intro s t hm hc h hchanged
  have hne : ¬ (t.freq = s.freq ∧ t.total = s.total) := not_and_or.2 hchanged
  obtain ⟨i, he, hpend, hexec⟩ | ⟨w, -, -, rfl⟩ | ⟨he, rfl⟩ | ⟨-, -, hsame⟩ := step_results h
  · obtain ⟨rfl, hfreq, htotal⟩ | ⟨b, rfl, hroom, rfl⟩ := exec_writes_counts hexec hne
    · exact .inr (.inl ⟨he, hpend, hfreq, htotal⟩)
    · exact .inr (.inr ⟨b, he, hpend, rfl, toNat_total_collected hm.advance hc.advance hroom b,
        toNat_freqAt_collected hm.advance hc.advance hroom b⟩)
  · exact absurd ⟨rfl, rfl⟩ hne
  · exact .inl ⟨he, rfl, rfl⟩
  · exact absurd ⟨hsame.freq, hsame.total⟩ hne

end Sys2Proof.Machine
end

section
/-! PROOFS. The ways BUILD completes (R75, R86), and the tree as a function of the counts (R84). -/

namespace Sys2Proof.Machine

variable {s t : State}

/-! ## BUILD by its phase -/

/-- What a successful BUILD leaves (R75). -/
def built (s : State) : State := complete { s with node := buildArena s, root := buildRoot s, phase := .built }

theorem execBuild_empty (h : s.phase = .empty) : execBuild s = .next (raise .emptyInput 0 s) := if_pos h

theorem execBuild_late (h : s.phase = .built ∨ s.phase = .ready) :
    execBuild s = .next (raise .sequenceError (encode .build) s) := by
  have hempty : s.phase ≠ .empty := fun he => (not_built_or_ready_iff s.phase).2 (.inl he) h
  rw [execBuild, if_neg hempty, if_pos h]

theorem execBuild_collect (h : s.phase = .collect) : execBuild s = .next (built s) := by
  have hempty : s.phase ≠ .empty := by simp [h]
  rw [execBuild, if_neg hempty, if_neg ((not_built_or_ready_iff s.phase).2 (.inr h))]
  rfl

/-- R77 to R83: a successful BUILD leaves a Huffman tree. -/
theorem treeOk_built (h : Inv s) (hphase : s.phase = .collect) : TreeOk (built s) :=
  (treeOk_build h.memories h.counts h.stages hphase).congr rfl rfl rfl rfl

/-- Settles O17: PHASE COLLECT is the one in which BUILD succeeds, and the tree is `treeOk_built`. -/
theorem buildGivesAHuffmanTree : Obligations.BuildGivesAHuffmanTree := fun s h hphase =>
  ⟨built s, execBuild_collect hphase, rfl, rfl, treeOk_built h hphase⟩

/-- Settles O16: each phase's completion in full, and the records behind the tree by its invariant. -/
theorem buildWritesOnlyTheTree : Obligations.BuildWritesOnlyTheTree := fun s =>
  ⟨execBuild_empty, execBuild_late, fun hphase =>
    ⟨buildArena s, buildRoot s, execBuild_collect hphase, fun h => (treeOk_built h hphase).rest⟩⟩

/-! ## The counts alone -/

theorem symbols_congr (hf : freqAt t = freqAt s) : symbols t = symbols s := by simp only [symbols, hf]

theorem nsym_congr (hf : freqAt t = freqAt s) : nsym t = nsym s := congrArg List.length (symbols_congr hf)

/-- An arena not yet written is filled from the counts and the parameters alone (R84). -/
theorem buildArena_congr (hp : t.params = s.params) (hn : t.node = s.node) (hf : freqAt t = freqAt s) :
    buildArena t = buildArena s := by
  simp only [buildArena, hp, hn, hf, nsym_congr hf, symbols_congr hf]

theorem buildRoot_congr (hf : freqAt t = freqAt s) : buildRoot t = buildRoot s := by
  simp only [buildRoot, nsym_congr hf]

/-- Settles O20: before BUILD no record is listed, so the arena and the root come from the counts. -/
theorem treeIsAFunctionOfTheCounts : Obligations.TreeIsAFunctionOfTheCounts := by
  intro s s' t t' hs hs' hphase hphase' hparams hfreq ht ht'
  obtain rfl : built s = t := Host.Outcome.next.inj ((execBuild_collect hphase).symm.trans ht)
  obtain rfl : built s' = t' := Host.Outcome.next.inj ((execBuild_collect hphase').symm.trans ht')
  have hfun : freqAt s = freqAt s' := funext hfreq
  have hnode : s.node = s'.node := (hs.noTree (.inr hphase)).trans (hs'.noTree (.inr hphase')).symm
  exact ⟨buildArena_congr hparams hnode hfun, buildRoot_congr hfun⟩

/-! ## PopMin -/

/-- Settles O19: `popMin_eq_some` in the terms of `queueLess`. -/
theorem popMinTakesTheLeast : Obligations.PopMinTakesTheLeast := by
  refine fun f q => ⟨exists_popMin, fun k q' h => ?_⟩
  obtain ⟨hmem, herase, hleast⟩ := popMin_eq_some h
  exact ⟨hmem, herase, fun j hj => (hleast j hj).imp id of_decide_eq_true⟩

end Sys2Proof.Machine
end

section
/-! PROOFS. Each merge joins the two least roots (R76, R78, R79). -/

namespace Sys2Proof.Machine

variable {s t : State} {m : Nat} {q : List Nat}

/-- Node `m` joins the first two in queue order of the roots below it: every other such root comes after RIGHT. -/
def JoinsTheLeast (s : State) (m : Nat) : Prop :=
  ∀ k, k < m → (∀ j, j < m → ¬ IsParent s j k) →
    k = (nodeAt s m).left.toNat ∨ k = (nodeAt s m).right.toNat ∨
    queueLess (fun j => (nodeAt s j).f) (nodeAt s m).right.toNat k = true

/-- The choice of a merge shows in the records up to its node alone. -/
theorem JoinsTheLeast.congr (h : JoinsTheLeast s m) (hright : (nodeAt s m).right.toNat < m)
    (heq : ∀ k, k ≤ m → nodeAt t k = nodeAt s k) : JoinsTheLeast t m := by
  intro k hk hroot
  have hroot' : ∀ j, j < m → ¬ IsParent s j k := fun j hj => by
    simpa only [IsParent, heq j hj.le] using hroot j hj
  rw [heq m le_rfl, queueLess_congr (g := fun j => (nodeAt s j).f) (congrArg Node.f (heq _ hright.le))
    (congrArg Node.f (heq k hk.le))]
  exact h k hk hroot'

/-- A merge of the first two roots of the queue (R76, R78). -/
theorem Forest.joinsTheLeast_merge {a c : Nat} {rest : List Nat} (h : Forest s m q) (hperm : q.Perm (a :: c :: rest))
    (hrest : ∀ j ∈ rest, queueLess (fun k => (nodeAt s k).f) c j = true) : JoinsTheLeast (mergedAt s m a c) m := by
  have hroom := h.room hperm
  obtain ⟨ha, hc, -⟩ := h.below_of_perm hperm
  have hnew : nodeAt (mergedAt s m a c) m = joinOf s a c := (nodeAt_mergedAt h.arena m).trans (if_pos rfl)
  have hold : ∀ k, k < m → nodeAt (mergedAt s m a c) k = nodeAt s k := fun k hk =>
    (nodeAt_mergedAt h.arena k).trans (if_neg hk.ne)
  have hleft : (joinOf s a c).left.toNat = a := Nat.mod_eq_of_lt (by omega)
  have hright : (joinOf s a c).right.toNat = c := Nat.mod_eq_of_lt (by omega)
  intro k hk hroot
  rw [hnew, hleft, hright, queueLess_congr (g := fun j => (nodeAt s j).f) (congrArg Node.f (hold c hc))
    (congrArg Node.f (hold k hk))]
  have hqueue : k ∈ q := by
    by_contra hout
    obtain ⟨j, hparent, -⟩ := h.joined k hk hout
    obtain ⟨-, hj, -⟩ := h.isParent_bounds hparent
    exact hroot j hj ((h.isParent_merge hperm j k).2 (.inr ⟨hj.ne, hparent⟩))
  obtain rfl | rfl | hk : k = a ∨ k = c ∨ k ∈ rest := by simpa using hperm.mem_iff.1 hqueue
  · exact .inl rfl
  · exact .inr (.inl rfl)
  · exact .inr (.inr (hrest k hk))

/-- Before merge `m`, every merge so far has joined the two least. -/
def MergedLeast (s : State) (m : Nat) : Prop := ∀ j, nsym s ≤ j → j < m → JoinsTheLeast s j

/-- A merge writes node `m` alone, so the choices before it stand. -/
theorem Forest.mergedLeast_merge {a c : Nat} {rest : List Nat} (h : Forest s m q) (hperm : q.Perm (a :: c :: rest))
    (hrest : ∀ j ∈ rest, queueLess (fun k => (nodeAt s k).f) c j = true) (hbefore : MergedLeast s m) :
    MergedLeast (mergedAt s m a c) (m + 1) := by
  intro j hstart hj
  obtain hj | rfl := Nat.lt_succ_iff_lt_or_eq.1 hj
  · exact (hbefore j hstart hj).congr (h.inner j hstart hj).right fun k hk =>
      (nodeAt_mergedAt h.arena k).trans (if_neg (by omega))
  · exact h.joinsTheLeast_merge hperm hrest

/-- Before BUILD's first merge the leaves are the forest, each its own root (R77). -/
theorem forest_placeLeaves (h : Inv s) (hphase : s.phase = .collect) :
    Forest { s with node := placeLeaves (freqAt s) s.node 0 (symbols s) } (nsym s) (List.range (nsym s)) :=
  forest_leaves (nsym_pos (s := s) h.counts (by simp [hphase])) (by rw [h.stages.noTree (.inr hphase)]; rfl)

/-- The sum of all counts does not wrap (R24, R72). -/
theorem Inv.countSum_lt (h : Inv s) : countSum s < 2 ^ s.params.wCnt := h.counts.sum ▸ h.counts.width

/-- BUILD's merges each join the two least (R75, R78). -/
theorem mergedLeast_built (h : Inv s) (hphase : s.phase = .collect) : MergedLeast (built s) (2 * nsym s - 1) := by
  obtain ⟨-, hw, -⟩ := legal_bounds h.memories.params
  have hpos : 1 ≤ nsym s := nsym_pos h.counts (by simp [hphase])
  obtain ⟨-, -, hall⟩ := mergeLoop_induction (p := s.params) (bound := 2 * nsym s - 1) (steps := nsym s - 1)
    (P := fun m nodes q => Forest { s with node := nodes } m q ∧ MergedLeast { s with node := nodes } m)
    (fun m nodes q hlt ⟨hforest, hbefore⟩ => by
      have hsize : q.length + m = 2 * nsym s := hforest.size
      obtain ⟨a, c, rest, hperm, hless, hrest, hmerge⟩ :=
        exists_mergeOne s.params m nodes hforest.nodup (by omega)
      exact ⟨_, _, hmerge, hforest.merge hperm h.countSum_lt hw hless,
        hforest.mergedLeast_merge hperm hrest hbefore⟩)
    ⟨forest_placeLeaves h hphase, fun j h1 h2 => absurd h2 (Nat.not_lt.2 h1)⟩ (by omega)
  rwa [show nsym s + (nsym s - 1) = 2 * nsym s - 1 by omega] at hall

/-- A child's parent is its only one, so no earlier node has joined it (R83). -/
theorem TreeOk.not_isParent_of_lt (h : TreeOk s) (hm : m < 2 * nsym s - 1) {k : Nat} (hk : k < m)
    (hp : IsParent s m k) {j : Nat} (hj : j < m) : ¬ IsParent s j k := by
  obtain ⟨_, -, hunique⟩ := h.parents k (by omega)
  exact fun hparent => hj.ne ((hunique j hparent).trans (hunique m hp).symm)

/-- Settles O18: the children's places and order are the tree's, and the choice of the two least is
`mergedLeast_built`. -/
theorem eachMergeJoinsTheTwoLeast : Obligations.EachMergeJoinsTheTwoLeast := by
  refine fun s h hphase => ⟨built s, execBuild_collect hphase, fun m h1 h2 => ?_⟩
  have htree := treeOk_built h hphase
  have hnode := htree.inner m h1 h2
  exact ⟨hnode.left, hnode.right, fun j hj =>
    ⟨htree.not_isParent_of_lt h2 hnode.left ⟨hnode.valid, hnode.inner, .inl rfl⟩ hj,
      htree.not_isParent_of_lt h2 hnode.right ⟨hnode.valid, hnode.inner, .inr rfl⟩ hj⟩,
    hnode.order, mergedLeast_built h hphase m h1 h2⟩

end Sys2Proof.Machine
end

section
/-! PROOFS. The pair of first-in-first-out queues (R85): while both are sorted and hold the nodes of `Q`, each merge takes
the same two nodes, and the node it makes is not before any other in the queue it enters. -/

namespace Sys2Proof.Machine

variable {s : State} {f g : Nat → Word} {a c k m : Nat} {q : List Nat} {tq : TwoQueue}

/-! ## Sorting the leaves -/

theorem insertByQueue_perm (f : Nat → Word) (a : Nat) (l : List Nat) : (insertByQueue f a l).Perm (a :: l) := by
  induction l with
  | nil => exact .refl _
  | cons b l ih =>
    rw [insertByQueue]
    split_ifs
    · exact .refl _
    · exact (ih.cons b).trans (.swap a b l)

theorem sortByQueue_perm (f : Nat → Word) (l : List Nat) : (sortByQueue f l).Perm l := by
  induction l with
  | nil => exact .refl _
  | cons a l ih => exact (insertByQueue_perm f a _).trans (ih.cons a)

theorem pairwise_insertByQueue {l : List Nat} (hl : l.Pairwise (fun i j => queueLess f i j = true)) (ha : a ∉ l) :
    (insertByQueue f a l).Pairwise (fun i j => queueLess f i j = true) := by
  induction l with
  | nil => exact List.pairwise_singleton _ a
  | cons b l ih =>
    obtain ⟨hhead, htail⟩ := List.pairwise_cons.1 hl
    obtain ⟨hab, hal⟩ : a ≠ b ∧ a ∉ l := by simpa using ha
    rw [insertByQueue]
    split_ifs with hless
    · exact List.pairwise_cons.2 ⟨List.forall_mem_cons.2 ⟨hless, fun j hj => queueLess_trans hless (hhead j hj)⟩, hl⟩
    · have hba : queueLess f b a = true := ((queueLess_total f a b).resolve_left hab).resolve_left hless
      refine List.pairwise_cons.2 ⟨fun j hj => ?_, ih htail hal⟩
      obtain rfl | hj := List.mem_cons.1 ((insertByQueue_perm f a l).mem_iff.1 hj)
      · exact hba
      · exact hhead j hj

/-- Distinct indices are sorted strictly. -/
theorem pairwise_sortByQueue {l : List Nat} (hl : l.Nodup) :
    (sortByQueue f l).Pairwise (fun i j => queueLess f i j = true) := by
  induction l with
  | nil => exact List.Pairwise.nil
  | cons a l ih =>
    obtain ⟨ha, hl⟩ := List.nodup_cons.1 hl
    exact pairwise_insertByQueue (ih hl) (mt (sortByQueue_perm f l).mem_iff.1 ha)

/-! ## Taking the least of two sorted queues -/

/-- The nodes in either queue. -/
def TwoQueue.nodes (tq : TwoQueue) : List Nat := tq.leaves ++ tq.inner

/-- Both queues are in queue order. -/
structure TwoQueue.Sorted (f : Nat → Word) (tq : TwoQueue) : Prop where
  leaves : tq.leaves.Pairwise (fun i j => queueLess f i j = true)
  inner  : tq.inner.Pairwise (fun i j => queueLess f i j = true)

/-- The two queues are what is left of two others after removals. -/
structure TwoQueue.Within (tq tq' : TwoQueue) : Prop where
  leaves : tq.leaves.Sublist tq'.leaves
  inner  : tq.inner.Sublist tq'.inner

theorem TwoQueue.Sorted.within {tq' : TwoQueue} (h : tq.Sorted f) (hw : tq'.Within tq) : tq'.Sorted f :=
  ⟨h.leaves.sublist hw.leaves, h.inner.sublist hw.inner⟩

/-- A node before the head of a sorted queue is before all of it. -/
theorem queueLess_of_head {l : List Nat} (hl : (c :: l).Pairwise (fun i j => queueLess f i j = true))
    (ha : queueLess f a c = true) : ∀ j ∈ c :: l, queueLess f a j = true :=
  List.forall_mem_cons.2 ⟨ha, fun _ hj => queueLess_trans ha (List.rel_of_pairwise_cons hl hj)⟩

/-- The smaller head is before every other node of two sorted queues that share none. -/
theorem TwoQueue.exists_pop (h : tq.Sorted f) (hnodup : tq.nodes.Nodup) (hne : tq.nodes ≠ []) :
    ∃ k tq', tq.pop f = some (k, tq') ∧ tq.nodes.Perm (k :: tq'.nodes) ∧ tq'.Within tq ∧
      ∀ j ∈ tq'.nodes, queueLess f k j = true := by
  obtain ⟨leaves, inner⟩ := tq
  obtain ⟨hleaves, hinner⟩ := h
  match leaves, inner with
  | [], [] => exact absurd rfl hne
  | a :: as, [] =>
    refine ⟨a, ⟨as, []⟩, rfl, .refl _, ⟨List.sublist_cons_self a as, .refl _⟩, ?_⟩
    simpa [nodes] using (List.pairwise_cons.1 hleaves).1
  | [], b :: bs =>
    exact ⟨b, ⟨[], bs⟩, rfl, .refl _, ⟨.refl _, List.sublist_cons_self b bs⟩, (List.pairwise_cons.1 hinner).1⟩
  | a :: as, b :: bs =>
    by_cases hba : queueLess f b a = true
    · refine ⟨b, ⟨a :: as, bs⟩, by simp [pop, hba], List.perm_middle, ⟨.refl _, List.sublist_cons_self b bs⟩, ?_⟩
      exact List.forall_mem_append.2 ⟨queueLess_of_head hleaves hba, (List.pairwise_cons.1 hinner).1⟩
    · have hne : a ≠ b := fun heq => (List.nodup_cons.1 hnodup).1 (by simp [heq])
      have hab : queueLess f a b = true := ((queueLess_total f a b).resolve_left hne).resolve_right hba
      refine ⟨a, ⟨as, b :: bs⟩, by simp [pop, hba], .refl _, ⟨List.sublist_cons_self a as, .refl _⟩, ?_⟩
      exact List.forall_mem_append.2 ⟨(List.pairwise_cons.1 hleaves).1, queueLess_of_head hinner hab⟩

/-- A list has one least node. -/
theorem least_unique {l l' : List Nat} (hperm : (a :: l).Perm (c :: l')) (ha : ∀ j ∈ l, queueLess f a j = true)
    (hc : ∀ j ∈ l', queueLess f c j = true) : a = c ∧ l.Perm l' := by
  have heq : a = c := by
    by_contra hne
    have hac := ha c ((List.mem_cons.1 (hperm.mem_iff.2 List.mem_cons_self)).resolve_left (Ne.symm hne))
    have hca := hc a ((List.mem_cons.1 (hperm.mem_iff.1 List.mem_cons_self)).resolve_left hne)
    rw [queueLess_iff] at hac hca
    omega
  subst heq
  exact ⟨rfl, hperm.cons_inv⟩

/-- The two queues give the least of the nodes they hold, and keep the others. -/
theorem TwoQueue.pop_least {ks : List Nat} (h : tq.Sorted f) (hnodup : (k :: ks).Nodup)
    (hperm : (k :: ks).Perm tq.nodes) (hleast : ∀ j ∈ ks, queueLess f k j = true) :
    ∃ tq', tq.pop f = some (k, tq') ∧ ks.Perm tq'.nodes ∧ tq'.Within tq := by
  have hne : tq.nodes ≠ [] := fun hnil => List.cons_ne_nil k ks (List.perm_nil.1 (hnil ▸ hperm))
  obtain ⟨k', tq', hpop, hperm', hwithin, hleast'⟩ := exists_pop h (hperm.nodup hnodup) hne
  obtain ⟨rfl, hrest⟩ := least_unique (hperm.trans hperm') hleast hleast'
  exact ⟨tq', hpop, hrest, hwithin⟩

/-- One merge takes the two least from the two queues (R78, R85). -/
theorem TwoQueue.mergeOne_least {p : Params} {nodes : Memory Node} {rest : List Nat}
    (h : tq.Sorted (fun k => (recordAt nodes k).f)) (hnodup : (a :: c :: rest).Nodup)
    (hperm : (a :: c :: rest).Perm tq.nodes) (hless : queueLess (fun k => (recordAt nodes k).f) a c = true)
    (hrest : ∀ j ∈ rest, queueLess (fun k => (recordAt nodes k).f) c j = true) :
    ∃ tq' : TwoQueue, rest.Perm tq'.nodes ∧ tq'.Within tq ∧ tq.mergeOne p m nodes = some
      (Memory.write Node.zero nodes m
        (Node.mkInternal a c (count p ((recordAt nodes a).f.toNat + (recordAt nodes c).f.toNat))),
       { tq' with inner := tq'.inner ++ [m] }) := by
  obtain ⟨tq1, hpop1, hperm1, hwithin1⟩ :=
    pop_least h hnodup hperm (List.forall_mem_cons.2 ⟨hless, fun j hj => queueLess_trans hless (hrest j hj)⟩)
  obtain ⟨tq2, hpop2, hperm2, hwithin2⟩ :=
    pop_least (h.within hwithin1) (List.nodup_cons.1 hnodup).2 hperm1 hrest
  exact ⟨tq2, hperm2, ⟨hwithin2.leaves.trans hwithin1.leaves, hwithin2.inner.trans hwithin1.inner⟩,
    by simp only [mergeOne, hpop1, hpop2]⟩

/-! ## What each merge keeps -/

/-- Before merge `m`: the two queues are sorted and hold the roots of the forest, and no internal root weighs more than
twice another root. That bound puts the next node, the sum of the two least, behind all of them. -/
structure Paired (s : State) (m : Nat) (q : List Nat) (tq : TwoQueue) : Prop where
  forest : Forest s m q
  perm   : q.Perm tq.nodes
  sorted : tq.Sorted (fun k => (nodeAt s k).f)
  bound  : ∀ i ∈ tq.inner, ∀ j ∈ q, (nodeAt s i).f.toNat ≤ 2 * (nodeAt s j).f.toNat

/-- Order looks at the frequencies of the queue's nodes alone. -/
theorem pairwise_queueLess_congr {l : List Nat} (hl : l.Pairwise (fun i j => queueLess f i j = true))
    (heq : ∀ k ∈ l, g k = f k) : l.Pairwise (fun i j => queueLess g i j = true) :=
  hl.imp_of_mem fun hi hj hij => (queueLess_congr (heq _ hi) (heq _ hj)).trans hij

section
variable {rest : List Nat} {tq' : TwoQueue} (h : Paired s m q tq) (hperm : q.Perm (a :: c :: rest))
  (hless : queueLess (fun k => (nodeAt s k).f) a c = true)
  (hrest : ∀ j ∈ rest, queueLess (fun k => (nodeAt s k).f) c j = true)
  (hperm' : rest.Perm tq'.nodes) (hwithin : tq'.Within tq)
  (hcounts : countSum s < 2 ^ s.params.wCnt) (hw : s.params.wCnt ≤ 32)
include h hperm

theorem Paired.nodeAt_merge {k : Nat} (hk : k ∈ rest) : nodeAt (mergedAt s m a c) k = nodeAt s k := by
  obtain ⟨-, -, hbelow⟩ := h.forest.below_of_perm hperm
  exact (nodeAt_mergedAt h.forest.arena k).trans (if_neg (hbelow k hk).ne)

include hcounts hw in
/-- The new root weighs as much as the two it joins (R79, R82). -/
theorem Paired.toNat_f_merge :
    (nodeAt (mergedAt s m a c) m).f.toNat = (nodeAt s a).f.toNat + (nodeAt s c).f.toNat := by
  have hsum := h.forest.sum_of_perm hperm
  rw [nodeAt_mergedAt h.forest.arena, if_pos rfl]
  exact toNat_count _ hw _ (by omega)

include hless hperm' hwithin hcounts hw in
/-- No internal root outweighs the new one. -/
theorem Paired.inner_le_merge :
    ∀ i ∈ tq'.inner ++ [m],
      (nodeAt (mergedAt s m a c) i).f.toNat ≤ (nodeAt s a).f.toNat + (nodeAt s c).f.toNat := by
  have hac := queueLess_iff.1 hless
  refine List.forall_mem_append.2 ⟨fun i hi => ?_, List.forall_mem_singleton.2 (h.toNat_f_merge hperm hcounts hw).le⟩
  have htwice := h.bound i (hwithin.inner.mem hi) a (hperm.mem_iff.2 List.mem_cons_self)
  rw [h.nodeAt_merge hperm (hperm'.mem_iff.2 (List.mem_append_right _ hi))]
  omega

include hless hrest hcounts hw in
/-- The new root weighs at most twice any root. -/
theorem Paired.merge_le_twice :
    ∀ j ∈ rest ++ [m],
      (nodeAt s a).f.toNat + (nodeAt s c).f.toNat ≤ 2 * (nodeAt (mergedAt s m a c) j).f.toNat := by
  have hac := queueLess_iff.1 hless
  have hnew := h.toNat_f_merge hperm hcounts hw
  refine List.forall_mem_append.2 ⟨fun j hj => ?_, List.forall_mem_singleton.2 (by omega)⟩
  have hcj := queueLess_iff.1 (hrest j hj)
  rw [h.nodeAt_merge hperm hj]
  omega

include hless hrest hperm' hwithin hcounts hw in
/-- A merge of the two least keeps the pairing: its node enters both the queue and the internal queue at the end. -/
theorem Paired.merge :
    Paired (mergedAt s m a c) (m + 1) (rest ++ [m]) { tq' with inner := tq'.inner ++ [m] } := by
  obtain ⟨-, -, hbelow⟩ := h.forest.below_of_perm hperm
  have hkept : ∀ k ∈ tq'.nodes, (nodeAt (mergedAt s m a c) k).f = (nodeAt s k).f := fun k hk =>
    congrArg Node.f (h.nodeAt_merge hperm (hperm'.mem_iff.2 hk))
  have hlight := h.inner_le_merge hperm hless hperm' hwithin hcounts hw
  have hnew := h.toNat_f_merge hperm hcounts hw
  have hsorted := h.sorted.within hwithin
  refine ⟨h.forest.merge hperm hcounts hw hless, ?perm, ⟨?leaves, ?inner⟩, fun i hi j hj =>
    (hlight i hi).trans (h.merge_le_twice hperm hless hrest hcounts hw j hj)⟩
  case perm => exact (hperm'.append_right [m]).trans (by simp [TwoQueue.nodes])
  case leaves => exact pairwise_queueLess_congr hsorted.leaves fun k hk => hkept k (List.mem_append_left _ hk)
  case inner =>
    have hold := pairwise_queueLess_congr hsorted.inner fun k hk => hkept k (List.mem_append_right _ hk)
    refine List.pairwise_append.2 ⟨hold, List.pairwise_singleton _ m, fun i hi => List.forall_mem_singleton.2 ?_⟩
    have him := hbelow i (hperm'.mem_iff.2 (List.mem_append_right _ hi))
    have hle := hlight i (List.mem_append_left _ hi)
    rw [queueLess_iff]
    omega

end

/-- Before each merge the queue and the pair of queues give the same two nodes, and the merge keeps the pairing (R85). -/
theorem Paired.exists_merge (h : Paired s m q tq) (hcounts : countSum s < 2 ^ s.params.wCnt) (hw : s.params.wCnt ≤ 32)
    (hm : m < 2 * nsym s - 1) :
    ∃ nodes q' tq', mergeOne s.params m s.node q = some (nodes, q') ∧
      tq.mergeOne s.params m s.node = some (nodes, tq') ∧ Paired { s with node := nodes } (m + 1) q' tq' := by
  have hsize := h.forest.size
  obtain ⟨a, c, rest, hperm, hless, hrest, hmerge⟩ := exists_mergeOne s.params m s.node h.forest.nodup (by omega)
  obtain ⟨tq', hperm', hwithin, hmerge'⟩ := TwoQueue.mergeOne_least (p := s.params) (m := m) h.sorted
    (hperm.nodup h.forest.nodup) (hperm.symm.trans h.perm) hless hrest
  exact ⟨_, _, _, hmerge, hmerge', h.merge hperm hless hrest hperm' hwithin hcounts hw⟩

/-- The two loops write the same arena (R85). -/
theorem Paired.mergeLoop_eq {steps : Nat} (h : Paired s m q tq) (hcounts : countSum s < 2 ^ s.params.wCnt)
    (hw : s.params.wCnt ≤ 32) (hm : m + steps ≤ 2 * nsym s - 1) :
    tq.mergeLoop s.params steps m s.node = mergeLoop s.params steps m s.node q := by
  induction steps generalizing s m q tq with
  | zero => rfl
  | succ steps ih =>
    obtain ⟨nodes, q', tq', hmerge, hmerge', hnext⟩ := h.exists_merge hcounts hw (by omega)
    simp only [TwoQueue.mergeLoop, mergeLoop, hmerge, hmerge']
    exact ih hnext hcounts hw (show m + 1 + steps ≤ 2 * nsym s - 1 by omega)

/-- Before the first merge the sorted leaves are one queue, and the other is empty (R77, R85). -/
theorem paired_leaves {n : Nat} (h : Forest s n (List.range n)) :
    Paired s n (List.range n) { leaves := sortByQueue (fun k => (nodeAt s k).f) (List.range n), inner := [] } where
  forest := h
  perm := by simpa [TwoQueue.nodes] using (sortByQueue_perm _ _).symm
  sorted := ⟨pairwise_sortByQueue h.nodup, List.Pairwise.nil⟩
  bound := nofun

/-- Settles O21: the pairing holds over the leaves and through every merge. -/
theorem twoQueuesBuildTheSameTree : Obligations.TwoQueuesBuildTheSameTree := by
  intro s h hphase
  obtain ⟨-, hw, -⟩ := legal_bounds h.memories.params
  have hpos : 1 ≤ nsym s := nsym_pos h.counts (by simp [hphase])
  exact (paired_leaves (forest_placeLeaves h hphase)).mergeLoop_eq h.countSum_lt hw
    (show nsym s + (nsym s - 1) ≤ 2 * nsym s - 1 by omega)

end Sys2Proof.Machine
end

section
/-! PROOFS. DERIVE's frame and its success (R87, R89), and the tables of PHASE READY (R93). -/

namespace Sys2Proof.Machine

variable {s t : State}

/-! ## DERIVE by its phase -/

theorem execDerive_not_built (h : s.phase ≠ .built) :
    execDerive s = .next (raise .sequenceError (encode .derive) s) := if_pos h

/-- A successful DERIVE writes the code book and PHASE, and nothing else (R87). -/
theorem exists_execDerive_built (h : s.phase = .built) :
    ∃ clen cbits, execDerive s = .next (complete { s with clen := clen, cbits := cbits, phase := .ready }) := by
  unfold execDerive
  rw [if_neg (not_not.2 h)]
  split
  · exact ⟨_, _, rfl⟩
  · rw [recordLeaves_frame]
    exact ⟨_, _, rfl⟩

/-- Settles O23: DERIVE succeeds by `exists_execDerive_built`, and the book it writes is the tree's by
`bookOk_derive`. -/
theorem deriveGivesTheTreesCodeBook : Obligations.DeriveGivesTheTreesCodeBook := by
  intro s h hphase
  obtain ⟨clen, cbits, hexec⟩ := exists_execDerive_built hphase
  exact ⟨_, hexec, rfl, rfl, bookOk_derive h.memories h.stages (h.tree (.inl hphase)) hphase hexec⟩

/-! ## PHASE READY -/

/-- The counts, the tree, the code book and PHASE are as they were. -/
structure SameTables (s t : State) : Prop where
  phase : t.phase = s.phase
  clen  : t.clen = s.clen
  cbits : t.cbits = s.cbits
  node  : t.node = s.node
  root  : t.root = s.root
  freq  : t.freq = s.freq
  total : t.total = s.total

theorem SameTables.raise (e : ErrCode) (w : Word) (s : State) : SameTables s (raise e w s) := by constructor <;> rfl

/-- In PHASE READY no command but RESET writes a table (R74, R86, R93). -/
theorem exec_ready_keeps_tables {i : Instr} (h : exec i s = .next t) (hready : s.phase = .ready)
    (hreset : i ≠ .reset) : SameTables s t := by
  have hphase : t.phase = s.phase := by
    by_contra hmoved
    obtain ⟨-, ⟨hi, -⟩ | ⟨b, -, hs, -⟩ | ⟨-, hs, -⟩ | ⟨-, hs, -⟩⟩ := exec_phase h hmoved
    · exact hreset hi
    all_goals simp [hready] at hs
  by_cases hbuild : i = .build
  · subst hbuild
    cases (execBuild_late (.inr hready)).symm.trans h
    exact .raise ..
  by_cases hderive : i = .derive
  · subst hderive
    cases (execDerive_not_built (by simp [hready])).symm.trans h
    exact .raise ..
  · obtain ⟨-, ⟨hfreq, htotal⟩, ⟨hnode, hroot⟩, hclen, hcbits⟩ :=
      exec_keeps_tables h (.inr (hphase.trans hready)) hbuild hderive
    exact ⟨hphase, hclen, hcbits, hnode, hroot, hfreq, htotal⟩

/-- In PHASE READY a step keeps every table, or is a reset and empties them (R93). -/
theorem step_ready (h : step s = .next t) (hready : s.phase = .ready) :
    SameTables s t ∨
    (IsReset s ∧ t.phase = .empty ∧ t.clen = [] ∧ t.cbits = [] ∧ t.node = [] ∧ t.freq = []) := by
  obtain ⟨i, he, hpend, hexec⟩ | ⟨w, -, -, rfl⟩ | ⟨he, rfl⟩ | ⟨-, -, hsame⟩ := step_results h
  · by_cases hreset : i = .reset
    · subst hreset
      cases hexec
      exact .inr ⟨.inr ⟨he, hpend⟩, rfl, rfl, rfl, rfl, rfl⟩
    · exact .inl { exec_ready_keeps_tables hexec hready hreset with }
  · exact .inl { SameTables.raise .illegalCommand w (advance s) with }
  · exact .inr ⟨.inl he, rfl, rfl, rfl, rfl, rfl⟩
  · exact .inl { hsame with }

/-- Settles O22: DERIVE's completion in each phase, and `step_ready` for what follows. -/
theorem deriveWritesOnlyTheCodeBook : Obligations.DeriveWritesOnlyTheCodeBook := by
  refine ⟨fun s => ⟨execDerive_not_built, exists_execDerive_built⟩, fun s t h hready => ?_⟩
  obtain ⟨hphase, hclen, hcbits, hnode, hroot, hfreq, htotal⟩ | hreset := step_ready h hready
  · exact .inl ⟨hphase.trans hready, hclen, hcbits, hnode, hroot, hfreq, htotal⟩
  · exact .inr hreset

end Sys2Proof.Machine
end

section
/-! PROOFS. The tree by its edges (R83, R88): each internal node has two children, each node but the root is the child
of one node at one bit, and the path of a child is its parent's with that bit appended. -/

namespace Sys2Proof.Machine

variable {s : State} {m k : Nat} {bit : Bool}

/-- The child of a record at a bit: LEFT at 0, RIGHT at 1 (R88). -/
def Node.child (r : Node) : Bool → Nat
  | false => r.left.toNat
  | true => r.right.toNat

@[simp] theorem Node.child_false (r : Node) : r.child false = r.left.toNat := rfl
@[simp] theorem Node.child_true (r : Node) : r.child true = r.right.toNat := rfl

/-! ## The children of an internal node -/

theorem InternalOk.child_lt (h : InternalOk s m) (bit : Bool) : (nodeAt s m).child bit < m := by
  cases bit
  · exact h.left
  · exact h.right

theorem InternalOk.isParent_child (h : InternalOk s m) (bit : Bool) : IsParent s m ((nodeAt s m).child bit) := by
  refine ⟨h.valid, h.inner, ?_⟩
  cases bit
  · exact .inl rfl
  · exact .inr rfl

/-- Queue order is strict, so the two children differ (R78). -/
theorem InternalOk.left_ne_right (h : InternalOk s m) : (nodeAt s m).left.toNat ≠ (nodeAt s m).right.toNat := by
  intro heq
  have hless := queueLess_iff.1 h.order
  rw [heq] at hless
  omega

theorem InternalOk.child_injective (h : InternalOk s m) : Function.Injective (nodeAt s m).child := by
  rintro (_ | _) (_ | _) heq
  · rfl
  · exact absurd heq h.left_ne_right
  · exact absurd heq.symm h.left_ne_right
  · rfl

/-- Every node but the root is a child (R83). -/
theorem TreeOk.exists_eq_child (h : TreeOk s) (hk : k < 2 * nsym s - 2) :
    ∃ m bit, nsym s ≤ m ∧ m < 2 * nsym s - 1 ∧ (nodeAt s m).child bit = k := by
  obtain ⟨m, hparent, -⟩ := h.parents k hk
  obtain ⟨hstart, hend, -⟩ := h.isParent_bounds hparent
  obtain ⟨-, -, hleft | hright⟩ := hparent
  · exact ⟨m, false, hstart, hend, hleft⟩
  · exact ⟨m, true, hstart, hend, hright⟩

/-- What holds of the root, and of a node's children with the node, holds of the whole tree. -/
theorem TreeOk.node_induction (h : TreeOk s) {P : Nat → Prop} (root : P s.root.toNat)
    (child : ∀ m bit, nsym s ≤ m → m < 2 * nsym s - 1 → P m → P ((nodeAt s m).child bit)) {k : Nat}
    (hk : k ≤ 2 * nsym s - 2) : P k := by
  obtain rfl | hlt := hk.eq_or_lt
  · exact h.root ▸ root
  · obtain ⟨m, bit, hstart, hend, rfl⟩ := h.exists_eq_child hlt
    have hbelow := (h.inner m hstart hend).child_lt bit
    exact child m bit hstart hend (h.node_induction root child (by omega))
termination_by 2 * nsym s - 2 - k

/-! ## The parent of a child -/

/-- The search for a parent finds one when there is one. -/
theorem exists_parentOf {cells : Memory Node} {r : Node} (hmem : (m, r) ∈ cells) (hvalid : r.valid = true)
    (hinner : r.leaf = false) (hchild : r.child bit = k) : ∃ m' bit', parentOf k cells = some (m', bit') := by
  induction cells with
  | nil => cases hmem
  | cons cell cells ih =>
    obtain ⟨m', r'⟩ := cell
    rw [parentOf]
    split_ifs with hleft hright
    · exact ⟨_, _, rfl⟩
    · exact ⟨_, _, rfl⟩
    · refine ih ((List.mem_cons.1 hmem).resolve_left fun heq => ?_)
      cases heq
      cases bit
      · exact hleft (by simpa [hvalid, hinner] using hchild)
      · exact hright (by simpa [hvalid, hinner] using hchild)

/-- The search reports the bit at which the node is its parent's child. -/
theorem child_of_parentOf {cells : Memory Node} (h : parentOf k cells = some (m, bit)) :
    ∃ r, (m, r) ∈ cells ∧ r.child bit = k := by
  induction cells with
  | nil => cases h
  | cons cell cells ih =>
    obtain ⟨m', r'⟩ := cell
    rw [parentOf] at h
    split_ifs at h with hleft hright
    · cases h
      exact ⟨r', List.mem_cons_self, beq_iff_eq.1 (Bool.and_eq_true_iff.1 hleft).2⟩
    · cases h
      exact ⟨r', List.mem_cons_self, beq_iff_eq.1 (Bool.and_eq_true_iff.1 hright).2⟩
    · obtain ⟨r, hmem, hr⟩ := ih h
      exact ⟨r, List.mem_cons_of_mem _ hmem, hr⟩

/-- The parent of a child is its node, at its bit (R83, R88). -/
theorem TreeOk.parentOf_child (h : TreeOk s) (hm : MemoriesOk s) (hstart : nsym s ≤ m) (hend : m < 2 * nsym s - 1)
    (bit : Bool) : parentOf ((nodeAt s m).child bit) s.node = some (m, bit) := by
  have hnode := h.inner m hstart hend
  have hbelow := hnode.child_lt bit
  have hlisted : (m, nodeAt s m) ∈ s.node := mem_of_nodeAt_ne_zero fun hzero => by
    have hvalid := hnode.valid
    simp [hzero, Node.zero] at hvalid
  obtain ⟨m', bit', hfound⟩ := exists_parentOf hlisted hnode.valid hnode.inner rfl
  obtain ⟨_, -, hunique⟩ := h.parents ((nodeAt s m).child bit) (by omega)
  obtain rfl : m' = m :=
    (hunique m' (isParent_of_parentOf hm hfound)).trans (hunique m (hnode.isParent_child bit)).symm
  obtain ⟨r, hmem, hchild⟩ := child_of_parentOf hfound
  rw [← nodeAt_of_mem hm hmem] at hchild
  rw [hfound, hnode.child_injective hchild]

/-! ## Paths -/

theorem pathOf_root (nodes : Memory Node) (root fuel : Nat) : pathOf nodes root fuel root = [] := by
  cases fuel
  · rfl
  · exact if_pos rfl

theorem pathOf_of_parentOf_eq_none {nodes : Memory Node} (h : parentOf k nodes = none) (root fuel : Nat) :
    pathOf nodes root fuel k = [] := by
  cases fuel
  · rfl
  · simp [pathOf, h]

theorem pathOf_of_parentOf_eq_some {nodes : Memory Node} {root : Nat} (hk : k ≠ root)
    (h : parentOf k nodes = some (m, bit)) (fuel : Nat) :
    pathOf nodes root (fuel + 1) k = pathOf nodes root fuel m ++ [bit] := by
  simp [pathOf, hk, h]

/-- A climb passes nodes of rising index up to the root, so fuel beyond that changes nothing (R83, R88). -/
theorem TreeOk.pathOf_succ (h : TreeOk s) (hm : MemoriesOk s) {fuel k : Nat} (hfuel : 2 * nsym s - 2 - k ≤ fuel) :
    pathOf s.node s.root.toNat (fuel + 1) k = pathOf s.node s.root.toNat fuel k := by
  by_cases hroot : k = s.root.toNat
  · rw [hroot, pathOf_root, pathOf_root]
  cases hparent : parentOf k s.node with
  | none => rw [pathOf_of_parentOf_eq_none hparent, pathOf_of_parentOf_eq_none hparent]
  | some edge =>
    obtain ⟨m, bit⟩ := edge
    obtain ⟨-, hend, hbelow⟩ := h.isParent_bounds (isParent_of_parentOf hm hparent)
    cases fuel with
    | zero => omega
    | succ fuel =>
      rw [pathOf_of_parentOf_eq_some hroot hparent, pathOf_of_parentOf_eq_some hroot hparent,
        h.pathOf_succ hm (by omega)]

theorem path_root (s : State) : path s s.root.toNat = [] := pathOf_root _ _ _

/-- R88: a child's path is its parent's with the bit of the step appended. -/
theorem TreeOk.path_child (h : TreeOk s) (hm : MemoriesOk s) (hstart : nsym s ≤ m) (hend : m < 2 * nsym s - 1)
    (bit : Bool) : path s ((nodeAt s m).child bit) = path s m ++ [bit] := by
  have hn := nsym_le s
  have hbelow := (h.inner m hstart hend).child_lt bit
  have hne : (nodeAt s m).child bit ≠ s.root.toNat := by
    rw [h.root]
    omega
  calc path s ((nodeAt s m).child bit)
    _ = pathOf s.node s.root.toNat 510 m ++ [bit] :=
      pathOf_of_parentOf_eq_some hne (h.parentOf_child hm hstart hend bit) 510
    _ = path s m ++ [bit] := congrArg (· ++ [bit]) (h.pathOf_succ hm (by omega)).symm

/-- Settles O24: a path is climbed edge by edge. -/
theorem pathsFollowTheTree : Obligations.PathsFollowTheTree := fun s hm h =>
  ⟨path_root s, fun _ hstart hend => ⟨h.path_child hm hstart hend false, h.path_child hm hstart hend true⟩⟩

end Sys2Proof.Machine
end

section
/-! PROOFS. The code book of PHASE READY from its tree: lengths, that no code begins another, and sums over the leaves
(R89, R91, R92). -/

namespace Sys2Proof.Machine

variable {s : State} {b : Byte} {k : Nat}

/-! ## Lengths -/

/-- The code of the symbol at leaf `k` is as long as the leaf's (R87, R89). -/
theorem BookOk.toNat_clenAt (h : BookOk s) (hk : k < nsym s) :
    (clenAt s ((symbols s)[k]'hk)).toNat = (leafCode s k).length := by
  rw [← h.codes k hk, length_codeOf]

/-- A collected byte is the symbol of a leaf (R77). -/
theorem exists_leaf_of_freqAt_ne_zero (hb : freqAt s b ≠ 0) : ∃ k, ∃ hk : k < nsym s, (symbols s)[k]'hk = b :=
  List.getElem_of_mem ((mem_symbols b).2 hb)

/-- R89: a leaf's code has at least one bit, and with two or more symbols at most `n − 1`. -/
theorem TreeOk.length_leafCode (h : TreeOk s) (hm : MemoriesOk s) (hk : k < nsym s) :
    1 ≤ (leafCode s k).length ∧ (2 ≤ nsym s → (leafCode s k).length ≤ nsym s - 1) := by
  by_cases hone : nsym s = 1
  · rw [leafCode_of_one hone]
    exact ⟨le_rfl, fun htwo => absurd hone (by omega)⟩
  · rw [leafCode_of_ne_one hone]
    refine ⟨?_, fun _ => h.length_path_le hm k⟩
    obtain ⟨m, bit, hstart, hend, rfl⟩ := h.exists_eq_child (k := k) (by omega)
    rw [h.path_child hm hstart hend, List.length_append]
    exact Nat.le_add_left 1 _

/-- Settles O25: a collected byte's code is its leaf's, and the book gives no other byte one. -/
theorem codeLengthsAreBounded : Obligations.CodeLengthsAreBounded := by
  intro s h hready
  have htree := h.tree (.inr hready)
  have hbook := h.book hready
  have hbounds : ∀ b, freqAt s b ≠ 0 →
      1 ≤ (clenAt s b).toNat ∧ (2 ≤ nsym s → (clenAt s b).toNat ≤ nsym s - 1) := fun b hb => by
    obtain ⟨k, hk, rfl⟩ := exists_leaf_of_freqAt_ne_zero hb
    rw [hbook.toNat_clenAt hk]
    exact htree.length_leafCode h.memories hk
  refine ⟨hbounds, fun b => ⟨fun hzero => ?_, fun hb => (hbook.absent b hb).1⟩, fun hone b hb => ?_⟩
  · by_contra hb
    have hpos := (hbounds b hb).1
    rw [hzero] at hpos
    exact absurd hpos (by decide)
  · obtain ⟨k, hk, rfl⟩ := exists_leaf_of_freqAt_ne_zero hb
    rw [hbook.codes k hk, leafCode_of_one hone]

/-! ## No code begins another -/

/-- Each node has a path of its own: the last bit and the rest of the path name its parent's edge to it (R88). -/
theorem TreeOk.path_injective (h : TreeOk s) (hm : MemoriesOk s) {j : Nat} (hj : j ≤ 2 * nsym s - 2)
    (hk : k ≤ 2 * nsym s - 2) (heq : path s j = path s k) : j = k := by
  revert j
  refine h.node_induction (P := fun k => ∀ {j}, j ≤ 2 * nsym s - 2 → path s j = path s k → j = k) ?root ?child hk
  case root =>
    intro j hj heq
    obtain rfl | hlt := hj.eq_or_lt
    · exact h.root.symm
    · obtain ⟨m, bit, hstart, hend, rfl⟩ := h.exists_eq_child hlt
      rw [h.path_child hm hstart hend, path_root] at heq
      exact absurd heq (by simp)
  case child =>
    intro m bit hstart hend ih j hj heq
    rw [h.path_child hm hstart hend] at heq
    obtain rfl | hlt := hj.eq_or_lt
    · rw [← h.root, path_root] at heq
      exact absurd heq (by simp)
    · obtain ⟨m', bit', hstart', hend', rfl⟩ := h.exists_eq_child hlt
      rw [h.path_child hm hstart' hend'] at heq
      obtain ⟨hpath, hbit⟩ := List.append_inj' heq rfl
      rw [ih (by omega) hpath, List.singleton_inj.1 hbit]

/-- What stands before the end of a path is the path of an internal node (R88). -/
theorem TreeOk.exists_path_eq_of_prefix (h : TreeOk s) (hm : MemoriesOk s) {p : List Bool}
    (hk : k ≤ 2 * nsym s - 2) (hprefix : p <+: path s k) (hne : p ≠ path s k) :
    ∃ m, nsym s ≤ m ∧ m < 2 * nsym s - 1 ∧ path s m = p := by
  revert hprefix hne
  refine h.node_induction (P := fun k => p <+: path s k → p ≠ path s k → _) ?root ?child hk
  case root =>
    intro hprefix hne
    rw [path_root] at hprefix hne
    exact absurd (List.prefix_nil.1 hprefix) hne
  case child =>
    intro m bit hstart hend ih hprefix hne
    rw [h.path_child hm hstart hend] at hprefix hne
    have hbefore := (List.prefix_concat_iff.1 hprefix).resolve_left hne
    by_cases heq : p = path s m
    · exact ⟨m, hstart, hend, heq.symm⟩
    · exact ih hbefore heq

/-- R91: a leaf's code is no beginning of another's, since what is one is an internal node's path. -/
theorem TreeOk.eq_of_leafCode_prefix (h : TreeOk s) (hm : MemoriesOk s) {j : Nat} (hj : j < nsym s) (hk : k < nsym s)
    (hprefix : leafCode s j <+: leafCode s k) : j = k := by
  by_cases hone : nsym s = 1
  · omega
  rw [leafCode_of_ne_one hone, leafCode_of_ne_one hone] at hprefix
  by_cases heq : path s j = path s k
  · exact h.path_injective hm (by omega) (by omega) heq
  · obtain ⟨m, hstart, hend, hpath⟩ := h.exists_path_eq_of_prefix hm (by omega) hprefix heq
    have hmj := h.path_injective hm (by omega) (by omega) hpath
    omega

/-! ## Sums over the leaves -/

open Finset (range Ico)

/-- A sum over the symbols is one over the leaves (R77). -/
theorem sum_symbols_eq_sum_leaves {f : Byte → Nat} {g : Nat → Nat}
    (hfg : ∀ k, (hk : k < nsym s) → f ((symbols s)[k]'hk) = g k) :
    ((symbols s).map f).sum = ∑ k ∈ range (nsym s), g k := by
  rw [← Fin.sum_univ_fun_getElem, Finset.sum_range]
  exact Finset.sum_congr rfl fun k _ => hfg k k.isLt

/-- Every node but the root is the child of one internal node at one bit (R83), so the sum over the former is the sum
over the children of the latter. -/
theorem TreeOk.sum_children (h : TreeOk s) (hm : MemoriesOk s) (g : Nat → Nat) :
    ∑ m ∈ Ico (nsym s) (2 * nsym s - 1), (g ((nodeAt s m).left.toNat) + g ((nodeAt s m).right.toNat)) =
      ∑ k ∈ range (2 * nsym s - 2), g k := by
  have hsplit : ∀ m, g ((nodeAt s m).left.toNat) + g ((nodeAt s m).right.toNat) =
      ∑ bit : Bool, g ((nodeAt s m).child bit) := fun m => by
    rw [Fintype.sum_bool, add_comm]
    rfl
  simp only [hsplit, ← Finset.sum_product']
  refine Finset.sum_nbij (fun edge => (nodeAt s edge.1).child edge.2) ?maps ?injective ?surjective fun _ _ => rfl
  case maps =>
    rintro ⟨m, bit⟩ hedge
    obtain ⟨hstart, hend⟩ : nsym s ≤ m ∧ m < 2 * nsym s - 1 := by simpa using hedge
    have hbelow := (h.inner m hstart hend).child_lt bit
    exact Finset.mem_range.2 (hbelow.trans_le (by omega))
  case injective =>
    rintro ⟨m, bit⟩ hedge ⟨m', bit'⟩ hedge' heq
    obtain ⟨hstart, hend⟩ : nsym s ≤ m ∧ m < 2 * nsym s - 1 := by simpa using hedge
    obtain ⟨hstart', hend'⟩ : nsym s ≤ m' ∧ m' < 2 * nsym s - 1 := by simpa using hedge'
    refine Option.some.inj ?_
    rw [← h.parentOf_child hm hstart hend, ← h.parentOf_child hm hstart' hend']
    exact congrArg (parentOf · s.node) heq
  case surjective =>
    intro k hk
    obtain ⟨m, bit, hstart, hend, rfl⟩ := h.exists_eq_child (Finset.mem_range.1 hk)
    exact ⟨(m, bit), by simp [hstart, hend], rfl⟩

/-- When each internal node's two children have `g` of their parent and `d` more between them, the leaves have `g` of
the root and all of `d`. -/
theorem TreeOk.sum_leaves (h : TreeOk s) (hm : MemoriesOk s) {g d : Nat → Nat}
    (hgd : ∀ m, nsym s ≤ m → m < 2 * nsym s - 1 →
      g ((nodeAt s m).left.toNat) + g ((nodeAt s m).right.toNat) = g m + d m) :
    ∑ k ∈ range (nsym s), g k = g s.root.toNat + ∑ m ∈ Ico (nsym s) (2 * nsym s - 1), d m := by
  have hpos := h.size
  have hleaves : ∑ k ∈ range (nsym s), g k + ∑ m ∈ Ico (nsym s) (2 * nsym s - 1), g m =
      ∑ k ∈ range (2 * nsym s - 2), g k + g s.root.toNat := by
    rw [h.root, ← Finset.sum_range_succ, show 2 * nsym s - 2 + 1 = 2 * nsym s - 1 by omega]
    exact Finset.sum_range_add_sum_Ico g (by omega)
  have hchildren : ∑ k ∈ range (2 * nsym s - 2), g k =
      ∑ m ∈ Ico (nsym s) (2 * nsym s - 1), g m + ∑ m ∈ Ico (nsym s) (2 * nsym s - 1), d m := by
    rw [← h.sum_children hm, ← Finset.sum_add_distrib]
    refine Finset.sum_congr rfl fun m hmem => ?_
    obtain ⟨hstart, hend⟩ := Finset.mem_Ico.1 hmem
    exact hgd m hstart hend
  omega

/-- R91: the Kraft sum of the leaves' paths, times `2^255`. -/
theorem TreeOk.kraft (h : TreeOk s) (hm : MemoriesOk s) :
    ∑ k ∈ range (nsym s), 2 ^ (255 - (path s k).length) = 2 ^ 255 := by
  rw [h.sum_leaves hm (g := fun k => 2 ^ (255 - (path s k).length)) (d := fun _ => 0) fun m hstart hend => ?_]
  · simp [path_root]
  · have hleft := h.path_child hm hstart hend false
    have hright := h.path_child hm hstart hend true
    have hbound := h.length_path_le hm (nodeAt s m).left.toNat
    have hn := nsym_le s
    simp only [Node.child_false, Node.child_true] at hleft hright
    rw [hleft, List.length_append, List.length_singleton] at hbound
    obtain ⟨e, he⟩ : ∃ e, 255 - (path s m).length = e + 1 := ⟨254 - (path s m).length, by omega⟩
    have he' : 255 - ((path s m).length + 1) = e := by omega
    simp only [hleft, hright, List.length_append, List.length_singleton, he, he', add_zero, pow_succ, mul_two]

/-- Settles O26: the codes are the leaves' paths. -/
theorem codesArePrefixFree : Obligations.CodesArePrefixFree := by
  intro s h hready
  have htree := h.tree (.inr hready)
  have hbook := h.book hready
  refine ⟨fun b c hb hc hne hprefix => ?_, fun htwo => ?_⟩
  · obtain ⟨j, hj, rfl⟩ := exists_leaf_of_freqAt_ne_zero hb
    obtain ⟨k, hk, rfl⟩ := exists_leaf_of_freqAt_ne_zero hc
    rw [hbook.codes j hj, hbook.codes k hk] at hprefix
    obtain rfl := htree.eq_of_leafCode_prefix h.memories hj hk hprefix
    exact hne rfl
  · refine (sum_symbols_eq_sum_leaves fun k hk => ?_).trans (htree.kraft h.memories)
    rw [hbook.toNat_clenAt hk, leafCode_of_ne_one (by omega)]

/-- R92: the leaves' weighted depths sum to the internal nodes' frequencies, each of which counts the leaves below it
once. -/
theorem TreeOk.sum_weighted (h : TreeOk s) (hm : MemoriesOk s) :
    ∑ k ∈ range (nsym s), (nodeAt s k).f.toNat * (path s k).length =
      ∑ m ∈ Ico (nsym s) (2 * nsym s - 1), (nodeAt s m).f.toNat := by
  rw [h.sum_leaves hm (g := fun k => (nodeAt s k).f.toNat * (path s k).length)
    (d := fun m => (nodeAt s m).f.toNat) fun m hstart hend => ?_]
  · simp [path_root]
  · have hleft := h.path_child hm hstart hend false
    have hright := h.path_child hm hstart hend true
    simp only [Node.child_false, Node.child_true] at hleft hright
    simp only [hleft, hright, List.length_append, List.length_singleton, (h.inner m hstart hend).sum]
    ring

/-- Settles O27: one symbol has one bit a count, and more have their leaves' depths. -/
theorem weightedLengthIsTheInternalSum : Obligations.WeightedLengthIsTheInternalSum := by
  intro s h hready
  have htree := h.tree (.inr hready)
  have hbook := h.book hready
  split_ifs with hone
  · rw [h.counts.sum, ← sum_symbols]
    refine congrArg List.sum (List.map_congr_left fun b hb => ?_)
    obtain ⟨k, hk, rfl⟩ := List.getElem_of_mem hb
    rw [hbook.toNat_clenAt hk, leafCode_of_one hone, List.length_singleton, mul_one]
  · calc ((symbols s).map (fun b => (freqAt s b).toNat * (clenAt s b).toNat)).sum
      _ = ∑ k ∈ range (nsym s), (nodeAt s k).f.toNat * (path s k).length :=
        sum_symbols_eq_sum_leaves fun k hk => by
          rw [hbook.toNat_clenAt hk, leafCode_of_ne_one hone, htree.leaves k hk]
          rfl
      _ = ∑ m ∈ Ico (nsym s) (2 * nsym s - 1), (nodeAt s m).f.toNat := htree.sum_weighted h.memories
      _ = ∑ i ∈ range (nsym s - 1), (nodeAt s (nsym s + i)).f.toNat := by
        rw [Finset.sum_Ico_eq_sum_range, show 2 * nsym s - 1 - nsym s = nsym s - 1 by omega]

end Sys2Proof.Machine
end

section
/-! PROOFS. The encoder's two passes (R94, R96 to R98), in words about the bytes `WBUF[0 .. WLEN−1]`. -/

namespace Sys2Proof.Machine

variable {s t : State} {b : Byte} {bs : List Byte} {i j : Nat}

/-! ## The lookup pass -/

/-- The lookup pass reads CLEN alone (R94). -/
theorem firstUnknown_congr (h : t.clen = s.clen) : firstUnknown t j bs = firstUnknown s j bs := by
  have hclen : clenAt t = clenAt s := by simp only [funext_iff, clenAt, h, implies_true]
  induction bs generalizing j with
  | nil => rfl
  | cons b bs ih => simp only [firstUnknown, hclen, ih]

/-- The lookup pass reports a byte when one has no code (R96). -/
theorem isSome_firstUnknown : (firstUnknown s j bs).isSome = bs.any (fun b => clenAt s b == 0) := by
  induction bs generalizing j with
  | nil => rfl
  | cons b bs ih =>
    rw [firstUnknown, List.any_cons]
    split_ifs with hb
    · simp [hb]
    · rw [ih, beq_false_of_ne hb, Bool.false_or]

/-- R96: the byte reported is the first one with no code. -/
theorem firstUnknown_eq_some (hj : bs[j]? = some b) (hb : clenAt s b = 0) (hknown : ∀ c ∈ bs.take j, clenAt s c ≠ 0) :
    firstUnknown s i bs = some (i + j, b) := by
  induction bs generalizing i j with
  | nil => simp at hj
  | cons c bs ih =>
    cases j with
    | zero =>
      obtain rfl : c = b := by simpa using hj
      exact if_pos hb
    | succ j =>
      rw [List.take_succ_cons, List.forall_mem_cons] at hknown
      rw [firstUnknown, if_neg hknown.1, ih (by simpa using hj) hknown.2, Nat.add_right_comm, Nat.add_assoc]

theorem isSome_firstUnknown_wordBytes (s : State) :
    (firstUnknown s 0 (wordBytes s)).isSome =
      (List.range s.wlen.toNat).any (fun j => clenAt s (wbufAt s j) == 0) := by
  rw [isSome_firstUnknown, wordBytes, List.any_map]
  rfl

theorem firstUnknown_wordBytes_eq_none (h : ∀ j, j < s.wlen.toNat → clenAt s (wbufAt s j) ≠ 0) :
    firstUnknown s 0 (wordBytes s) = none := by
  rw [← Option.not_isSome_iff_eq_none, isSome_firstUnknown_wordBytes]
  simpa using h

theorem firstUnknown_wordBytes_eq_some (hj : j < s.wlen.toNat) (hb : clenAt s (wbufAt s j) = 0)
    (hknown : ∀ i, i < j → clenAt s (wbufAt s i) ≠ 0) : firstUnknown s 0 (wordBytes s) = some (j, wbufAt s j) := by
  have hbyte : (wordBytes s)[j]? = some (wbufAt s j) := by simp [wordBytes, hj]
  have hbefore : ∀ c ∈ (wordBytes s).take j, clenAt s c ≠ 0 := by
    simpa [wordBytes, ← List.map_take, List.take_range, Nat.min_eq_left hj.le] using hknown
  rw [firstUnknown_eq_some hbyte hb hbefore, Nat.zero_add]

/-- The three fields of UNKNOWN_SYMBOL's detail (R96). -/
theorem unknownInfo_fields (j : Nat) (b : Byte) :
    (unknownInfo j b).extractLsb' 0 8 = b ∧ (unknownInfo j b).extractLsb' 8 8 = 0 ∧
      (unknownInfo j b).extractLsb' 16 16 = BitVec.ofNat 16 j := by
  refine ⟨?_, ?_, ?_⟩
  · rw [unknownInfo, BitVec.extractLsb'_append_eq_of_add_le (by decide), BitVec.extractLsb'_eq_self]
  · rw [unknownInfo, BitVec.extractLsb'_append_eq_of_le (by decide), BitVec.extractLsb'_append_eq_of_add_le (by decide),
      BitVec.extractLsb'_eq_self]
    rfl
  · rw [unknownInfo, BitVec.extractLsb'_append_eq_of_le (by decide), BitVec.extractLsb'_append_eq_of_le (by decide),
      BitVec.extractLsb'_eq_self]

/-! ## The packing pass -/

/-- The number of bits counted, byte by byte of the word (R94). -/
theorem encodedLength_wordBytes (s : State) :
    encodedLength s (wordBytes s) = ((List.range s.wlen.toNat).map (fun j => (clenAt s (wbufAt s j)).toNat)).sum := by
  rw [encodedLength, wordBytes, List.map_map]
  rfl

/-- The bits packed, byte by byte of the word (R98). -/
theorem encodedBits_wordBytes (s : State) :
    encodedBits s (wordBytes s) = (List.range s.wlen.toNat).flatMap (fun j => codeOf s (wbufAt s j)) :=
  List.flatMap_map ..

/-- R94: a word's codes have at most 65535 · 255 bits, so that their number fits in ERRINFO. -/
theorem encodedLength_wordBytes_lt (s : State) : encodedLength s (wordBytes s) < 2 ^ 32 := by
  have hcodes : encodedLength s (wordBytes s) ≤ (wordBytes s).length * 255 := by
    have hbyte : ∀ n ∈ (wordBytes s).map (fun b => (clenAt s b).toNat), n ≤ 255 :=
      List.forall_mem_map.2 fun b _ => Nat.le_of_lt_succ (clenAt s b).isLt
    simpa [encodedLength] using List.sum_le_card_nsmul _ 255 hbyte
  have hword : (wordBytes s).length < 2 ^ 16 := by simpa [wordBytes] using s.wlen.isLt
  omega

end Sys2Proof.Machine
end

section
/-! PROOFS. How ENCODE completes (R94 to R100): its success, the unknown byte, its frame and what a failure leaves. -/

namespace Sys2Proof.Machine

variable {s t : State} {b : Byte} {j : Nat}

/-- The state a successful ENCODE leaves (R94). -/
def encoded (s : State) : State :=
  complete { s with
    obuf := Memory.writeList false [] 0 (encodedBits s (wordBytes s))
    olen := BitVec.ofNat 16 (encodedLength s (wordBytes s)) }

theorem execEncode_unknown (hphase : s.phase = .ready) (hlen : s.wlen.toNat ≤ s.params.maxWord)
    (h : firstUnknown s 0 (wordBytes s) = some (j, b)) :
    execEncode s = .next (raise .unknownSymbol (unknownInfo j b) (clearEncoded s)) := by
  have hunknown : firstUnknown (clearEncoded s) 0 (wordBytes (clearEncoded s)) = some (j, b) :=
    (firstUnknown_clearEncoded ..).trans h
  refine (if_neg (not_not.2 hphase)).trans ((if_neg (Nat.not_lt.2 hlen)).trans ?_)
  rw [hunknown]

theorem execEncode_encoded (hphase : s.phase = .ready) (hlen : s.wlen.toNat ≤ s.params.maxWord)
    (h : firstUnknown s 0 (wordBytes s) = none) (hroom : encodedLength s (wordBytes s) ≤ s.params.maxBits) :
    execEncode s = .next (encoded s) := by
  have hknown : firstUnknown (clearEncoded s) 0 (wordBytes (clearEncoded s)) = none :=
    (firstUnknown_clearEncoded ..).trans h
  have hfits : encodedLength (clearEncoded s) (wordBytes (clearEncoded s)) ≤ s.params.maxBits := hroom
  refine (if_neg (not_not.2 hphase)).trans ((if_neg (Nat.not_lt.2 hlen)).trans ?_)
  rw [hknown]
  exact if_neg (Nat.not_lt.2 hfits)

/-- Settles O28: the hypotheses are the tests of ENCODE, and the packing pass writes the bits of the codes into an empty
OBUF. -/
theorem encodeConcatenatesTheCodes : Obligations.EncodeConcatenatesTheCodes := by
  intro s hlegal hphase hlen hknown hroom
  rw [← encodedLength_wordBytes] at hroom ⊢
  obtain ⟨-, -, hbits⟩ := legal_bounds hlegal
  have hnone := firstUnknown_wordBytes_eq_none hknown
  refine ⟨encoded s, execEncode_encoded hphase hlen hnone hroom, rfl, ?olen, fun i => ?obuf⟩
  case olen => exact Nat.mod_eq_of_lt (by omega)
  case obuf =>
    rw [← encodedBits_wordBytes]
    exact read_writeList_nil false _ i

/-- Settles O30: the first byte with no code ends the lookup pass, and in READY the code book gives codes to the
collected bytes alone (O25). -/
theorem encodeReportsTheFirstUnknownByte : Obligations.EncodeReportsTheFirstUnknownByte := by
  refine ⟨fun s j hphase hlen hj hzero hknown => ?_, fun s b h hready => (codeLengthsAreBounded s h hready).2.1 b⟩
  obtain ⟨hbyte, hgap, hindex⟩ := unknownInfo_fields j (wbufAt s j)
  refine ⟨unknownInfo j (wbufAt s j), hbyte, hgap, ?_,
    execEncode_unknown hphase hlen (firstUnknown_wordBytes_eq_some hj hzero hknown)⟩
  rw [hindex]
  exact Nat.mod_eq_of_lt (hj.trans s.wlen.isLt)

/-- R41: before READY there is nothing in OBUF. -/
theorem Inv.obuf_eq_nil (h : Inv s) (hphase : s.phase ≠ .ready) : s.obuf = [] := by
  have holen : s.olen = 0 := h.stages.noEncoded hphase
  refine Memory.eq_of_read_eq false _ _ h.memories.obuf.1 (Memory.wf_nil false) fun i => ?_
  exact h.outputs.obuf i (by simp [holen])

/-- Settles O31: every `raise` of ENCODE stands on the cleared output, and before READY the output is clear already. -/
theorem failedEncodeLeavesNoOutput : Obligations.FailedEncodeLeavesNoOutput := by
  refine ⟨fun s t h hfailed => ?failed, fun s t hinv hphase h => ?early⟩
  case failed =>
    obtain ⟨-, rfl⟩ | ⟨-, -, rfl⟩ | ⟨j, b, -, -, -, rfl⟩ | ⟨-, -, -, -, rfl⟩ | ⟨-, -, -, -, rfl⟩ := execEncode_cases h
    case inr.inr.inr.inr => exact absurd rfl hfailed
    all_goals exact ⟨rfl, fun _ => rfl⟩
  case early =>
    obtain ⟨-, rfl⟩ | ⟨hready, -⟩ | ⟨j, b, hready, -⟩ | ⟨hready, -⟩ | ⟨hready, -⟩ := execEncode_cases h
    case inl => exact ⟨(hinv.stages.noEncoded hphase).symm, (hinv.obuf_eq_nil hphase).symm⟩
    all_goals exact absurd hready hphase

/-- ENCODE overwrites what it writes without reading it (R95, R100). -/
theorem execEncode_overwrites (s : State) (obuf : Memory Bool) (olen : BitVec 16) (err : Bool) (ecode : ErrCode)
    (errinfo : Word) (pend : Option Word) :
    execEncode { s with obuf := obuf, olen := olen, err := err, ecode := ecode, errinfo := errinfo, pend := pend } =
      execEncode s := by
  unfold execEncode
  dsimp only
  rw [firstUnknown_congr (s := clearEncoded s)]
  · rfl
  · rfl

/-- Settles O32: ENCODE's frame names the fields that it writes, and it overwrites them. -/
theorem encodeWritesOnlyItsOutput : Obligations.EncodeWritesOnlyItsOutput := by
  intro s t h
  have hframe := execEncode_frame h
  refine ⟨hframe, ?_⟩
  calc execEncode t = execEncode s := by rw [hframe, execEncode_overwrites]
    _ = .next t := h

end Sys2Proof.Machine
end

section
/-! PROOFS. The cursor of DECODE (R102, R103): `walk` moves it as `cursorAfter` says, bit by bit of IBUF. -/

namespace Sys2Proof.Machine

variable {s : State} {n m k : Nat} {c c' : Cursor}

/-- The bits `IBUF[n .. n+m−1]`. -/
def inputBitsFrom (s : State) (n m : Nat) : List Bool := (List.range' n m).map (ibufAt s)

theorem inputBits_eq_inputBitsFrom (s : State) : inputBits s = inputBitsFrom s 0 s.ilen.toNat := by
  rw [inputBits, inputBitsFrom, List.range_eq_range']

/-- One bit moves the cursor as one step of the walk does (R102). -/
theorem cursorAfter_succ (h : cursorAfter s n = some c.cur) :
    cursorAfter s (n + 1) = (walkBit s n (ibufAt s n) c).map Cursor.cur := by
  simp only [cursorAfter, h, walkBit]
  split_ifs <;> rfl

/-- Once a bit has had no path, no later one has (R104). -/
theorem cursorAfter_succ_eq_none (h : cursorAfter s n = none) : cursorAfter s (n + 1) = none := by
  simp only [cursorAfter, h]

/-- Some bit among the first `n` has no path when the cursor has none after them. -/
theorem any_isNone_cursorAfter (s : State) (n : Nat) :
    (List.range n).any (fun i => (cursorAfter s (i + 1)).isNone) = (cursorAfter s n).isNone := by
  induction n with
  | zero => rfl
  | succ n ih =>
    rw [List.range_succ, List.any_append, ih, List.any_cons, List.any_nil, Bool.or_false]
    cases h : cursorAfter s n with
    | none => rw [cursorAfter_succ_eq_none h]; rfl
    | some cur => rfl

/-- A walk that ends leaves the cursor that `cursorAfter` names (R102). -/
theorem cursorAfter_of_walk_eq_ok (h : cursorAfter s n = some c.cur)
    (hwalk : walk s n c (inputBitsFrom s n m) = .ok c') :
    cursorAfter s (n + m) = some c'.cur := by
  induction m generalizing n c with
  | zero => cases hwalk; exact h
  | succ m ih =>
    have hnext := cursorAfter_succ h
    simp only [inputBitsFrom, List.range'_succ, List.map_cons, walk] at hwalk
    split at hwalk
    · cases hwalk
    · rename_i c1 hbit
      rw [hbit] at hnext
      rw [← Nat.succ_add_eq_add_succ]
      exact ih hnext hwalk

/-- A walk that stops does so at the first bit with no path (R104). -/
theorem cursorAfter_of_walk_eq_error (h : cursorAfter s n = some c.cur)
    (hwalk : walk s n c (inputBitsFrom s n m) = .error k) :
    k < n + m ∧ cursorAfter s k ≠ none ∧ cursorAfter s (k + 1) = none := by
  induction m generalizing n c with
  | zero => cases hwalk
  | succ m ih =>
    have hnext := cursorAfter_succ h
    simp only [inputBitsFrom, List.range'_succ, List.map_cons, walk] at hwalk
    split at hwalk
    · rename_i hbit
      cases hwalk
      rw [hbit] at hnext
      exact ⟨by omega, by simp [h], hnext⟩
    · rename_i c1 hbit
      rw [hbit] at hnext
      rw [← Nat.succ_add_eq_add_succ]
      exact ih hnext hwalk

end Sys2Proof.Machine
end

section
/-! PROOFS. The error ENCODE and DECODE report is the first that applies (R94, R102, R118, R121). -/

namespace Sys2Proof.Machine

variable {s t : State}

/-- The error of ENCODE, by its tests in their order (R94, R121). -/
theorem execEncode_ecode (h : execEncode s = .next t) :
    t.ecode =
      if s.phase ≠ .ready then .sequenceError
      else if s.params.maxWord < s.wlen.toNat then .lengthRange
      else if (firstUnknown s 0 (wordBytes s)).isSome then .unknownSymbol
      else if s.params.maxBits < encodedLength s (wordBytes s) then .outputOverflow
      else .ok := by
  obtain ⟨hphase, rfl⟩ | ⟨hphase, hlen, rfl⟩ | ⟨j, b, hphase, hlen, hunknown, rfl⟩ |
    ⟨hphase, hlen, hknown, hroom, rfl⟩ | ⟨hphase, hlen, hknown, hroom, rfl⟩ := execEncode_cases h
  · rw [if_pos hphase, raise_ecode]
  · rw [if_neg (not_not.2 hphase), if_pos hlen, raise_ecode]
  · rw [if_neg (not_not.2 hphase), if_neg (Nat.not_lt.2 hlen), hunknown, if_pos Option.isSome_some, raise_ecode]
  · rw [if_neg (not_not.2 hphase), if_neg (Nat.not_lt.2 hlen), hknown, if_neg nofun, if_pos hroom, raise_ecode]
  · rw [if_neg (not_not.2 hphase), if_neg (Nat.not_lt.2 hlen), hknown, if_neg nofun, if_neg (Nat.not_lt.2 hroom),
      complete_ecode]

/-- The detail words of ENCODE (R94, R97, R118). -/
theorem execEncode_errinfo (h : execEncode s = .next t) :
    (t.ecode = .sequenceError → t.errinfo = encode .encode) ∧
    (t.ecode = .lengthRange → t.errinfo = s.wlen.setWidth 32) ∧
    (t.ecode = .outputOverflow → t.errinfo.toNat = encodedLength s (wordBytes s)) := by
  obtain ⟨-, rfl⟩ | ⟨-, -, rfl⟩ | ⟨j, b, -, -, -, rfl⟩ | ⟨-, -, -, -, rfl⟩ | ⟨-, -, -, -, rfl⟩ := execEncode_cases h
  · exact ⟨fun _ => rfl, nofun, nofun⟩
  · exact ⟨nofun, fun _ => rfl, nofun⟩
  · exact ⟨nofun, nofun, nofun⟩
  · exact ⟨nofun, nofun, fun _ => Nat.mod_eq_of_lt (encodedLength_wordBytes_lt s)⟩
  · exact ⟨nofun, nofun, nofun⟩

/-- The walk of DECODE ends with the cursor that `cursorAfter` names, which then had a path for every bit (R102). -/
theorem cursorAfter_of_walk_inputBits_eq_ok {c : Cursor} (h : walk s 0 (walkStart s) (inputBits s) = .ok c) :
    cursorAfter s s.ilen.toNat = some c.cur := by
  rw [inputBits_eq_inputBitsFrom] at h
  simpa using cursorAfter_of_walk_eq_ok rfl h

/-- The walk of DECODE stops at the first bit with no path (R104). -/
theorem cursorAfter_of_walk_inputBits_eq_error {i : Nat} (h : walk s 0 (walkStart s) (inputBits s) = .error i) :
    i < s.ilen.toNat ∧ cursorAfter s i ≠ none ∧ cursorAfter s (i + 1) = none := by
  rw [inputBits_eq_inputBitsFrom] at h
  simpa using cursorAfter_of_walk_eq_error rfl h

/-- The error of DECODE, by its tests in their order (R102, R121). -/
theorem execDecode_ecode (h : execDecode s = .next t) :
    t.ecode =
      if s.phase ≠ .built ∧ s.phase ≠ .ready then .sequenceError
      else if s.params.maxBits < s.ilen.toNat then .lengthRange
      else if (List.range s.ilen.toNat).any (fun i => (cursorAfter s (i + 1)).isNone) then .invalidCode
      else if cursorAfter s s.ilen.toNat ≠ some s.root then .truncatedCode
      else .ok := by
  have hlate : s.phase = .built ∨ s.phase = .ready → ¬ (s.phase ≠ .built ∧ s.phase ≠ .ready) :=
    fun hphase hearly => hphase.elim hearly.1 hearly.2
  obtain ⟨hphase, rfl⟩ | ⟨hphase, hlen, rfl⟩ | ⟨i, hphase, hlen, hwalk, rfl⟩ | ⟨c, hphase, hlen, hwalk, hcur, rfl⟩ |
    ⟨c, hphase, hlen, hwalk, hcur, rfl⟩ := execDecode_cases h
  · rw [if_pos (not_or.1 ((not_built_or_ready_iff _).2 hphase)), raise_ecode]
  · rw [if_neg (hlate hphase), if_pos hlen, raise_ecode]
  · obtain ⟨hi, -, hnone⟩ := cursorAfter_of_walk_inputBits_eq_error hwalk
    have hany : (List.range s.ilen.toNat).any (fun i => (cursorAfter s (i + 1)).isNone) = true :=
      List.any_eq_true.2 ⟨i, List.mem_range.2 hi, by rw [hnone, Option.isNone_none]⟩
    rw [if_neg (hlate hphase), if_neg (Nat.not_lt.2 hlen), if_pos hany, raise_ecode]
  · rw [if_neg (hlate hphase), if_neg (Nat.not_lt.2 hlen), any_isNone_cursorAfter,
      cursorAfter_of_walk_inputBits_eq_ok hwalk, if_neg nofun, if_pos (mt Option.some.inj hcur), raise_ecode]
  · rw [if_neg (hlate hphase), if_neg (Nat.not_lt.2 hlen), any_isNone_cursorAfter,
      cursorAfter_of_walk_inputBits_eq_ok hwalk, if_neg nofun, if_neg (not_not.2 (congrArg some hcur)), complete_ecode]

/-- The detail words of DECODE (R102, R104, R118). -/
theorem execDecode_errinfo (h : execDecode s = .next t) :
    (t.ecode = .sequenceError → t.errinfo = encode .decode) ∧
    (t.ecode = .lengthRange → t.errinfo = s.ilen.setWidth 32) ∧
    (t.ecode = .invalidCode →
      t.errinfo.toNat < s.ilen.toNat ∧ cursorAfter s t.errinfo.toNat ≠ none ∧
      cursorAfter s (t.errinfo.toNat + 1) = none) := by
  obtain ⟨-, rfl⟩ | ⟨-, -, rfl⟩ | ⟨i, -, -, hwalk, rfl⟩ | ⟨c, -, -, -, -, rfl⟩ | ⟨c, -, -, -, -, rfl⟩ :=
    execDecode_cases h
  · exact ⟨fun _ => rfl, nofun, nofun⟩
  · exact ⟨nofun, fun _ => rfl, nofun⟩
  · have hbit := cursorAfter_of_walk_inputBits_eq_error hwalk
    have hi : (BitVec.ofNat 32 i).toNat = i :=
      Nat.mod_eq_of_lt (hbit.1.trans (s.ilen.isLt.trans (by decide)))
    refine ⟨nofun, nofun, fun _ => ?_⟩
    rwa [raise_errinfo, hi]
  · exact ⟨nofun, nofun, nofun⟩
  · exact ⟨nofun, nofun, nofun⟩

/-- Settles O29: both commands test in the order of R121, and the lookup pass and the walk find what the statement's own
scans of WBUF and IBUF find. -/
theorem encodeAndDecodeReportTheFirstError : Obligations.EncodeAndDecodeReportTheFirstError := by
  refine ⟨fun s t h => ?encode, fun s t h => ⟨execDecode_ecode h, execDecode_errinfo h⟩⟩
  case encode =>
    rw [← encodedLength_wordBytes, ← isSome_firstUnknown_wordBytes]
    exact ⟨execEncode_ecode h, execEncode_errinfo h⟩

end Sys2Proof.Machine
end

section
/-! PROOFS. The walk of DECODE in a tree (R102, R103): the bits of whole codes bring the cursor back to the root with their
leaves' bytes, those of a path bring it to the path's node, and all bits are whole codes and then a path. -/

namespace Sys2Proof.Machine

variable {s t : State} {i k m : Nat} {bit : Bool} {c c' : Cursor} {bits rest : List Bool} {ks : List Nat}

/-! ## The walk as a function -/

/-- The walk reads NODE and ROOT alone (R102). -/
theorem walk_congr (hnode : t.node = s.node) (hroot : t.root = s.root) : walk t i c bits = walk s i c bits := by
  induction bits generalizing i c with
  | nil => rfl
  | cons bit bits ih =>
    have hbit : walkBit t i bit c = walkBit s i bit c := by
      cases s; cases t; cases hnode; cases hroot
      rfl
    simp only [walk, hbit, ih]

theorem walkStart_congr (hroot : t.root = s.root) : walkStart t = walkStart s := by rw [walkStart, hroot, walkStart]

/-- A walk goes on from the cursor at which it stands. -/
theorem walk_append (h : walk s i c bits = .ok c') :
    walk s i c (bits ++ rest) = walk s (i + bits.length) c' rest := by
  induction bits generalizing i c with
  | nil => cases h; rfl
  | cons bit bits ih =>
    simp only [List.cons_append, walk] at h ⊢
    split at h
    · cases h
    · rw [ih h, List.length_cons, Nat.add_assoc, Nat.add_comm 1]

theorem walk_cons (h : walkBit s i bit c = some c') : walk s i c (bit :: bits) = walk s (i + 1) c' bits := by
  simp only [walk, h]

/-! ## One bit -/

/-- At an internal node a bit leads to a child: a leaf decodes to its byte, and an internal node is the next cursor
(R102). -/
theorem walkBit_inner (hinner : (nodeAt s c.cur.toNat).leaf = false) :
    walkBit s i bit c =
      if (nodeAt s ((nodeAt s c.cur.toNat).child bit)).leaf then
        some { cur := s.root, out := c.out ++ [(nodeAt s ((nodeAt s c.cur.toNat).child bit)).sym], start := i + 1 }
      else some { c with cur := BitVec.ofNat 9 ((nodeAt s c.cur.toNat).child bit) } := by
  cases bit <;> simp [walkBit, hinner]

/-- A leaf as the root decodes a 0 bit to its byte (R105). -/
theorem walkBit_leaf_zero (hleaf : (nodeAt s c.cur.toNat).leaf = true) :
    walkBit s i false c = some { cur := c.cur, out := c.out ++ [(nodeAt s c.cur.toNat).sym], start := i + 1 } := by
  simp [walkBit, hleaf]

/-- A leaf as the root has no path for a 1 bit (R105). -/
theorem walkBit_leaf_one (hleaf : (nodeAt s c.cur.toNat).leaf = true) : walkBit s i true c = none := by
  simp [walkBit, hleaf]

theorem TreeOk.leaf_eq_true (h : TreeOk s) (hk : k < nsym s) : (nodeAt s k).leaf = true := by
  rw [h.leaves k hk]
  rfl

/-- The cursor holds every node of a tree (R83). -/
theorem toNat_cursor (hm : m < 2 * nsym s - 1) : (BitVec.ofNat 9 m).toNat = m := by
  have hn := nsym_le s
  exact Nat.mod_eq_of_lt (by omega)

/-! ## Paths and codes -/

/-- The bit after a path leads to a child of the path's node (R88, R102). -/
theorem TreeOk.walk_path_child (h : TreeOk s) (hm : MemoriesOk s) (hstart : nsym s ≤ m) (hend : m < 2 * nsym s - 1)
    (hwalk : walk s i c (path s m) = .ok { c with cur := BitVec.ofNat 9 m }) (bit : Bool) :
    walk s i c (path s ((nodeAt s m).child bit)) =
      if (nodeAt s ((nodeAt s m).child bit)).leaf then
        .ok { cur := s.root, out := c.out ++ [(nodeAt s ((nodeAt s m).child bit)).sym],
              start := i + (path s ((nodeAt s m).child bit)).length }
      else .ok { c with cur := BitVec.ofNat 9 ((nodeAt s m).child bit) } := by
  have hbit := walkBit_inner (s := s) (i := i + (path s m).length) (bit := bit)
    (c := { c with cur := BitVec.ofNat 9 m }) (by rw [toNat_cursor hend]; exact (h.inner m hstart hend).inner)
  rw [toNat_cursor hend] at hbit
  rw [h.path_child hm hstart hend, walk_append hwalk, List.length_append]
  split_ifs at hbit ⊢ <;> rw [walk_cons hbit] <;> rfl

/-- The path of an internal node brings the cursor from the root to that node (R88, R102). -/
theorem TreeOk.walk_path (h : TreeOk s) (hm : MemoriesOk s) (hcur : c.cur = s.root) (hstart : nsym s ≤ m)
    (hend : m < 2 * nsym s - 1) : walk s i c (path s m) = .ok { c with cur := BitVec.ofNat 9 m } := by
  revert hstart
  refine h.node_induction
    (P := fun m => nsym s ≤ m → walk s i c (path s m) = .ok { c with cur := BitVec.ofNat 9 m }) ?root ?child (by omega)
  case root =>
    intro _
    rw [path_root, BitVec.ofNat_toNat, BitVec.setWidth_eq, ← hcur]
    rfl
  case child =>
    intro m bit hstart hend ih hchild
    have hbelow := (h.inner m hstart hend).child_lt bit
    rw [h.walk_path_child hm hstart hend (ih hstart), (h.inner _ hchild (by omega)).inner]
    rfl

/-- The code of a leaf brings the cursor from the root back to the root, with the leaf's byte (R102, R105). -/
theorem TreeOk.walk_leafCode (h : TreeOk s) (hm : MemoriesOk s) (hcur : c.cur = s.root) (hk : k < nsym s) :
    walk s i c (leafCode s k) =
      .ok { cur := s.root, out := c.out ++ [(nodeAt s k).sym], start := i + (leafCode s k).length } := by
  by_cases hone : nsym s = 1
  · have hroot : c.cur.toNat = k := by
      rw [hcur, h.root]
      omega
    have hbit := walkBit_leaf_zero (s := s) (i := i) (c := c) (by rw [hroot]; exact h.leaf_eq_true hk)
    rw [hroot, hcur] at hbit
    rw [leafCode_of_one hone, walk_cons hbit]
    rfl
  · rw [leafCode_of_ne_one hone]
    obtain ⟨m, bit, hstart, hend, rfl⟩ := h.exists_eq_child (k := k) (by omega)
    rw [h.walk_path_child hm hstart hend (h.walk_path hm hcur hstart hend), if_pos (h.leaf_eq_true hk)]

/-- The cursor after the codes of the leaves `ks`, one after the other. -/
def afterCodes (s : State) (ks : List Nat) : Cursor :=
  { cur := s.root, out := ks.map (fun k => (nodeAt s k).sym), start := (ks.flatMap (leafCode s)).length }

/-- Whole codes decode to their leaves' bytes (R102, R109). -/
theorem TreeOk.walk_codes (h : TreeOk s) (hm : MemoriesOk s) (hks : ∀ k ∈ ks, k < nsym s) :
    walk s 0 (walkStart s) (ks.flatMap (leafCode s)) = .ok (afterCodes s ks) := by
  induction ks using List.reverseRecOn with
  | nil => rfl
  | append_singleton ks k ih =>
    rw [List.forall_mem_append, List.forall_mem_singleton] at hks
    obtain ⟨hbefore, hk⟩ := hks
    rw [List.flatMap_append, List.flatMap_singleton, walk_append (ih hbefore), h.walk_leafCode hm rfl hk]
    simp [afterCodes]

/-- Whole codes and then a path leave the cursor at the path's node (R102, R103). -/
theorem TreeOk.walk_codes_path (h : TreeOk s) (hm : MemoriesOk s) (hks : ∀ k ∈ ks, k < nsym s) (hstart : nsym s ≤ m)
    (hend : m < 2 * nsym s - 1) :
    walk s 0 (walkStart s) (ks.flatMap (leafCode s) ++ path s m) =
      .ok { afterCodes s ks with cur := BitVec.ofNat 9 m } := by
  rw [walk_append (h.walk_codes hm hks), h.walk_path hm rfl hstart hend]

/-- R105: in the tree of one symbol a 1 bit at the root has no path. -/
theorem TreeOk.walk_codes_one (h : TreeOk s) (hm : MemoriesOk s) (hks : ∀ k ∈ ks, k < nsym s) (hone : nsym s = 1) :
    walk s 0 (walkStart s) (ks.flatMap (leafCode s) ++ true :: rest) = .error (ks.flatMap (leafCode s)).length := by
  have hbit := walkBit_leaf_one (s := s) (i := (ks.flatMap (leafCode s)).length) (c := afterCodes s ks)
    (h.leaf_root_iff.2 hone)
  rw [walk_append (h.walk_codes hm hks), Nat.zero_add, walk, hbit]

/-! ## Any bits -/

/-- In a tree of two or more symbols all bits are whole codes and then the path of an internal node (R103, R104). -/
theorem TreeOk.exists_eq_codes_path (h : TreeOk s) (hm : MemoriesOk s) (hone : nsym s ≠ 1) (bits : List Bool) :
    ∃ (ks : List Nat) (m : Nat), (∀ k ∈ ks, k < nsym s) ∧ nsym s ≤ m ∧ m < 2 * nsym s - 1 ∧
      bits = ks.flatMap (leafCode s) ++ path s m := by
  have hpos := h.size
  have hroot := h.root
  induction bits using List.reverseRecOn with
  | nil => exact ⟨[], s.root.toNat, nofun, by omega, by omega, (path_root s).symm⟩
  | append_singleton bits bit ih =>
    obtain ⟨ks, m, hks, hstart, hend, rfl⟩ := ih
    have hbelow := (h.inner m hstart hend).child_lt bit
    rw [List.append_assoc, ← h.path_child hm hstart hend]
    by_cases hleaf : (nodeAt s m).child bit < nsym s
    · refine ⟨ks ++ [(nodeAt s m).child bit], s.root.toNat, ?_, by omega, by omega, ?_⟩
      · exact List.forall_mem_append.2 ⟨hks, List.forall_mem_singleton.2 hleaf⟩
      · rw [path_root, List.append_nil, List.flatMap_append, List.flatMap_singleton, leafCode_of_ne_one hone]
    · exact ⟨ks, (nodeAt s m).child bit, hks, by omega, by omega, rfl⟩

/-- The path of an internal node begins a leaf's: LEFT leads down to one (R83). -/
theorem TreeOk.exists_leaf_below (h : TreeOk s) (hm : MemoriesOk s) (hstart : nsym s ≤ m) (hend : m < 2 * nsym s - 1) :
    ∃ k q, k < nsym s ∧ q ≠ [] ∧ path s k = path s m ++ q := by
  induction m using Nat.strong_induction_on with
  | _ m ih =>
    have hbelow := (h.inner m hstart hend).child_lt false
    have hpath := h.path_child hm hstart hend false
    by_cases hleaf : (nodeAt s m).child false < nsym s
    · exact ⟨_, [false], hleaf, nofun, hpath⟩
    · obtain ⟨k, q, hk, -, heq⟩ := ih _ hbelow (by omega) (by omega)
      exact ⟨k, false :: q, hk, nofun, by rw [heq, hpath, List.append_assoc]; rfl⟩

/-! ## Proper beginnings of codes -/

theorem TreeOk.path_ne_nil (h : TreeOk s) (hm : MemoriesOk s) (hbelow : m < 2 * nsym s - 2) : path s m ≠ [] := by
  obtain ⟨m', bit, hstart, hend, rfl⟩ := h.exists_eq_child hbelow
  rw [h.path_child hm hstart hend]
  simp

/-- The path of an internal node other than the root is a proper beginning of a code (R104). -/
theorem TreeOk.exists_leafCode_eq_append (h : TreeOk s) (hm : MemoriesOk s) (hstart : nsym s ≤ m)
    (hbelow : m < 2 * nsym s - 2) :
    ∃ k q, k < nsym s ∧ path s m ≠ [] ∧ q ≠ [] ∧ leafCode s k = path s m ++ q := by
  obtain ⟨k, q, hk, hq, hpath⟩ := h.exists_leaf_below hm hstart (by omega)
  exact ⟨k, q, hk, h.path_ne_nil hm hbelow, hq, (leafCode_of_ne_one (by omega) k).trans hpath⟩

/-- A proper beginning of a code is the path of an internal node other than the root (R104). -/
theorem TreeOk.exists_path_eq_of_leafCode_eq_append (h : TreeOk s) (hm : MemoriesOk s) {p q : List Bool}
    (hk : k < nsym s) (hp : p ≠ []) (hq : q ≠ []) (hcode : leafCode s k = p ++ q) :
    ∃ m, nsym s ≤ m ∧ m < 2 * nsym s - 2 ∧ path s m = p := by
  have hone : nsym s ≠ 1 := fun hone => by
    rw [leafCode_of_one hone, List.singleton_eq_append_iff] at hcode
    obtain ⟨hnil, -⟩ | ⟨-, hnil⟩ := hcode
    · exact hp hnil
    · exact hq hnil
  rw [leafCode_of_ne_one hone] at hcode
  obtain ⟨m, hstart, hend, rfl⟩ := h.exists_path_eq_of_prefix hm (p := p) (k := k) (by omega) ⟨q, hcode.symm⟩
    (by simpa [hcode] using hq)
  have hroot : m ≠ s.root.toNat := fun heq => hp (by rw [heq, path_root])
  rw [h.root] at hroot
  exact ⟨m, hstart, by omega, rfl⟩

end Sys2Proof.Machine
end

section
/-! PROOFS. How DECODE completes (R102 to R110): by its walk, and on whole codes with success. -/

namespace Sys2Proof.Machine

variable {s t : State} {ks : List Nat}

/-! ## DECODE by its walk -/

/-- The state a successful DECODE leaves (R102). -/
def decoded (s : State) (out : List Byte) : State :=
  complete { s with dbuf := Memory.writeList 0 [] 0 out, dlen := BitVec.ofNat 16 out.length }

/-- The state DECODE leaves by the result of its walk (R102). -/
def afterWalk (s : State) : Except Nat Cursor → State
  | .error i => raise .invalidCode (BitVec.ofNat 32 i) (clearDecoded s)
  | .ok c => if c.cur ≠ s.root then raise .truncatedCode (BitVec.ofNat 32 c.start) (clearDecoded s) else decoded s c.out

/-- In PHASE BUILT or READY with ILEN in range, DECODE completes by its walk (R102). -/
theorem execDecode_late (hphase : s.phase = .built ∨ s.phase = .ready) (hlen : s.ilen.toNat ≤ s.params.maxBits) :
    execDecode s = .next (afterWalk s (walk s 0 (walkStart s) (inputBits s))) := by
  have hlate : ¬ (s.phase ≠ .built ∧ s.phase ≠ .ready) := fun hearly => hphase.elim hearly.1 hearly.2
  have hwalk : walk (clearDecoded s) 0 (walkStart (clearDecoded s)) (inputBits (clearDecoded s)) =
      walk s 0 (walkStart s) (inputBits s) := walk_clearDecoded ..
  refine (if_neg hlate).trans ((if_neg (Nat.not_lt.2 hlen)).trans ?_)
  rw [hwalk]
  cases walk s 0 (walkStart s) (inputBits s) with
  | error i => rfl
  | ok c =>
    rw [afterWalk]
    split_ifs with hcur
    · exact if_pos hcur
    · exact if_neg hcur

/-- The errors of the walk arise only where DECODE walks (R102). -/
theorem execDecode_walks (h : execDecode s = .next t) (he : t.ecode = .invalidCode ∨ t.ecode = .truncatedCode) :
    (s.phase = .built ∨ s.phase = .ready) ∧ s.ilen.toNat ≤ s.params.maxBits := by
  obtain ⟨-, rfl⟩ | ⟨-, -, rfl⟩ | ⟨i, hphase, hlen, -⟩ | ⟨c, hphase, hlen, -⟩ | ⟨c, hphase, hlen, -⟩ :=
    execDecode_cases h
  · simp at he
  · simp at he
  all_goals exact ⟨hphase, hlen⟩

/-! ## Success -/

theorem dbufAt_decoded (s : State) (out : List Byte) (j : Nat) : dbufAt (decoded s out) j = out.getD j 0 :=
  read_writeList_nil 0 out j

/-- There are at most as many bytes as bits, so DLEN counts them (R108). -/
theorem toNat_dlen_decoded {c : Cursor} (h : walk s 0 (walkStart s) (inputBits s) = .ok c) :
    (decoded s c.out).dlen.toNat = c.out.length := by
  have hout : c.out.length ≤ 0 + (inputBits s).length := length_out_walk h
  rw [Nat.zero_add, length_inputBits] at hout
  exact Nat.mod_eq_of_lt (hout.trans_lt s.ilen.isLt)

/-- Whole codes of a tree decode in each state with that tree in its arena, whatever its counts (R109, R110). -/
theorem TreeOk.execDecode_codes (h : TreeOk s) (hm : MemoriesOk s) (hks : ∀ k ∈ ks, k < nsym s)
    (hnode : t.node = s.node) (hroot : t.root = s.root) (hphase : t.phase = .built ∨ t.phase = .ready)
    (hlen : t.ilen.toNat ≤ t.params.maxBits) (hbits : inputBits t = ks.flatMap (leafCode s)) :
    execDecode t = .next (decoded t (ks.map (fun k => (nodeAt s k).sym))) ∧
      (decoded t (ks.map (fun k => (nodeAt s k).sym))).dlen.toNat = ks.length := by
  have hwalk : walk t 0 (walkStart t) (inputBits t) = .ok (afterCodes s ks) := by
    rw [walk_congr hnode hroot, walkStart_congr hroot, hbits, h.walk_codes hm hks]
  refine ⟨?_, (toNat_dlen_decoded hwalk).trans (List.length_map _)⟩
  rw [execDecode_late hphase hlen, hwalk]
  exact congrArg Host.Outcome.next (if_neg (not_not.2 hroot.symm))

/-- Settles O33: the walk of whole codes. -/
theorem decodeWalksTheTree : Obligations.DecodeWalksTheTree := by
  intro s ks h hphase hlen hks hbits
  obtain ⟨hexec, hdlen⟩ := (h.tree hphase).execDecode_codes h.memories hks rfl rfl hphase hlen hbits
  exact ⟨_, hexec, rfl, hdlen, dbufAt_decoded s _⟩

/-! ## The round trip -/

/-- The bytes of a word are those of leaves, whose codes the encoder packs (R77, R98). -/
theorem exists_leaves_of_bytes (htree : TreeOk s) (hbook : BookOk s) {bs : List Byte} (hbs : ∀ b ∈ bs, clenAt s b ≠ 0) :
    ∃ ks : List Nat, (∀ k ∈ ks, k < nsym s) ∧ ks.map (fun k => (nodeAt s k).sym) = bs ∧
      ks.flatMap (leafCode s) = encodedBits s bs := by
  induction bs with
  | nil => exact ⟨[], nofun, rfl, rfl⟩
  | cons b bs ih =>
    obtain ⟨hb, hbs⟩ := List.forall_mem_cons.1 hbs
    obtain ⟨ks, hks, hsyms, hcodes⟩ := ih hbs
    obtain ⟨k, hk, rfl⟩ := exists_leaf_of_freqAt_ne_zero (mt (fun hzero => (hbook.absent b hzero).1) hb)
    refine ⟨k :: ks, List.forall_mem_cons.2 ⟨hk, hks⟩, ?_, ?_⟩
    · rw [List.map_cons, hsyms, htree.leaves k hk]
      rfl
    · rw [List.flatMap_cons, hcodes, ← hbook.codes k hk]
      rfl

/-- The lookup pass that reports nothing has found a code for each byte (R96). -/
theorem clenAt_ne_zero_of_firstUnknown_eq_none {j : Nat} {bs : List Byte} (h : firstUnknown s j bs = none) :
    ∀ b ∈ bs, clenAt s b ≠ 0 := by
  rw [← Option.not_isSome_iff_eq_none, isSome_firstUnknown] at h
  simpa using h

/-- ENCODE succeeds only in PHASE READY, on a word whose bytes all have codes and whose codes fit (R94). -/
theorem execEncode_ok (h : execEncode s = .next t) (hok : t.ecode = .ok) :
    s.phase = .ready ∧ (∀ b ∈ wordBytes s, clenAt s b ≠ 0) ∧ encodedLength s (wordBytes s) ≤ s.params.maxBits ∧
      t = encoded s := by
  obtain ⟨-, rfl⟩ | ⟨-, -, rfl⟩ | ⟨j, b, -, -, -, rfl⟩ | ⟨-, -, -, -, rfl⟩ | ⟨hphase, -, hknown, hroom, rfl⟩ :=
    execEncode_cases h
  case inr.inr.inr.inr => exact ⟨hphase, clenAt_ne_zero_of_firstUnknown_eq_none hknown, hroom, rfl⟩
  all_goals cases hok

/-- The bits to decode are those packed, when the host has copied them and their number (R110). -/
theorem inputBits_eq_encodedBits {u : State} (hroom : encodedLength s (wordBytes s) < 2 ^ 16)
    (hilen : u.ilen = (encoded s).olen) (hbits : ∀ i, i < (encoded s).olen.toNat → ibufAt u i = obufAt (encoded s) i) :
    inputBits u = encodedBits s (wordBytes s) := by
  have holen : (encoded s).olen.toNat = encodedLength s (wordBytes s) := Nat.mod_eq_of_lt hroom
  refine List.ext_getElem (by simp [hilen, holen]) fun i hi hi' => ?_
  have hobuf : obufAt (encoded s) i = (encodedBits s (wordBytes s)).getD i false := read_writeList_nil false _ i
  rw [length_inputBits, hilen] at hi
  rw [← List.getD_eq_getElem _ false hi', ← hobuf, ← hbits i hi]
  simp [inputBits]

/-- Settles O38: the bits packed are the codes of leaves, and these decode to the leaves' bytes, the word's. -/
theorem decodeInvertsEncodeOfAWord : Obligations.DecodeInvertsEncodeOfAWord := by
  intro s t u h hencode hok hparams hphase hnode hroot hilen hbits
  obtain ⟨hready, hknown, hroom, rfl⟩ := execEncode_ok hencode hok
  have htree := h.tree (.inr hready)
  obtain ⟨-, -, hmax⟩ := legal_bounds h.memories.params
  obtain ⟨ks, hks, hsyms, hcodes⟩ := exists_leaves_of_bytes htree (h.book hready) hknown
  have hinput := inputBits_eq_encodedBits (by omega) hilen hbits
  have hfits : u.ilen.toNat ≤ u.params.maxBits := by
    rw [← length_inputBits, hinput, length_encodedBits, hparams]
    exact hroom
  obtain ⟨hexec, hdlen⟩ := htree.execDecode_codes h.memories hks hnode hroot (.inr (hphase.trans hready)) hfits
    (hinput.trans hcodes.symm)
  rw [hsyms] at hexec hdlen
  refine ⟨_, hexec, rfl, BitVec.eq_of_toNat_eq ?_, fun j hj => ?_⟩
  · rw [hdlen, ← List.length_map (fun k => (nodeAt s k).sym), hsyms]
    simp [wordBytes]
  · rw [dbufAt_decoded]
    simp [wordBytes, hj]

end Sys2Proof.Machine
end

section
/-! PROOFS. The errors of DECODE's walk (R104 to R106): INVALID_CODE at a 1 bit in the tree of one symbol, TRUNCATED_CODE
after the beginning of a code. -/

namespace Sys2Proof.Machine

variable {s t : State} {i m : Nat} {ks : List Nat}

/-! ## The tree of one symbol -/

theorem inputBits_eq_replicate (h : ∀ i, i < s.ilen.toNat → ibufAt s i = false) :
    inputBits s = List.replicate s.ilen.toNat false :=
  List.eq_replicate_iff.2 ⟨length_inputBits s, by simpa [inputBits] using h⟩

/-- The bits up to the first 1. -/
theorem exists_inputBits_eq_replicate_append (hi : i < s.ilen.toNat) (hbit : ibufAt s i = true)
    (hbefore : ∀ i', i' < i → ibufAt s i' = false) :
    ∃ rest, inputBits s = List.replicate i false ++ true :: rest := by
  have hlt : i < (inputBits s).length := (length_inputBits s).symm ▸ hi
  have hzeros : (inputBits s).take i = List.replicate i false :=
    List.eq_replicate_iff.2 ⟨by simp [hi.le], by
      simpa [inputBits, ← List.map_take, List.take_range, Nat.min_eq_left hi.le] using hbefore⟩
  refine ⟨(inputBits s).drop (i + 1), ?_⟩
  calc inputBits s = (inputBits s).take i ++ (inputBits s).drop i := (List.take_append_drop ..).symm
    _ = List.replicate i false ++ true :: (inputBits s).drop (i + 1) := by
      rw [hzeros, List.drop_eq_getElem_cons hlt]
      simp [inputBits, hbit]

/-- The only leaf's codes are 0 bits (R89). -/
theorem flatMap_leafCode_replicate (hone : nsym s = 1) (n : Nat) :
    (List.replicate n 0).flatMap (leafCode s) = List.replicate n false := by
  induction n with
  | zero => rfl
  | succ n ih => rw [List.replicate_succ, List.flatMap_cons, ih, leafCode_of_one hone]; rfl

/-- Settles O34: 0 bits are the only leaf's codes (O33), and a 1 bit after them has no path. -/
theorem degenerateTreeDecodes : Obligations.DegenerateTreeDecodes := by
  intro s h hphase hone hlen
  have htree := h.tree hphase
  have hks : ∀ n, ∀ k ∈ List.replicate n 0, k < nsym s := fun n k hk => by
    rw [List.eq_of_mem_replicate hk]
    exact htree.size
  refine ⟨fun hzeros => ?zeros, fun i hi hbit hbefore => ?one⟩
  case zeros =>
    obtain ⟨t, hexec, hframe, hdlen, hbytes⟩ := decodeWalksTheTree s (List.replicate s.ilen.toNat 0) h hphase hlen
      (hks _) ((inputBits_eq_replicate hzeros).trans (flatMap_leafCode_replicate hone _).symm)
    refine ⟨t, hexec, by rw [hframe], BitVec.eq_of_toNat_eq (hdlen.trans List.length_replicate), fun j hj => ?_⟩
    have hsym : (nodeAt s 0).sym = (symbols s)[0]'htree.size := by rw [htree.leaves 0 htree.size]; rfl
    rw [hbytes, List.getElem?_eq_getElem htree.size]
    simp [hj, hsym]
  case one =>
    obtain ⟨rest, hbits⟩ := exists_inputBits_eq_replicate_append hi hbit hbefore
    have hwalk := htree.walk_codes_one h.memories (hks i) hone (rest := rest)
    rw [flatMap_leafCode_replicate hone, List.length_replicate, ← hbits] at hwalk
    refine (execDecode_late hphase hlen).trans ?_
    rw [hwalk]
    rfl

/-- R105: in the tree of one symbol DECODE ends with success, or with INVALID_CODE at the first 1 bit. -/
theorem execDecode_one_symbol (h : Inv s) (hphase : s.phase = .built ∨ s.phase = .ready) (hone : nsym s = 1)
    (hlen : s.ilen.toNat ≤ s.params.maxBits) (hexec : execDecode s = .next t) :
    t.ecode = .ok ∨
    (t.ecode = .invalidCode ∧
      ∃ i, i < s.ilen.toNat ∧ t.errinfo.toNat = i ∧ ibufAt s i = true ∧ ∀ i', i' < i → ibufAt s i' = false) := by
  obtain ⟨hzero, hfirst⟩ := degenerateTreeDecodes s h hphase hone hlen
  by_cases hzeros : ∀ i, i < s.ilen.toNat → ibufAt s i = false
  · obtain ⟨t', hexec', hok, -⟩ := hzero hzeros
    cases hexec.symm.trans hexec'
    exact .inl hok
  · have hexists : ∃ i, i < s.ilen.toNat ∧ ibufAt s i = true := by simpa using hzeros
    obtain ⟨hi, hbit⟩ := Nat.find_spec hexists
    have hbefore : ∀ i', i' < Nat.find hexists → ibufAt s i' = false := fun i' hi' => by
      simpa [hi'.trans hi] using Nat.find_min hexists hi'
    cases hexec.symm.trans (hfirst _ hi hbit hbefore)
    exact .inr ⟨rfl, _, hi, Nat.mod_eq_of_lt (hi.trans (s.ilen.isLt.trans (by decide))), hbit, hbefore⟩

/-! ## The tree of two or more symbols -/

/-- Whole codes and then the path of an internal node other than the root are TRUNCATED_CODE, with the index of the path's
first bit (R106). -/
theorem TreeOk.execDecode_truncated (h : TreeOk s) (hm : MemoriesOk s) (hphase : s.phase = .built ∨ s.phase = .ready)
    (hlen : s.ilen.toNat ≤ s.params.maxBits) (hks : ∀ k ∈ ks, k < nsym s) (hstart : nsym s ≤ m)
    (hbelow : m < 2 * nsym s - 2) (hbits : inputBits s = ks.flatMap (leafCode s) ++ path s m) :
    execDecode s =
      .next (raise .truncatedCode (BitVec.ofNat 32 (ks.flatMap (leafCode s)).length) (clearDecoded s)) ∧
      (BitVec.ofNat 32 (ks.flatMap (leafCode s)).length).toNat = (ks.flatMap (leafCode s)).length := by
  have hcur : BitVec.ofNat 9 m ≠ s.root := fun heq => by
    have hroot := h.root
    rw [← heq, toNat_cursor (s := s) (by omega)] at hroot
    omega
  constructor
  · rw [execDecode_late hphase hlen, hbits, h.walk_codes_path hm hks hstart (by omega), afterWalk, if_pos hcur]
    rfl
  · have hread := congrArg List.length hbits
    rw [length_inputBits, List.length_append] at hread
    have hilen := s.ilen.isLt
    exact Nat.mod_eq_of_lt (by omega)

/-- In a tree of two or more symbols DECODE ends with success, or with TRUNCATED_CODE after whole codes and the path of an
internal node other than the root (R104, R106). -/
theorem execDecode_more_symbols (h : Inv s) (hphase : s.phase = .built ∨ s.phase = .ready) (hone : nsym s ≠ 1)
    (hlen : s.ilen.toNat ≤ s.params.maxBits) (hexec : execDecode s = .next t) :
    t.ecode = .ok ∨
    (t.ecode = .truncatedCode ∧ ∃ (ks : List Nat) (m : Nat), (∀ k ∈ ks, k < nsym s) ∧ nsym s ≤ m ∧
      m < 2 * nsym s - 2 ∧ inputBits s = ks.flatMap (leafCode s) ++ path s m ∧
      t.errinfo.toNat = (ks.flatMap (leafCode s)).length) := by
  have htree := h.tree hphase
  obtain ⟨ks, m, hks, hstart, hend, hbits⟩ := htree.exists_eq_codes_path h.memories hone (inputBits s)
  by_cases hroot : m = s.root.toNat
  · subst hroot
    rw [path_root, List.append_nil] at hbits
    obtain ⟨hexec', -⟩ := htree.execDecode_codes h.memories hks rfl rfl hphase hlen hbits
    cases hexec.symm.trans hexec'
    exact .inl rfl
  · rw [htree.root] at hroot
    obtain ⟨hexec', hinfo⟩ := htree.execDecode_truncated h.memories hphase hlen hks hstart (by omega) hbits
    cases hexec.symm.trans hexec'
    exact .inr ⟨rfl, ks, m, hks, hstart, by omega, hbits, hinfo⟩

/-! ## Both -/

/-- The three ways DECODE completes by its walk (R102, R104 to R106). -/
theorem execDecode_walk_cases (h : Inv s) (hphase : s.phase = .built ∨ s.phase = .ready)
    (hlen : s.ilen.toNat ≤ s.params.maxBits) (hexec : execDecode s = .next t) :
    t.ecode = .ok ∨
    (t.ecode = .invalidCode ∧ nsym s = 1 ∧
      ∃ i, i < s.ilen.toNat ∧ t.errinfo.toNat = i ∧ ibufAt s i = true ∧ ∀ i', i' < i → ibufAt s i' = false) ∨
    (t.ecode = .truncatedCode ∧ ∃ (ks : List Nat) (m : Nat), (∀ k ∈ ks, k < nsym s) ∧ nsym s ≤ m ∧
      m < 2 * nsym s - 2 ∧ inputBits s = ks.flatMap (leafCode s) ++ path s m ∧
      t.errinfo.toNat = (ks.flatMap (leafCode s)).length) := by
  by_cases hone : nsym s = 1
  · exact (execDecode_one_symbol h hphase hone hlen hexec).imp_right fun ⟨he, hfirst⟩ => .inl ⟨he, hone, hfirst⟩
  · exact (execDecode_more_symbols h hphase hone hlen hexec).imp_right .inr

/-- Settles O35: INVALID_CODE is the tree's of one symbol, and TRUNCATED_CODE that of the bits which end in the path of an
internal node, the proper beginnings of codes. -/
theorem decodeErrorsAreExplained : Obligations.DecodeErrorsAreExplained := by
  intro s t h hexec
  refine ⟨fun he => ?invalid, fun he => ?truncated, fun hphase hlen ks k p q hks hk hp hq hcode hbits => ?beginning⟩
  case invalid =>
    obtain ⟨hphase, hlen⟩ := execDecode_walks hexec (.inl he)
    obtain hother | ⟨-, hfirst⟩ | ⟨hother, -⟩ := execDecode_walk_cases h hphase hlen hexec
    case inr.inl => exact hfirst
    all_goals cases he.symm.trans hother
  case truncated =>
    obtain ⟨hphase, hlen⟩ := execDecode_walks hexec (.inr he)
    obtain hother | ⟨hother, -⟩ | ⟨-, ks, m, hks, hstart, hbelow, hbits, hinfo⟩ :=
      execDecode_walk_cases h hphase hlen hexec
    case inr.inr =>
      obtain ⟨k, q, hk, hp, hq, hcode⟩ := (h.tree hphase).exists_leafCode_eq_append h.memories hstart hbelow
      exact ⟨ks, k, path s m, q, hks, hk, hp, hq, hcode, hbits, hinfo⟩
    all_goals cases he.symm.trans hother
  case beginning =>
    have htree := h.tree hphase
    obtain ⟨m, hstart, hbelow, rfl⟩ := htree.exists_path_eq_of_leafCode_eq_append h.memories hk hp hq hcode
    obtain ⟨hexec', hinfo⟩ := htree.execDecode_truncated h.memories hphase hlen hks hstart hbelow hbits
    cases hexec.symm.trans hexec'
    exact ⟨rfl, hinfo⟩

end Sys2Proof.Machine
end

section
/-! PROOFS. What a failed DECODE leaves (R107, R108), and DECODE's frame (R111). -/

namespace Sys2Proof.Machine

variable {s : State}

/-- R41: before BUILT there is nothing in DBUF. -/
theorem Inv.dbuf_eq_nil (h : Inv s) (hphase : s.phase = .empty ∨ s.phase = .collect) : s.dbuf = [] := by
  have hdlen : s.dlen = 0 := h.stages.noDecoded hphase
  refine Memory.eq_of_read_eq 0 _ _ h.memories.dbuf.1 (Memory.wf_nil 0) fun j => ?_
  exact h.outputs.dbuf j (by simp [hdlen])

/-- Settles O36: every `raise` of DECODE stands on the cleared output, a walk decodes at most one byte a bit, and before
BUILT the output is clear already. -/
theorem failedDecodeLeavesNoOutput : Obligations.FailedDecodeLeavesNoOutput := by
  refine ⟨fun s t h => ?failed, fun s t hinv hphase h => ?early⟩
  case failed =>
    obtain ⟨-, rfl⟩ | ⟨-, -, rfl⟩ | ⟨i, -, -, -, rfl⟩ | ⟨c, -, -, -, -, rfl⟩ | ⟨c, -, hlen, hwalk, -, rfl⟩ :=
      execDecode_cases h
    case inr.inr.inr.inr =>
      have hbytes : c.out.length ≤ s.ilen.toNat := by simpa [walkStart] using length_out_walk hwalk
      have hdlen : (BitVec.ofNat 16 c.out.length).toNat ≤ s.ilen.toNat := (Nat.mod_le ..).trans hbytes
      exact ⟨fun hfailed => absurd rfl hfailed, hdlen, hdlen.trans hlen, nofun⟩
    all_goals exact ⟨fun _ => ⟨rfl, fun _ => rfl⟩, Nat.zero_le _, Nat.zero_le _, nofun⟩
  case early =>
    have hlate := (not_built_or_ready_iff s.phase).2 hphase
    obtain ⟨-, rfl⟩ | ⟨hbuilt, -⟩ | ⟨i, hbuilt, -⟩ | ⟨c, hbuilt, -⟩ | ⟨c, hbuilt, -⟩ := execDecode_cases h
    case inl => exact ⟨(hinv.stages.noDecoded hphase).symm, (hinv.dbuf_eq_nil hphase).symm⟩
    all_goals exact absurd hbuilt hlate

/-- DECODE overwrites what it writes without reading it (R107, R111). -/
theorem execDecode_overwrites (s : State) (dbuf : Memory Byte) (dlen : BitVec 16) (err : Bool) (ecode : ErrCode)
    (errinfo : Word) (pend : Option Word) :
    execDecode { s with dbuf := dbuf, dlen := dlen, err := err, ecode := ecode, errinfo := errinfo, pend := pend } =
      execDecode s := by
  unfold execDecode
  dsimp only
  rw [walk_congr (s := clearDecoded s)]
  · rfl
  · rfl
  · rfl

/-- Settles O37: DECODE's frame names the fields that it writes, and it overwrites them. -/
theorem decodeWritesOnlyItsOutput : Obligations.DecodeWritesOnlyItsOutput := by
  intro s t h
  have hframe := execDecode_frame h
  refine ⟨hframe, ?_⟩
  calc execDecode t = execDecode s := by rw [hframe, execDecode_overwrites]
    _ = .next t := h

end Sys2Proof.Machine
end

section
/-! PROOFS. The control commands NOP, ACK and RESET (R112 to R114): acceptance and completion. -/

namespace Sys2Proof

/-- OP = 0x00 is NOP's alone (R63). -/
theorem Instr.opcode_eq_zero_iff (i : Instr) : i.opcode = 0 ↔ i = .nop := by
  cases i <;> simp [Instr.opcode]

/-- A word with OP = 0x00 is the word of no other command than NOP (R63). -/
theorem encode_of_opcode_zero {i : Instr} (h : (encode i).extractLsb' 0 8 = 0) : encode i = 0x00000000 := by
  have hop : (encode i).extractLsb' 0 8 = i.opcode := congrArg CmdFields.op (fieldsOfEncoding i).1
  rw [(Instr.opcode_eq_zero_iff i).1 (hop.symm.trans h)]
  rfl

/-- R112: a word with OP = 0x00 and another field non-zero is illegal. -/
theorem decode_error_of_opcode_zero {w : Word} (hop : w.extractLsb' 0 8 = 0) (hw : w ≠ 0) :
    ∃ e, decode w = .error e := by
  refine decode_eq_error_iff.2 fun i hi => hw ?_
  subst hi
  exact encode_of_opcode_zero hop

namespace Machine

variable {s : State}

/-- STATUS after a success with HAZ = 0: the phase, and every other field 0 (R18, and the example of R113). -/
theorem statusWord_complete (h : s.haz = false) : statusWord (complete s) = 0#29 ++ s.phase.code ++ 0#1 := by
  simp only [statusWord, busy, complete_haz, complete_ecode, complete_err, complete_phase, complete_pend, h]
  cases s.phase <;> rfl

/-- A word written to CMD while BUSY = 0 is accepted (R134). -/
theorem busWrite_cmd (h : s.pend = none) (w : Word) : busWrite 0x10 w s = respond (.write false) (accept w s) :=
  busWrite_idle h .cmd w

/-- R136 with R134: an aligned write that follows a command's acceptance is dropped and sets HAZ. -/
theorem busWrite_haz_of_accepted (h : s.pend = none) (w : Word) {a : BitVec 8} (ha : a.toNat % 4 = 0) (v : Word) :
    (busWrite a v (busWrite 0x10 w s)).haz = true := by
  have hpend : (busWrite 0x10 w s).pend ≠ none := by
    rw [busWrite_cmd h]
    nofun
  rw [busWrite_busy ((aligned_iff a).2 ha) hpend]
  rfl

/-- Settles O9: NOP is `complete` in every phase, and no other word with OP = 0x00 is a command's. -/
theorem nopOnlyClearsTheOutcome : Obligations.NopOnlyClearsTheOutcome :=
  ⟨fun _ => rfl, rfl, fun _ h => busWrite_cmd h 0x00000000, fun _ => decode_error_of_opcode_zero⟩

/-- Settles O10: ACK's completion keeps HAZ, so HAZ is what the acceptance, or a write dropped since, left. -/
theorem ackClearsTheHazardAtAcceptance : Obligations.AckClearsTheHazardAtAcceptance := by
  refine ⟨rfl, fun _ h => busWrite_cmd h 0x00000007, fun _ => rfl, fun s h =>
    ⟨⟨_, rfl, ?cleared⟩, fun a v ha => ⟨_, rfl, ?dropped⟩⟩⟩
  case cleared =>
    rw [busWrite_cmd h]
    exact statusWord_complete rfl
  case dropped => exact busWrite_haz_of_accepted h 0x00000007 ha v

/-- Settles O11: RESET is `endSession` in every phase, and with no count left there is no symbol. -/
theorem resetCommandEndsTheSession : Obligations.ResetCommandEndsTheSession :=
  ⟨rfl, fun _ h => busWrite_cmd h 0x00000001, fun _ => ⟨_, rfl, nsym_eq_zero_of_freq_nil rfl, rfl⟩⟩

end Machine
end Sys2Proof
end

section
/-! PROOFS. No behaviour is stuck: every command completes in every state, an ill-formed word among them (R120, R123,
R135). -/

namespace Sys2Proof.Machine

/-! ## Every command has a next state -/

theorem exists_execCollect (b : Byte) (s : State) : ∃ t, execCollect b s = .next t := by
  by_cases hlate : s.phase = .built ∨ s.phase = .ready
  · exact ⟨_, execCollect_late hlate⟩
  have hearly := (not_built_or_ready_iff s.phase).1 hlate
  by_cases hfull : s.total.toNat = countMax s.params
  · exact ⟨_, execCollect_full hearly hfull⟩
  · exact ⟨_, execCollect_room hearly hfull⟩

theorem exists_execBuild (s : State) : ∃ t, execBuild s = .next t := by
  cases hphase : s.phase with
  | empty => exact ⟨_, execBuild_empty hphase⟩
  | collect => exact ⟨_, execBuild_collect hphase⟩
  | built => exact ⟨_, execBuild_late (.inl hphase)⟩
  | ready => exact ⟨_, execBuild_late (.inr hphase)⟩

theorem exists_execDerive (s : State) : ∃ t, execDerive s = .next t := by
  by_cases hbuilt : s.phase = .built
  · obtain ⟨clen, cbits, hexec⟩ := exists_execDerive_built hbuilt
    exact ⟨_, hexec⟩
  · exact ⟨_, execDerive_not_built hbuilt⟩

theorem exists_execEncode (s : State) : ∃ t, execEncode s = .next t := by
  unfold execEncode
  dsimp only
  split
  case isTrue hphase => exact ⟨_, rfl⟩
  split
  case isTrue hlen => exact ⟨_, rfl⟩
  split
  · exact ⟨_, rfl⟩
  split
  case isTrue hoverflow => exact ⟨_, rfl⟩
  case isFalse hroom => exact ⟨_, rfl⟩

theorem exists_execDecode (s : State) : ∃ t, execDecode s = .next t := by
  by_cases hlate : s.phase = .built ∨ s.phase = .ready
  · by_cases hlen : s.ilen.toNat ≤ s.params.maxBits
    · exact ⟨_, execDecode_late hlate hlen⟩
    · exact ⟨_, (if_neg fun hearly => hlate.elim hearly.1 hearly.2).trans (if_pos (Nat.not_le.1 hlen))⟩
  · exact ⟨_, if_pos (not_or.1 hlate)⟩

theorem exists_exec (i : Instr) (s : State) : ∃ t, exec i s = .next t := by
  cases i with
  | nop => exact ⟨_, rfl⟩
  | reset => exact ⟨_, rfl⟩
  | collect b => exact exists_execCollect b s
  | build => exact exists_execBuild s
  | derive => exact exists_execDerive s
  | encode => exact exists_execEncode s
  | decode => exact exists_execDecode s
  | ack => exact ⟨_, rfl⟩

/-- A command's completion clears STATUS.BUSY (R135). -/
theorem exec_pend {i : Instr} {s t : State} (h : exec i s = .next t) : t.pend = none := by
  rw [exec_frame h]
  cases i <;> rfl

/-! ## Every step has a next state -/

theorem exists_engineTurn (s : State) : ∃ t, engineTurn s = .next t := by
  cases hpend : s.pend with
  | none => exact ⟨_, engineTurn_idle hpend⟩
  | some w =>
    cases hdecode : decode w with
    | ok i => exact engineTurn_command hpend hdecode ▸ exists_exec i s
    | error e => exact ⟨_, engineTurn_illegal hpend hdecode⟩

theorem exists_step (s : State) : ∃ t, step s = .next t := by
  cases hevent : nextEvent s with
  | engine => exact step_engine hevent ▸ exists_engineTurn (advance s)
  | read a => exact ⟨_, step_read hevent⟩
  | write a v => exact ⟨_, step_write hevent⟩
  | hardReset => exact ⟨_, step_hardReset hevent⟩

/-! ## The obligations -/

/-- Settles O5: the engine's turn is `completeIllegal`, which ends the command, so CMD accepts the next word. -/
theorem illegalWordCompletesWithItsError : Obligations.IllegalWordCompletesWithItsError := by
  refine fun s w e hpend hdecode => ⟨_, engineTurn_illegal hpend hdecode, rfl, fun w' => ?_⟩
  rw [busWrite_cmd rfl]
  rfl

/-- Settles O6: each event and each command has its next state, and a command's frame has PEND empty. -/
theorem nothingIsStuck : Obligations.NothingIsStuck := by
  refine ⟨exists_step, fun i s => ?_⟩
  obtain ⟨t, hexec⟩ := exists_exec i s
  exact ⟨t, hexec, exec_pend hexec⟩

end Sys2Proof.Machine
end

section
/-! PROOFS. The bus around a command in flight: its acceptance, and what reads and writes do while BUSY (R134, R136,
R137). -/

namespace Sys2Proof.Machine

/-- HAZ is cleared by the ACK and RESET words alone (R113, R114). -/
theorem clearsHazard_iff (w : Word) : clearsHazard w = true ↔ w = 0x00000007 ∨ w = 0x00000001 := by
  simp [clearsHazard]

/-- Settles O12: a write to CMD is `accept`, and `clearsHazard` names the ACK and RESET words. -/
theorem acceptanceOfACommand : Obligations.AcceptanceOfACommand := by
  intro s w h
  rw [busWrite_cmd h]
  simp only [accept, respond, clearsHazard_iff]

/-- Settles O51: an aligned write is dropped with HAZ set, a misaligned one is refused. -/
theorem writesWhileBusyAreDropped : Obligations.WritesWhileBusyAreDropped := by
  intro s a v h
  by_cases hmod : a.toNat % 4 = 0
  · rw [busWrite_busy ((aligned_iff a).2 hmod) h]
    simp [respond, hmod]
  · have hmis : aligned a = false := Bool.eq_false_iff.2 fun ha => hmod ((aligned_iff a).1 ha)
    rw [busWrite_misaligned hmis]
    simp [respond, hmod]

/-- Settles O52: the registers divide into those readable while BUSY and the result registers; a reserved offset holds
none. -/
theorem readsWhileBusy : Obligations.ReadsWhileBusy := by
  refine fun s h => ⟨fun r hr => ?readable, fun a hmod ha => ?zero, fun r hr => ?result⟩
  case readable => fin_cases hr <;> exact busRead_readable rfl s
  case zero =>
    obtain rfl | hreserved := ha
    · exact busRead_readable (r := .cmd) rfl s
    · exact (reservedOffsetsReadZero s a 0 hmod hreserved).1
  case result => fin_cases hr <;> exact busRead_busy rfl h

end Sys2Proof.Machine
end

section
/-! PROOFS. An accepted command completes once (R135): events of the host leave PEND alone, and the engine's first turn
clears it. -/

namespace Sys2Proof.Machine

variable {s t : State} {w : Word} {n : Nat}

/-! ## One event while a command is in flight -/

theorem busRead_pend_agenda (a : BitVec 8) (h : s.pend ≠ none) :
    (busRead a s).pend = s.pend ∧ (busRead a s).agenda = s.agenda := by
  obtain ⟨hidle, -⟩ | ⟨r, free, hread⟩ := busRead_inputs a s
  · exact absurd hidle h
  · rw [hread]
    exact ⟨rfl, rfl⟩

theorem busWrite_pend_agenda (a : BitVec 8) (v : Word) (h : s.pend ≠ none) :
    (busWrite a v s).pend = s.pend ∧ (busWrite a v s).agenda = s.agenda := by
  rw [writesWhileBusyAreDropped s a v h]
  exact ⟨rfl, rfl⟩

/-- Whatever the host does, the command in flight stays (R135). -/
theorem exists_step_of_host (h : s.pend ≠ none) (hengine : nextEvent s ≠ .engine) (hreset : nextEvent s ≠ .hardReset) :
    ∃ t, step s = .next t ∧ t.pend = s.pend ∧ t.agenda = s.agenda.tail := by
  cases hevent : nextEvent s with
  | engine => exact absurd hevent hengine
  | read a => exact ⟨_, step_read hevent, busRead_pend_agenda (s := advance s) a h⟩
  | write a v => exact ⟨_, step_write hevent, busWrite_pend_agenda (s := advance s) a v h⟩
  | hardReset => exact absurd hevent hreset

/-- The engine's turn leaves no command in flight (R135). -/
theorem engineTurn_pend (h : engineTurn s = .next t) : t.pend = none := by
  cases hpend : s.pend with
  | none =>
    obtain rfl : s = t := Host.Outcome.next.inj ((engineTurn_idle hpend).symm.trans h)
    exact hpend
  | some w =>
    cases hdecode : decode w with
    | ok i => exact exec_pend ((engineTurn_command hpend hdecode).symm.trans h)
    | error e =>
      obtain rfl := Host.Outcome.next.inj ((engineTurn_illegal hpend hdecode).symm.trans h)
      rfl

/-! ## Runs -/

theorem run_succ_of_step (h : step s = .next t) (k : Nat) :
    Host.Core.run Sys2Proof.core (k + 1) s = Host.Core.run Sys2Proof.core k t := by
  simp only [Host.Core.run, show Sys2Proof.core.step s = .next t from h]

/-- Some run of at most `n` events completes the command `w`, which is in flight at every event before. -/
def CompletesWithin (n : Nat) (w : Word) (s : State) : Prop :=
  ∃ k t, k ≤ n ∧ Host.Core.run Sys2Proof.core k s = .next t ∧ t.pend = none ∧
    ∀ k' t', k' < k → Host.Core.run Sys2Proof.core k' s = .next t' → t'.pend = some w

theorem completesWithin_zero (h : s.pend = none) : CompletesWithin 0 w s :=
  ⟨0, s, le_rfl, rfl, h, fun k' _ hk' => absurd hk' k'.not_lt_zero⟩

theorem CompletesWithin.mono {m : Nat} (h : CompletesWithin m w s) (hle : m ≤ n) : CompletesWithin n w s := by
  obtain ⟨k, t, hk, hdone⟩ := h
  exact ⟨k, t, hk.trans hle, hdone⟩

/-- A step with the command in flight comes before the run that completes it. -/
theorem CompletesWithin.of_step (h : CompletesWithin n w t) (hpend : s.pend = some w) (hstep : step s = .next t) :
    CompletesWithin (n + 1) w s := by
  obtain ⟨k, u, hk, hrun, hdone, hbefore⟩ := h
  refine ⟨k + 1, u, Nat.succ_le_succ hk, (run_succ_of_step hstep k).trans hrun, hdone, fun k' t' hk' hrun' => ?_⟩
  cases k' with
  | zero =>
    obtain rfl : s = t' := Host.Outcome.next.inj hrun'
    exact hpend
  | succ k' => exact hbefore k' t' (Nat.lt_of_succ_lt_succ hk') ((run_succ_of_step hstep k').symm.trans hrun')

theorem completesWithin_of_engine (hpend : s.pend = some w) (h : nextEvent s = .engine) : CompletesWithin 1 w s := by
  obtain ⟨t, hturn⟩ := exists_engineTurn (advance s)
  exact (completesWithin_zero (engineTurn_pend hturn)).of_step hpend ((step_engine h).trans hturn)

/-- With no hardware reset to come, the engine's first turn is at the latest the one after the agenda (assumption 1). -/
theorem completesWithin_agenda (hpend : s.pend = some w) (hreset : .hardReset ∉ s.agenda) :
    CompletesWithin (s.agenda.length + 1) w s := by
  generalize hevents : s.agenda = events at hreset
  induction events generalizing s with
  | nil => exact completesWithin_of_engine hpend (by rw [nextEvent, hevents]; rfl)
  | cons e es ih =>
    have hnext : nextEvent s = e := by rw [nextEvent, hevents]; rfl
    obtain ⟨hhead, htail⟩ := List.ne_and_not_mem_of_not_mem_cons hreset
    by_cases hengine : e = .engine
    · exact (completesWithin_of_engine hpend (hnext.trans hengine)).mono (Nat.le_add_left 1 _)
    · obtain ⟨t, hstep, htpend, hagenda⟩ := exists_step_of_host (s := s) (by simp [hpend]) (hnext ▸ hengine)
        (hnext ▸ hhead.symm)
      exact (ih (htpend.trans hpend) (by rw [hagenda, hevents]; rfl) htail).of_step hpend hstep

/-- Settles O7, by induction on the events to come. -/
theorem acceptedCommandCompletes : Obligations.AcceptedCommandCompletes :=
  fun _ _ => completesWithin_agenda

end Sys2Proof.Machine
end
